-- ==== Sys2Proof/Word.lean ====
section
/-! DEFINITION. The word, byte and register-number types of the machine (spec/00_scope.md R9, R11). -/

namespace Sys2Proof

/-- XLEN = 32: every register, the pc, an address and an instruction word (R9). -/
abbrev Word := BitVec 32

/-- The addressable unit of memory, 8 bits (R9). -/
abbrev Byte := BitVec 8

/-- A register number, 0 to 31 (R9, NREGS = 32; spec/10_state.md R22). -/
abbrev Reg := Fin 32

end Sys2Proof
end

