-- ==== Sys2Proof/WellFormed.lean ====
section
/-! DEFINITION. Which instructions are the meaning of some word: a branch or JAL offset has bit 0 zero
(spec/30_encoding.md R76, R78), and a recognised-unimplemented word selects none of the 28 instructions
(R85). Every other field takes every value. -/

namespace Sys2Proof

/-- funct3 of a word, from its bits 31:7. -/
def upperFunct3 (bits : BitVec 25) : BitVec 3 := bits.extractLsb' 5 3

/-- funct7 of a word, from its bits 31:7. -/
def upperFunct7 (bits : BitVec 25) : BitVec 7 := bits.extractLsb' 18 7

/-- The words of the five fallback rows, by funct3 and funct7 (the table of R85). -/
def Instr.WellFormed : Instr → Bool
  | .beq _ _ offset => !offset[0]
  | .bne _ _ offset => !offset[0]
  | .blt _ _ offset => !offset[0]
  | .bge _ _ offset => !offset[0]
  | .bltu _ _ offset => !offset[0]
  | .bgeu _ _ offset => !offset[0]
  | .jal _ offset => !offset[0]
  | .unimplemented33 bits =>
      upperFunct3 bits == 2#3 || upperFunct3 bits == 3#3 ||
      ((upperFunct3 bits == 0#3 || upperFunct3 bits == 5#3) &&
        upperFunct7 bits != 0x00#7 && upperFunct7 bits != 0x20#7)
  | .unimplemented13 bits =>
      upperFunct3 bits == 1#3 || upperFunct3 bits == 2#3 ||
      upperFunct3 bits == 3#3 || upperFunct3 bits == 5#3
  | .unimplemented03 bits =>
      upperFunct3 bits == 3#3 || upperFunct3 bits == 4#3 || upperFunct3 bits == 5#3 ||
      upperFunct3 bits == 6#3 || upperFunct3 bits == 7#3
  | .unimplemented23 bits =>
      upperFunct3 bits == 3#3 || upperFunct3 bits == 4#3 || upperFunct3 bits == 5#3 ||
      upperFunct3 bits == 6#3 || upperFunct3 bits == 7#3
  | .unimplemented63 bits => upperFunct3 bits == 2#3 || upperFunct3 bits == 3#3
  | .add _ _ _ => true
  | .sub _ _ _ => true
  | .sll _ _ _ => true
  | .xor _ _ _ => true
  | .srl _ _ _ => true
  | .sra _ _ _ => true
  | .or _ _ _ => true
  | .and _ _ _ => true
  | .addi _ _ _ => true
  | .xori _ _ _ => true
  | .ori _ _ _ => true
  | .andi _ _ _ => true
  | .lb _ _ _ => true
  | .lh _ _ _ => true
  | .lw _ _ _ => true
  | .sb _ _ _ => true
  | .sh _ _ _ => true
  | .sw _ _ _ => true
  | .lui _ _ => true
  | .auipc _ _ => true
  | .jalr _ _ _ => true

end Sys2Proof
end

