-- ==== Sys2Proof/Decode.lean ====
section
/-! DEFINITION. The decoder (spec/30_encoding.md R71 to R86), total on every 32-bit word, and after it an
encoder from the same tables. -/

namespace Sys2Proof

/-- What the decoder makes of a word (R79, spec/48_unimplemented_and_unknown.md R190): one of the table's
rows, or an opcode that is none of the nine known ones, rejected with its 7 bits. -/
inductive Decoded where
  | instr (i : Instr)
  | unknownOpcode (op : BitVec 7)
  deriving DecidableEq, Repr

/-! ### Fields of a word (R72 to R78)

The positions of rd, rs1, rs2 and the I-immediate, and which immediate bit each instruction bit supplies
in the B and J formats, are the spec's decision D20. PRESUMED by the spec (RV32I), log 11: unsafe. -/

/-- `inst[6:0]` (R73). -/
def Decode.opcode (w : Word) : BitVec 7 := w.extractLsb' 0 7

/-- `inst[14:12]` (R73). -/
def Decode.funct3 (w : Word) : BitVec 3 := w.extractLsb' 12 3

/-- `inst[31:25]` (R73). -/
def Decode.funct7 (w : Word) : BitVec 7 := w.extractLsb' 25 7

/-- A 5-bit field as a register number. -/
def Decode.regAt (w : Word) (low : Nat) : Reg := (w.extractLsb' low 5).toFin

/-- `inst[11:7]` (R72). -/
def Decode.rd (w : Word) : Reg := Decode.regAt w 7

/-- `inst[19:15]` (R72). -/
def Decode.rs1 (w : Word) : Reg := Decode.regAt w 15

/-- `inst[24:20]` (R72). -/
def Decode.rs2 (w : Word) : Reg := Decode.regAt w 20

/-- The 12 bits of the I-immediate, `inst[31:20]` (R74). -/
def Decode.immI (w : Word) : BitVec 12 := w.extractLsb' 20 12

/-- The 12 bits of the S-immediate, `inst[31:25]` then `inst[11:7]` (R75). -/
def Decode.immS (w : Word) : BitVec 12 := w.extractLsb' 25 7 ++ w.extractLsb' 7 5

/-- The 13 bits of the B-immediate, `inst[31]`, `inst[7]`, `inst[30:25]`, `inst[11:8]`, 0 (R76). -/
def Decode.immB (w : Word) : BitVec 13 :=
  w.extractLsb' 31 1 ++ w.extractLsb' 7 1 ++ w.extractLsb' 25 6 ++ w.extractLsb' 8 4 ++ 0#1

/-- The 20-bit field of the U format, `inst[31:12]` (R77). -/
def Decode.immU (w : Word) : BitVec 20 := w.extractLsb' 12 20

/-- The 21 bits of the J-immediate, `inst[31]`, `inst[19:12]`, `inst[20]`, `inst[30:21]`, 0 (R78; the
conflict C7 as resolved there). -/
def Decode.immJ (w : Word) : BitVec 21 :=
  w.extractLsb' 31 1 ++ w.extractLsb' 12 8 ++ w.extractLsb' 20 1 ++ w.extractLsb' 21 10 ++ 0#1

/-- Bits 31:7, all that a recognised-unimplemented word holds beside its opcode. -/
def Decode.upper (w : Word) : BitVec 25 := w.extractLsb' 7 25

/-! ### The three-level multiplexer of R79 -/

/-- Opcode 0x33. funct7 is examined for funct3 0 and 5 only (R83; the spec's decision D9, log 12). -/
def Decode.regReg (w : Word) : Instr :=
  match Decode.funct3 w with
  | 0#3 =>
    if Decode.funct7 w = 0x00#7 then .add (Decode.rd w) (Decode.rs1 w) (Decode.rs2 w)
    else if Decode.funct7 w = 0x20#7 then .sub (Decode.rd w) (Decode.rs1 w) (Decode.rs2 w)
    else .unimplemented33 (Decode.upper w)
  | 1#3 => .sll (Decode.rd w) (Decode.rs1 w) (Decode.rs2 w)
  | 4#3 => .xor (Decode.rd w) (Decode.rs1 w) (Decode.rs2 w)
  | 5#3 =>
    if Decode.funct7 w = 0x00#7 then .srl (Decode.rd w) (Decode.rs1 w) (Decode.rs2 w)
    else if Decode.funct7 w = 0x20#7 then .sra (Decode.rd w) (Decode.rs1 w) (Decode.rs2 w)
    else .unimplemented33 (Decode.upper w)
  | 6#3 => .or (Decode.rd w) (Decode.rs1 w) (Decode.rs2 w)
  | 7#3 => .and (Decode.rd w) (Decode.rs1 w) (Decode.rs2 w)
  | _ => .unimplemented33 (Decode.upper w)

/-- Opcode 0x13. -/
def Decode.regImm (w : Word) : Instr :=
  match Decode.funct3 w with
  | 0#3 => .addi (Decode.rd w) (Decode.rs1 w) (Decode.immI w)
  | 4#3 => .xori (Decode.rd w) (Decode.rs1 w) (Decode.immI w)
  | 6#3 => .ori (Decode.rd w) (Decode.rs1 w) (Decode.immI w)
  | 7#3 => .andi (Decode.rd w) (Decode.rs1 w) (Decode.immI w)
  | _ => .unimplemented13 (Decode.upper w)

/-- Opcode 0x03. -/
def Decode.load (w : Word) : Instr :=
  match Decode.funct3 w with
  | 0#3 => .lb (Decode.rd w) (Decode.rs1 w) (Decode.immI w)
  | 1#3 => .lh (Decode.rd w) (Decode.rs1 w) (Decode.immI w)
  | 2#3 => .lw (Decode.rd w) (Decode.rs1 w) (Decode.immI w)
  | _ => .unimplemented03 (Decode.upper w)

/-- Opcode 0x23. -/
def Decode.store (w : Word) : Instr :=
  match Decode.funct3 w with
  | 0#3 => .sb (Decode.rs1 w) (Decode.rs2 w) (Decode.immS w)
  | 1#3 => .sh (Decode.rs1 w) (Decode.rs2 w) (Decode.immS w)
  | 2#3 => .sw (Decode.rs1 w) (Decode.rs2 w) (Decode.immS w)
  | _ => .unimplemented23 (Decode.upper w)

/-- Opcode 0x63. -/
def Decode.branch (w : Word) : Instr :=
  match Decode.funct3 w with
  | 0#3 => .beq (Decode.rs1 w) (Decode.rs2 w) (Decode.immB w)
  | 1#3 => .bne (Decode.rs1 w) (Decode.rs2 w) (Decode.immB w)
  | 4#3 => .blt (Decode.rs1 w) (Decode.rs2 w) (Decode.immB w)
  | 5#3 => .bge (Decode.rs1 w) (Decode.rs2 w) (Decode.immB w)
  | 6#3 => .bltu (Decode.rs1 w) (Decode.rs2 w) (Decode.immB w)
  | 7#3 => .bgeu (Decode.rs1 w) (Decode.rs2 w) (Decode.immB w)
  | _ => .unimplemented63 (Decode.upper w)

/-- The decoder, total on every word (R79, R81). -/
def decode (w : Word) : Decoded :=
  match Decode.opcode w with
  | 0x33#7 => .instr (Decode.regReg w)
  | 0x13#7 => .instr (Decode.regImm w)
  | 0x03#7 => .instr (Decode.load w)
  | 0x23#7 => .instr (Decode.store w)
  | 0x63#7 => .instr (Decode.branch w)
  | 0x37#7 => .instr (.lui (Decode.rd w) (Decode.immU w))
  | 0x17#7 => .instr (.auipc (Decode.rd w) (Decode.immU w))
  | 0x6F#7 => .instr (.jal (Decode.rd w) (Decode.immJ w))
  | 0x67#7 => .instr (.jalr (Decode.rd w) (Decode.rs1 w) (Decode.immI w))
  | op => .unknownOpcode op

/-! ### Words and bytes -/

/-- The four bytes of a word as the memory holds them, lowest address first (spec/20_memory.md R51). -/
def bytesOfWord (w : Word) : List Byte :=
  [w.extractLsb' 0 8, w.extractLsb' 8 8, w.extractLsb' 16 8, w.extractLsb' 24 8]

/-- The word made of four bytes, the first at the lowest address (R51). -/
def wordOfBytes (b0 b1 b2 b3 : Byte) : Word := b3 ++ b2 ++ b1 ++ b0

/-- The decoder on the bytes of an instruction; fewer or more than four bytes are no instruction (R70). -/
def decodeBytes : List Byte → Option Instr
  | [b0, b1, b2, b3] =>
    match decode (wordOfBytes b0 b1 b2 b3) with
    | .instr i => some i
    | .unknownOpcode _ => none
  | _ => none

/-- The low `nbits` bits of `w` as one instruction word, the bits above them 0. -/
def tableWord (nbits w : Nat) : Word := BitVec.ofNat 32 (w % 2 ^ nbits)

/-- The host's reading of one word of the opcode table: its bytes in memory order, decoded. -/
def decodeTableWord (nbits w : Nat) : Option Instr := decodeBytes (bytesOfWord (tableWord nbits w))

/-! ### The encoder -/

/-- The 5 bits of a register number. -/
def Encode.regBits (r : Reg) : BitVec 5 := BitVec.ofFin r

/-- R format (R71). -/
def Encode.formatR (funct7 : BitVec 7) (rs2 rs1 : Reg) (funct3 : BitVec 3) (rd : Reg) (op : BitVec 7) :
    Word :=
  funct7 ++ Encode.regBits rs2 ++ Encode.regBits rs1 ++ funct3 ++ Encode.regBits rd ++ op

/-- I format (R71, R74). -/
def Encode.formatI (imm : BitVec 12) (rs1 : Reg) (funct3 : BitVec 3) (rd : Reg) (op : BitVec 7) : Word :=
  imm ++ Encode.regBits rs1 ++ funct3 ++ Encode.regBits rd ++ op

/-- S format (R71, R75). -/
def Encode.formatS (imm : BitVec 12) (rs2 rs1 : Reg) (funct3 : BitVec 3) (op : BitVec 7) : Word :=
  imm.extractLsb' 5 7 ++ Encode.regBits rs2 ++ Encode.regBits rs1 ++ funct3 ++ imm.extractLsb' 0 5 ++ op

/-- B format (R71, R76); bit 0 of the offset is not stored. -/
def Encode.formatB (offset : BitVec 13) (rs2 rs1 : Reg) (funct3 : BitVec 3) (op : BitVec 7) : Word :=
  offset.extractLsb' 12 1 ++ offset.extractLsb' 5 6 ++ Encode.regBits rs2 ++ Encode.regBits rs1 ++ funct3 ++
    offset.extractLsb' 1 4 ++ offset.extractLsb' 11 1 ++ op

/-- U format (R71, R77). -/
def Encode.formatU (imm20 : BitVec 20) (rd : Reg) (op : BitVec 7) : Word :=
  imm20 ++ Encode.regBits rd ++ op

/-- J format (R71, R78); bit 0 of the offset is not stored. -/
def Encode.formatJ (offset : BitVec 21) (rd : Reg) (op : BitVec 7) : Word :=
  offset.extractLsb' 20 1 ++ offset.extractLsb' 1 10 ++ offset.extractLsb' 11 1 ++
    offset.extractLsb' 12 8 ++ Encode.regBits rd ++ op

/-- A recognised-unimplemented word: its bits 31:7 and its opcode (R85). -/
def Encode.formatRaw (bits : BitVec 25) (op : BitVec 7) : Word := bits ++ op

/-- The word of an instruction (R80). Where the decoder does not examine funct7 (SLL, XOR, OR, AND) or
funct3 (JALR) the encoder writes the standard 0 (R84). -/
def encode : Instr → Word
  | .add rd rs1 rs2 => Encode.formatR 0x00#7 rs2 rs1 0#3 rd 0x33#7
  | .sub rd rs1 rs2 => Encode.formatR 0x20#7 rs2 rs1 0#3 rd 0x33#7
  | .sll rd rs1 rs2 => Encode.formatR 0x00#7 rs2 rs1 1#3 rd 0x33#7
  | .xor rd rs1 rs2 => Encode.formatR 0x00#7 rs2 rs1 4#3 rd 0x33#7
  | .srl rd rs1 rs2 => Encode.formatR 0x00#7 rs2 rs1 5#3 rd 0x33#7
  | .sra rd rs1 rs2 => Encode.formatR 0x20#7 rs2 rs1 5#3 rd 0x33#7
  | .or rd rs1 rs2 => Encode.formatR 0x00#7 rs2 rs1 6#3 rd 0x33#7
  | .and rd rs1 rs2 => Encode.formatR 0x00#7 rs2 rs1 7#3 rd 0x33#7
  | .addi rd rs1 imm => Encode.formatI imm rs1 0#3 rd 0x13#7
  | .xori rd rs1 imm => Encode.formatI imm rs1 4#3 rd 0x13#7
  | .ori rd rs1 imm => Encode.formatI imm rs1 6#3 rd 0x13#7
  | .andi rd rs1 imm => Encode.formatI imm rs1 7#3 rd 0x13#7
  | .lb rd rs1 imm => Encode.formatI imm rs1 0#3 rd 0x03#7
  | .lh rd rs1 imm => Encode.formatI imm rs1 1#3 rd 0x03#7
  | .lw rd rs1 imm => Encode.formatI imm rs1 2#3 rd 0x03#7
  | .sb rs1 rs2 imm => Encode.formatS imm rs2 rs1 0#3 0x23#7
  | .sh rs1 rs2 imm => Encode.formatS imm rs2 rs1 1#3 0x23#7
  | .sw rs1 rs2 imm => Encode.formatS imm rs2 rs1 2#3 0x23#7
  | .beq rs1 rs2 offset => Encode.formatB offset rs2 rs1 0#3 0x63#7
  | .bne rs1 rs2 offset => Encode.formatB offset rs2 rs1 1#3 0x63#7
  | .blt rs1 rs2 offset => Encode.formatB offset rs2 rs1 4#3 0x63#7
  | .bge rs1 rs2 offset => Encode.formatB offset rs2 rs1 5#3 0x63#7
  | .bltu rs1 rs2 offset => Encode.formatB offset rs2 rs1 6#3 0x63#7
  | .bgeu rs1 rs2 offset => Encode.formatB offset rs2 rs1 7#3 0x63#7
  | .lui rd imm20 => Encode.formatU imm20 rd 0x37#7
  | .auipc rd imm20 => Encode.formatU imm20 rd 0x17#7
  | .jal rd offset => Encode.formatJ offset rd 0x6F#7
  | .jalr rd rs1 imm => Encode.formatI imm rs1 0#3 rd 0x67#7
  | .unimplemented33 bits => Encode.formatRaw bits 0x33#7
  | .unimplemented13 bits => Encode.formatRaw bits 0x13#7
  | .unimplemented03 bits => Encode.formatRaw bits 0x03#7
  | .unimplemented23 bits => Encode.formatRaw bits 0x23#7
  | .unimplemented63 bits => Encode.formatRaw bits 0x63#7

/-! ### The opcode table (R80, R92) -/

/-- One row of the table: a word `w` selects it when `w &&& mask = pattern` (R80). -/
structure OpcodeRow where
  mnemonic : String
  pattern : Word
  mask : Word
  deriving DecidableEq, Repr

/-- A word selects a row of the table (R80). -/
def OpcodeRow.Matches (row : OpcodeRow) (w : Word) : Prop := w &&& row.mask = row.pattern

/-- The rows of opcode 0x33 (R80). -/
def OpcodeTable.regReg : List OpcodeRow :=
  [⟨"ADD", 0x00000033#32, 0xFE00707F#32⟩, ⟨"SUB", 0x40000033#32, 0xFE00707F#32⟩,
   ⟨"SLL", 0x00001033#32, 0x0000707F#32⟩, ⟨"XOR", 0x00004033#32, 0x0000707F#32⟩,
   ⟨"SRL", 0x00005033#32, 0xFE00707F#32⟩, ⟨"SRA", 0x40005033#32, 0xFE00707F#32⟩,
   ⟨"OR", 0x00006033#32, 0x0000707F#32⟩, ⟨"AND", 0x00007033#32, 0x0000707F#32⟩]

/-- The rows of opcodes 0x13, 0x03 and 0x23 (R80). -/
def OpcodeTable.immLoadStore : List OpcodeRow :=
  [⟨"ADDI", 0x00000013#32, 0x0000707F#32⟩, ⟨"XORI", 0x00004013#32, 0x0000707F#32⟩,
   ⟨"ORI", 0x00006013#32, 0x0000707F#32⟩, ⟨"ANDI", 0x00007013#32, 0x0000707F#32⟩,
   ⟨"LB", 0x00000003#32, 0x0000707F#32⟩, ⟨"LH", 0x00001003#32, 0x0000707F#32⟩,
   ⟨"LW", 0x00002003#32, 0x0000707F#32⟩,
   ⟨"SB", 0x00000023#32, 0x0000707F#32⟩, ⟨"SH", 0x00001023#32, 0x0000707F#32⟩,
   ⟨"SW", 0x00002023#32, 0x0000707F#32⟩]

/-- The rows of opcodes 0x63, 0x37, 0x17, 0x6F and 0x67 (R80). -/
def OpcodeTable.control : List OpcodeRow :=
  [⟨"BEQ", 0x00000063#32, 0x0000707F#32⟩, ⟨"BNE", 0x00001063#32, 0x0000707F#32⟩,
   ⟨"BLT", 0x00004063#32, 0x0000707F#32⟩, ⟨"BGE", 0x00005063#32, 0x0000707F#32⟩,
   ⟨"BLTU", 0x00006063#32, 0x0000707F#32⟩, ⟨"BGEU", 0x00007063#32, 0x0000707F#32⟩,
   ⟨"LUI", 0x00000037#32, 0x0000007F#32⟩, ⟨"AUIPC", 0x00000017#32, 0x0000007F#32⟩,
   ⟨"JAL", 0x0000006F#32, 0x0000007F#32⟩, ⟨"JALR", 0x00000067#32, 0x0000007F#32⟩]

/-- The 28 instruction rows (R80). -/
def OpcodeTable.instructionRows : List OpcodeRow :=
  OpcodeTable.regReg ++ OpcodeTable.immLoadStore ++ OpcodeTable.control

/-- The five fallback rows, tried after the instruction rows (R92). -/
def OpcodeTable.fallbackRows : List OpcodeRow :=
  [⟨"UNIMPLEMENTED_33", 0x00000033#32, 0x0000007F#32⟩,
   ⟨"UNIMPLEMENTED_13", 0x00000013#32, 0x0000007F#32⟩,
   ⟨"UNIMPLEMENTED_03", 0x00000003#32, 0x0000007F#32⟩,
   ⟨"UNIMPLEMENTED_23", 0x00000023#32, 0x0000007F#32⟩,
   ⟨"UNIMPLEMENTED_63", 0x00000063#32, 0x0000007F#32⟩]

end Sys2Proof
end

