-- ==== Sys2Proof/Config.lean ====
section
/-! DEFINITION. What the spec fixes for every instance and the parameters it leaves to the instance
(spec/00_scope.md R9, R10). The parameters are plain data, carried by the machine's state, so that every
statement over all states holds for every choice of them. -/

namespace Sys2Proof

/-- ADDR_WRAP (R10; spec/20_memory.md R48): where byte `i` of a multi-byte access lies. -/
inductive AddrWrap where
  /-- at `(addr + i) mod 2^32` -/
  | wrap
  /-- at `addr + i`, out of range from 2^32 on -/
  | zero
  deriving DecidableEq, Repr

/-- UNIMPL_SIGNAL (R10; spec/48_unimplemented_and_unknown.md R191): what a step over a
recognised-unimplemented encoding returns. -/
inductive UnimplSignal where
  /-- `Continue` -/
  | continues
  /-- `DecodeFault(opcode)` with the word's own opcode -/
  | decodeFault
  deriving DecidableEq, Repr

/-- The parameters of one instance (R10). -/
structure Config where
  /-- MEM_CAPACITY, the number of bytes of the memory array: 0 to 2^32 (R10; D15). -/
  memCapacity : Fin 4294967297
  /-- RESET_PC, the pc after reset (R10; D1). -/
  resetPc : Word
  /-- SP_INIT, x2 after reset (R10; D3). -/
  spInit : Word
  /-- ADDR_WRAP (R10; D12). -/
  addrWrap : AddrWrap
  /-- UNIMPL_SIGNAL (R10; D7). -/
  unimplSignal : UnimplSignal
  deriving DecidableEq, Repr

/-- The instance of a given capacity with the default of every other parameter (R10): RESET_PC = 0,
SP_INIT = MEM_CAPACITY mod 2^32, ADDR_WRAP = wrap, UNIMPL_SIGNAL = Continue.
DESIGN CHOICE (the spec's decisions D1, D3, D12, D7; logs 4, 5, 7, 8), unsafe for an instance that
chooses otherwise: such an instance is another `Config`. -/
def Config.ofCapacity (capacity : Fin 4294967297) : Config where
  memCapacity := capacity
  resetPc := 0x00000000#32
  spInit := BitVec.ofNat 32 capacity.val
  addrWrap := .wrap
  unimplSignal := .continues

/-- The reference driver's instance: MEM_CAPACITY = 1048576, 1 MiB (R10). -/
def Config.default : Config := Config.ofCapacity ⟨1048576, by decide⟩

/-- HALT_VECTOR (R9). -/
def Config.haltVector : Word := 0xFFFFFFFE#32

/-- RA_INIT = HALT_VECTOR, the value of x1 after reset (R9). -/
def Config.raInit : Word := Config.haltVector

end Sys2Proof
end

