-- ==== Sys2Proof/Machine/State.lean ====
section
/-! DEFINITION. The state of the machine, right after reset and in general, and the reasons a step could
stop (spec/10_state.md). -/

namespace Sys2Proof.Machine

/-- The completion signal of a step (spec/40_step_cycle.md R108): what a step returns to the host. -/
inductive Signal where
  /-- `Continue`: a word was executed -/
  | continues
  /-- `Halted`: the step found the pc at the halt vector and changed nothing (R102) -/
  | halted
  /-- `DecodeFault(op)`: the low 7 bits of the word are no known opcode (R108, R110) -/
  | decodeFault (op : BitVec 7)
  deriving DecidableEq, Repr

/-- The memory array as plain data: the bytes that are not `Memory.unlisted`, by address. -/
abbrev Memory := List Host.Cell

/-- What an address no cell lists reads as: 0, "a fixed-size, zero-initialized byte array"
(spec/10_state.md R34, R36; spec/20_memory.md R42). -/
def Memory.unlisted : Byte := 0x00#8

/-- The canonical form: addresses strictly rising, no cell equal to what an unlisted address reads as. -/
abbrev Memory.wf (m : Memory) : Prop :=
  m.Pairwise (fun c d => c.1 < d.1) ∧ ∀ c ∈ m, c.2 ≠ Memory.unlisted

/-- The whole state (spec/10_state.md R20): registers, pc, memory; and two fields of the model's own,
`signal` and `cfg`. -/
structure State where
  /-- the register file `x[0..31]` (R22) -/
  regs : Vector Word 32
  /-- the program counter (R26) -/
  pc : Word
  /-- the memory array (R34) -/
  mem : Memory
  /-- The MODEL's own: the signal the last step returned, an output in the spec (R21; log 1). No step
  reads it. -/
  signal : Signal
  /-- The MODEL's own: the instance's parameters (R21; spec/00_scope.md R10; log 2). No step changes it. -/
  cfg : Config
  deriving DecidableEq, Repr

/-- Why a step stops with a fault: never. Every step is a next state (spec/40_step_cycle.md R111: `step()`
"is defined, never blocks, never fails"), `Halted` and `DecodeFault` included, which are signals; so the
type is empty, nobody raises it, and that is safe. -/
inductive Fault : Type
  deriving DecidableEq, Repr

/-- Why a step is refused. -/
inductive Refusal where
  /-- Raised by `exec` for an instruction that has no meaning yet; no arm of `exec` raises it. Safe. -/
  | notModelled (mnemonic : String)
  deriving DecidableEq, Repr

/-- What a step or a meaning answers. -/
abbrev Result := Host.Outcome State Fault Refusal

/-- The register file after an engine reset (R36): x1 = RA_INIT, x2 = SP_INIT, every other register 0.
x3 to x31 = 0 is DESIGN CHOICE (the spec's decision D2; log 3), unsafe: a program may read one before it
writes it. -/
def State.resetRegs (cfg : Config) : Vector Word 32 :=
  ((Vector.replicate 32 0#32).set 1 Config.raInit).set 2 cfg.spInit

/-- An engine reset against a memory just created: all bytes 0, pc = RESET_PC (R36;
spec/70_reset_and_hazards.md R251, R253). The signal is DESIGN CHOICE (log 1). -/
def State.powerOn (cfg : Config) : State where
  regs := State.resetRegs cfg
  pc := cfg.resetPc
  mem := []
  signal := .continues
  cfg := cfg

/-- The machine right after reset, with the reference driver's parameters (R36; vector I-01). -/
def State.reset : State := State.powerOn Config.default

end Sys2Proof.Machine
end

