-- ==== Sys2Proof/Machine/Ops.lean ====
section
/-! DEFINITION. The named operations over registers, memory and the pc, and the step's frame: halt check,
fetch, advance, completion signals, the x0 clear (spec/10_state.md, 20_memory.md, 40_step_cycle.md). -/

namespace Sys2Proof.Machine

/-! ### Registers -/

/-- Register `r`. Register 0 yields 0 (R23). -/
def State.readReg (s : State) (r : Reg) : Word := if r = 0 then 0#32 else s.regs[r]

/-- Write register `r`. A write to register 0 is discarded here, as R23 allows; the clear at the end of
the step (`State.clearX0`) is made as well. DEDUCED, log 10: safe. -/
def State.writeReg (s : State) (r : Reg) (v : Word) : State :=
  if r = 0 then s else { s with regs := s.regs.set r v }

/-- `x[0] <- 0`, the last action of a step (spec/40_step_cycle.md R107). -/
def State.clearX0 (s : State) : State := { s with regs := s.regs.set 0 0#32 }

/-! ### The pc and the signal -/

/-- `pc <- t`. -/
def State.setPc (s : State) (t : Word) : State := { s with pc := t }

/-- Record the completion signal of the step (R108; log 1). -/
def State.setSignal (s : State) (g : Signal) : State := { s with signal := g }

/-! ### The memory array as a list of cells -/

/-- The byte at an address. -/
def Memory.read : Memory → Nat → Byte
  | [], _ => Memory.unlisted
  | c :: m, a => if c.1 = a then c.2 else Memory.read m a

/-- Remove an address. -/
def Memory.erase : Memory → Nat → Memory
  | [], _ => []
  | c :: m, a => if c.1 = a then Memory.erase m a else c :: Memory.erase m a

/-- Put a cell at its place among rising addresses. -/
def Memory.insert : Memory → Nat → Byte → Memory
  | [], a, v => [(a, v)]
  | c :: m, a, v => if a < c.1 then (a, v) :: c :: m else c :: Memory.insert m a v

/-- Store a byte at an address, keeping the canonical form: the value an unlisted address reads as is
not listed. -/
def Memory.write (m : Memory) (a : Nat) (v : Byte) : Memory :=
  if v = Memory.unlisted then Memory.erase m a else Memory.insert (Memory.erase m a) a v

/-! ### The memory component (spec/20_memory.md)

An address is a `Nat` here, so that ADDR_WRAP = zero can present an address of 2^32 or more (R48). -/

/-- `capacity()` (R45). -/
def State.capacity (s : State) : Nat := s.cfg.memCapacity.val

/-- `read(a)`: the byte if `a < MEM_CAPACITY`, else 0 (R41, R42). -/
def State.readByte (s : State) (a : Nat) : Byte :=
  if a < s.capacity then Memory.read s.mem a else 0x00#8

/-- `write(a, b)`: stores the byte if `a < MEM_CAPACITY`, else nothing (R43). -/
def State.writeByte (s : State) (a : Nat) (v : Byte) : State :=
  if a < s.capacity then { s with mem := Memory.write s.mem a v } else s

/-- `A(addr, i)`, the address of byte `i` of an access at `addr`, for a setting of ADDR_WRAP (R48; the
spec's decision D12, both settings modelled, log 7). -/
def byteAddrOf (mode : AddrWrap) (addr : Word) (i : Nat) : Nat :=
  match mode with
  | .wrap => (addr.toNat + i) % 2 ^ 32
  | .zero => addr.toNat + i

/-- `A(addr, i)` on this instance (R48). -/
def State.byteAddr (s : State) (addr : Word) (i : Nat) : Nat := byteAddrOf s.cfg.addrWrap addr i

/-- Byte `i` of an access at `addr`. -/
def State.byteAt (s : State) (addr : Word) (i : Nat) : Byte := s.readByte (s.byteAddr addr i)

/-- `MemRead(addr, 1)` (R46). -/
def State.loadByte (s : State) (addr : Word) : BitVec 8 := s.byteAt addr 0

/-- `MemRead(addr, 2)`, little-endian (R46, R51). -/
def State.loadHalf (s : State) (addr : Word) : BitVec 16 := s.byteAt addr 1 ++ s.byteAt addr 0

/-- `MemRead(addr, 4)` = `read_word(addr)`, little-endian (R44, R46, R51). -/
def State.loadWord (s : State) (addr : Word) : BitVec 32 :=
  s.byteAt addr 3 ++ s.byteAt addr 2 ++ s.byteAt addr 1 ++ s.byteAt addr 0

/-- `MemWrite(addr, n, v)`: the low `n` bytes of `v`, byte by byte, each bounds-checked on its own
(R47; the spec's decision D14, log 19). -/
def State.store (s : State) (addr : Word) (n : Nat) (v : Word) : State :=
  match n with
  | 0 => s
  | k + 1 => (s.store addr k v).writeByte (s.byteAddr addr k) (v.extractLsb' (8 * k) 8)

/-! ### The frame of a step (spec/40_step_cycle.md R100) -/

/-- The halt compare, bit 0 masked (R101; the spec's decision D4, log 15). -/
def State.atHaltVector (s : State) : Bool := s.pc &&& Config.haltVector == Config.haltVector

/-- The fetch: `MemRead(pc, 4)` (R103). -/
def State.fetch (s : State) : Word := s.loadWord s.pc

/-- The advance: `pc <- pc + 4 mod 2^32` (R104). The instruction executes on the advanced state, its `pc`
being `npc` (R26; DEDUCED, log 14: safe). -/
def State.advance (s : State) : State := s.setPc (s.pc + 4#32)

/-- `ia`, the address of the instruction being executed: `npc - 4` (R26). -/
def State.ia (s : State) : Word := s.pc - 4#32

/-- `raise Halted`: nothing changes but the signal (R102; the spec's decision D5, log 15). -/
def State.raiseHalted (s : State) : State := s.setSignal .halted

/-- `raise DecodeFault(op)` on the advanced state: nothing else changes (R110,
spec/48_unimplemented_and_unknown.md R194; the spec's decisions D6, D22, log 16). There is no trap entry on
this hardware (spec/60_exceptions.md R225): this and `raiseHalted` are all that stands in its place. -/
def State.raiseDecodeFault (s : State) (op : BitVec 7) : State := s.setSignal (.decodeFault op)

/-- An instruction ends with `Continue` (R108). -/
def State.retire (s : State) : Result := .next (s.setSignal .continues)

/-- A recognised-unimplemented word ends with UNIMPL_SIGNAL and no other effect
(spec/48_unimplemented_and_unknown.md R191; the spec's decision D7, log 8). -/
def State.retireUnimplemented (s : State) (op : BitVec 7) : Result :=
  match s.cfg.unimplSignal with
  | .continues => s.retire
  | .decodeFault => .next (s.raiseDecodeFault op)

/-- The end of a step that did not halt: `x[0] <- 0`, whatever the word was (R107). -/
def State.finish : Result → Result
  | .next s => .next s.clearX0
  | .fault f => .fault f
  | .refused r => .refused r

end Sys2Proof.Machine
end

