-- ==== Sys2Proof/Machine/Operands.lean ====
section
/-! DEFINITION. The operand forms: immediates extended to 32 bits (spec/30_encoding.md R74 to R78), effective
addresses (spec/43_loads.md R140, 44_stores.md R150), shift amounts (spec/41_register_register.md R123),
targets. -/

namespace Sys2Proof.Machine

/-- `immI`: 12 bits sign-extended (R74). -/
def immI (imm : BitVec 12) : Word := imm.signExtend 32

/-- `immS`: 12 bits sign-extended (R75). -/
def immS (imm : BitVec 12) : Word := imm.signExtend 32

/-- `immB`: 13 bits sign-extended, bit 0 zero in a well-formed instruction (R76). -/
def immB (offset : BitVec 13) : Word := offset.signExtend 32

/-- `immU`: the 20-bit field over 12 zeros (R77). -/
def immU (imm20 : BitVec 20) : Word := imm20 ++ 0#12

/-- `immJ`: 21 bits sign-extended, bit 0 zero in a well-formed instruction (R78). -/
def immJ (offset : BitVec 21) : Word := offset.signExtend 32

/-- `shamt = x[rs2][4:0]` (R123). -/
def shamt (v : Word) : Nat := (v.extractLsb' 0 5).toNat

/-- The effective address of a load: `(x[rs1] + immI) mod 2^32` (R140). -/
def State.loadAddr (s : State) (rs1 : Reg) (imm : BitVec 12) : Word := s.readReg rs1 + immI imm

/-- The effective address of a store: `(x[rs1] + immS) mod 2^32` (R150). -/
def State.storeAddr (s : State) (rs1 : Reg) (imm : BitVec 12) : Word := s.readReg rs1 + immS imm

/-- The target of a taken branch: `(ia + immB) mod 2^32` (spec/45_branches.md R160). -/
def State.branchTarget (s : State) (offset : BitVec 13) : Word := s.ia + immB offset

/-- The target of JAL: `(ia + immJ) mod 2^32` (spec/47_jumps.md R181). -/
def State.jalTarget (s : State) (offset : BitVec 21) : Word := s.ia + immJ offset

/-- The target of JALR: `((x[rs1] + immI) mod 2^32) & 0xFFFFFFFE` (R182). -/
def State.jalrTarget (s : State) (rs1 : Reg) (imm : BitVec 12) : Word :=
  (s.readReg rs1 + immI imm) &&& 0xFFFFFFFE#32

end Sys2Proof.Machine
end

