-- ==== Sys2Proof/Machine/Flags.lean ====
section
/-! DEFINITION. The machine has no flags (spec/10_state.md R30): "comparisons are made inside the branch
instructions and leave no trace". This file holds those comparisons (spec/45_branches.md R162 to R167). -/

namespace Sys2Proof.Machine

/-- `x[rs1] == x[rs2]`, all 32 bits (R162; the conflict C2 as resolved there, log 26). -/
def condEq (a b : Word) : Bool := a == b

/-- `x[rs1] != x[rs2]` (R163). -/
def condNe (a b : Word) : Bool := a != b

/-- `signed(x[rs1]) < signed(x[rs2])` (R164). -/
def condLt (a b : Word) : Bool := a.slt b

/-- `signed(x[rs1]) >= signed(x[rs2])` (R165). -/
def condGe (a b : Word) : Bool := b.sle a

/-- `unsigned(x[rs1]) < unsigned(x[rs2])` (R166). -/
def condLtu (a b : Word) : Bool := a.ult b

/-- `unsigned(x[rs1]) >= unsigned(x[rs2])` (R167). -/
def condGeu (a b : Word) : Bool := b.ule a

end Sys2Proof.Machine
end

