-- ==== Sys2Proof/Machine/Branches.lean ====
section
/-! DEFINITION. Conditional branches (spec/45_branches.md): nothing about the target is checked (R161). -/

namespace Sys2Proof.Machine

/-- The family: taken, `pc <- (ia + immB) mod 2^32`; not taken, the pc stays `npc` (R160). -/
def State.branch (s : State) (cond : Word → Word → Bool) (rs1 rs2 : Reg) (offset : BitVec 13) : Result :=
  if cond (s.readReg rs1) (s.readReg rs2) then (s.setPc (s.branchTarget offset)).retire else s.retire

/-- BEQ (R162). -/
def execBeq (rs1 rs2 : Reg) (offset : BitVec 13) (s : State) : Result := s.branch condEq rs1 rs2 offset

/-- BNE (R163). -/
def execBne (rs1 rs2 : Reg) (offset : BitVec 13) (s : State) : Result := s.branch condNe rs1 rs2 offset

/-- BLT (R164). -/
def execBlt (rs1 rs2 : Reg) (offset : BitVec 13) (s : State) : Result := s.branch condLt rs1 rs2 offset

/-- BGE (R165). -/
def execBge (rs1 rs2 : Reg) (offset : BitVec 13) (s : State) : Result := s.branch condGe rs1 rs2 offset

/-- BLTU (R166). -/
def execBltu (rs1 rs2 : Reg) (offset : BitVec 13) (s : State) : Result := s.branch condLtu rs1 rs2 offset

/-- BGEU (R167). -/
def execBgeu (rs1 rs2 : Reg) (offset : BitVec 13) (s : State) : Result := s.branch condGeu rs1 rs2 offset

end Sys2Proof.Machine
end

