-- ==== Sys2Proof/Machine/Jumps.lean ====
section
/-! DEFINITION. Jumps (spec/47_jumps.md). The link value is `npc`, the pc of the advanced state (R180). -/

namespace Sys2Proof.Machine

/-- JAL: `x[rd] <- npc`, `pc <- (ia + immJ) mod 2^32` (R181). -/
def execJal (rd : Reg) (offset : BitVec 21) (s : State) : Result :=
  ((s.writeReg rd s.pc).setPc (s.jalTarget offset)).retire

/-- JALR: the target from the old `x[rs1]`, then `x[rd] <- npc`, then `pc <- target` (R182; R105, log 20). -/
def execJalr (rd rs1 : Reg) (imm : BitVec 12) (s : State) : Result :=
  ((s.writeReg rd s.pc).setPc (s.jalrTarget rs1 imm)).retire

end Sys2Proof.Machine
end

