-- ==== Sys2Proof/Machine/Loads.lean ====
section
/-! DEFINITION. Loads (spec/43_loads.md): no load faults, at any address (R141). -/

namespace Sys2Proof.Machine

/-- LB: `x[rd] <- sext_8(MemRead(ea, 1))` (R142). -/
def execLb (rd rs1 : Reg) (imm : BitVec 12) (s : State) : Result :=
  (s.writeReg rd ((s.loadByte (s.loadAddr rs1 imm)).signExtend 32)).retire

/-- LH: `x[rd] <- sext_16(MemRead(ea, 2))` (R143). -/
def execLh (rd rs1 : Reg) (imm : BitVec 12) (s : State) : Result :=
  (s.writeReg rd ((s.loadHalf (s.loadAddr rs1 imm)).signExtend 32)).retire

/-- LW: `x[rd] <- MemRead(ea, 4)` (R144). -/
def execLw (rd rs1 : Reg) (imm : BitVec 12) (s : State) : Result :=
  (s.writeReg rd (s.loadWord (s.loadAddr rs1 imm))).retire

end Sys2Proof.Machine
end

