-- ==== Sys2Proof/Machine/RegImm.lean ====
section
/-! DEFINITION. Register-immediate instructions (spec/42_register_immediate.md). -/

namespace Sys2Proof.Machine

/-- The family: `rd = rs1 OP sign_extend(imm)` (R130). -/
def State.regImm (s : State) (f : Word → Word → Word) (rd rs1 : Reg) (imm : BitVec 12) : Result :=
  (s.writeReg rd (f (s.readReg rs1) (immI imm))).retire

/-- ADDI: `x[rd] <- (x[rs1] + immI) mod 2^32` (R131). -/
def execAddi (rd rs1 : Reg) (imm : BitVec 12) (s : State) : Result := s.regImm (fun a b => a + b) rd rs1 imm

/-- XORI: `x[rd] <- x[rs1] ^ immI` (R132). -/
def execXori (rd rs1 : Reg) (imm : BitVec 12) (s : State) : Result := s.regImm (fun a b => a ^^^ b) rd rs1 imm

/-- ORI: `x[rd] <- x[rs1] | immI` (R133). -/
def execOri (rd rs1 : Reg) (imm : BitVec 12) (s : State) : Result := s.regImm (fun a b => a ||| b) rd rs1 imm

/-- ANDI: `x[rd] <- x[rs1] & immI` (R134). -/
def execAndi (rd rs1 : Reg) (imm : BitVec 12) (s : State) : Result := s.regImm (fun a b => a &&& b) rd rs1 imm

end Sys2Proof.Machine
end

