-- ==== Sys2Proof/Machine/RegReg.lean ====
section
/-! DEFINITION. Register-register instructions (spec/41_register_register.md). -/

namespace Sys2Proof.Machine

/-- The family: `rd = f(rs1, rs2)`, both sources read before `rd` is written (R120; R105, log 20). -/
def State.regReg (s : State) (f : Word → Word → Word) (rd rs1 rs2 : Reg) : Result :=
  (s.writeReg rd (f (s.readReg rs1) (s.readReg rs2))).retire

/-- ADD: `x[rd] <- (x[rs1] + x[rs2]) mod 2^32` (R121). -/
def execAdd (rd rs1 rs2 : Reg) (s : State) : Result := s.regReg (fun a b => a + b) rd rs1 rs2

/-- SUB: `x[rd] <- (x[rs1] - x[rs2]) mod 2^32` (R122). -/
def execSub (rd rs1 rs2 : Reg) (s : State) : Result := s.regReg (fun a b => a - b) rd rs1 rs2

/-- SLL: `x[rd] <- (x[rs1] << x[rs2][4:0])[31:0]` (R123). -/
def execSll (rd rs1 rs2 : Reg) (s : State) : Result := s.regReg (fun a b => a <<< shamt b) rd rs1 rs2

/-- XOR: `x[rd] <- x[rs1] ^ x[rs2]` (R124). -/
def execXor (rd rs1 rs2 : Reg) (s : State) : Result := s.regReg (fun a b => a ^^^ b) rd rs1 rs2

/-- SRL: `x[rd] <- unsigned(x[rs1]) >> x[rs2][4:0]` (R125). -/
def execSrl (rd rs1 rs2 : Reg) (s : State) : Result := s.regReg (fun a b => a >>> shamt b) rd rs1 rs2

/-- SRA: `x[rd] <- floor(signed(x[rs1]) / 2^shamt) mod 2^32` (R126). -/
def execSra (rd rs1 rs2 : Reg) (s : State) : Result := s.regReg (fun a b => a.sshiftRight (shamt b)) rd rs1 rs2

/-- OR: `x[rd] <- x[rs1] | x[rs2]` (R127). -/
def execOr (rd rs1 rs2 : Reg) (s : State) : Result := s.regReg (fun a b => a ||| b) rd rs1 rs2

/-- AND: `x[rd] <- x[rs1] & x[rs2]` (R128). -/
def execAnd (rd rs1 rs2 : Reg) (s : State) : Result := s.regReg (fun a b => a &&& b) rd rs1 rs2

end Sys2Proof.Machine
end

