-- ==== Sys2Proof/Machine/Stores.lean ====
section
/-! DEFINITION. Stores (spec/44_stores.md): no store faults, at any address (R151). -/

namespace Sys2Proof.Machine

/-- SB: `MemWrite(ea, 1, x[rs2])` (R152). -/
def execSb (rs1 rs2 : Reg) (imm : BitVec 12) (s : State) : Result :=
  (s.store (s.storeAddr rs1 imm) 1 (s.readReg rs2)).retire

/-- SH: `MemWrite(ea, 2, x[rs2])` (R153). -/
def execSh (rs1 rs2 : Reg) (imm : BitVec 12) (s : State) : Result :=
  (s.store (s.storeAddr rs1 imm) 2 (s.readReg rs2)).retire

/-- SW: `MemWrite(ea, 4, x[rs2])` (R154). -/
def execSw (rs1 rs2 : Reg) (imm : BitVec 12) (s : State) : Result :=
  (s.store (s.storeAddr rs1 imm) 4 (s.readReg rs2)).retire

end Sys2Proof.Machine
end

