-- ==== Sys2Proof/Machine/Unimplemented.lean ====
section
/-! DEFINITION. The recognised-unimplemented encodings (spec/48_unimplemented_and_unknown.md R191, R192):
no-ops beyond the pc advance that ends with UNIMPL_SIGNAL; what the standard ISA would do with the word's
other bits does not happen (R193). -/

namespace Sys2Proof.Machine

/-- UNIMPLEMENTED_33: SLT, SLTU and the reserved funct7 values at funct3 0 and 5 (R85). -/
def execUnimplemented33 (_bits : BitVec 25) (s : State) : Result := s.retireUnimplemented 0x33#7

/-- UNIMPLEMENTED_13: SLLI, SLTI, SLTIU, SRLI, SRAI (R85). -/
def execUnimplemented13 (_bits : BitVec 25) (s : State) : Result := s.retireUnimplemented 0x13#7

/-- UNIMPLEMENTED_03: LBU, LHU and funct3 3, 6, 7 (R85). -/
def execUnimplemented03 (_bits : BitVec 25) (s : State) : Result := s.retireUnimplemented 0x03#7

/-- UNIMPLEMENTED_23: funct3 3 to 7 (R85). -/
def execUnimplemented23 (_bits : BitVec 25) (s : State) : Result := s.retireUnimplemented 0x23#7

/-- UNIMPLEMENTED_63: funct3 2 and 3 (R85). -/
def execUnimplemented63 (_bits : BitVec 25) (s : State) : Result := s.retireUnimplemented 0x63#7

/-- The opcode of a recognised-unimplemented instruction (R85). -/
def unimplementedOpcode : Instr → Option (BitVec 7)
  | .unimplemented33 _ => some 0x33#7
  | .unimplemented13 _ => some 0x13#7
  | .unimplemented03 _ => some 0x03#7
  | .unimplemented23 _ => some 0x23#7
  | .unimplemented63 _ => some 0x63#7
  | _ => none

end Sys2Proof.Machine
end

