-- ==== Sys2Proof/Machine/Upper.lean ====
section
/-! DEFINITION. Upper-immediate instructions (spec/46_upper_immediate.md). -/

namespace Sys2Proof.Machine

/-- LUI: `x[rd] <- immU` (R171). -/
def execLui (rd : Reg) (imm20 : BitVec 20) (s : State) : Result := (s.writeReg rd (immU imm20)).retire

/-- AUIPC: `x[rd] <- (ia + immU) mod 2^32` (R172). -/
def execAuipc (rd : Reg) (imm20 : BitVec 20) (s : State) : Result :=
  (s.writeReg rd (s.ia + immU imm20)).retire

end Sys2Proof.Machine
end

