-- ==== Sys2Proof/Machine/Step.lean ====
section
/-! DEFINITION. One step of the engine (spec/40_step_cycle.md R100), and where the host places a word for
the next step to run. -/

namespace Sys2Proof.Machine

/-- `step()` (R100): the halt check, else fetch, advance, execute, clear x0. Total: it always answers a
next state (R111), whose `signal` is what the step returned. -/
def step (s : State) : Host.Outcome State Fault Refusal :=
  if s.atHaltVector then .next s.raiseHalted
  else
    match decode s.fetch with
    | .instr i => State.finish (exec i s.advance)
    | .unknownOpcode op => State.finish (.next (s.advance.raiseDecodeFault op))

/-- `s` with an instruction word stored at its pc, little-endian, where the next step fetches it; bytes
out of the memory's range are dropped like any write (log 23). -/
def State.withFetchWord (s : State) (nbits w : Nat) : State := s.store s.pc 4 (tableWord nbits w)

end Sys2Proof.Machine
end

