-- ==== Sys2Proof/Machine/HostInterface.lean ====
section
/-! DEFINITION. What the host may do between steps beside invoking `step` (spec/50_interfaces.md R202, R205,
R211; spec/20_memory.md R50; spec/70_reset_and_hazards.md R250 to R253). `read`, `write`, `read_word`,
`capacity` are `State.readByte`, `State.writeByte`, `State.loadWord`, `State.capacity`. -/

namespace Sys2Proof.Machine

/-- Engine reset against the memory as it stands: registers and pc take their reset values, no byte of
memory changes (R250 to R252; the spec's decision D21, log 22). The signal is DESIGN CHOICE (log 1). -/
def State.engineReset (s : State) : State :=
  { s with regs := State.resetRegs s.cfg, pc := s.cfg.resetPc, signal := .continues }

/-- What `load_image` reports (R50). -/
inductive LoadOutcome where
  | success
  | failure
  deriving DecidableEq, Repr

/-- Write bytes at ascending addresses from `start`. -/
def State.copyIn (s : State) (start : Nat) : List Byte → State
  | [] => s
  | b :: bs => (s.writeByte start b).copyIn (start + 1) bs

/-- `load_image(bytes)`: copied to offset 0, or rejected with no byte changed if there are more than
MEM_CAPACITY of them (R50; the conflict C9 as resolved there, log 25). -/
def State.loadImage (s : State) (bytes : List Byte) : LoadOutcome × State :=
  if bytes.length ≤ s.capacity then (.success, s.copyIn 0 bytes) else (.failure, s)

/-- The read-only introspection surface: the 32 registers and the pc (R205). -/
def State.introspect (s : State) : List Word × Word := ((List.finRange 32).map s.readReg, s.pc)

end Sys2Proof.Machine
end

