-- ==== Sys2Proof/Machine/Driver.lean ====
section
/-! DEFINITION. The driver loop of the host, which defines a run and its end (spec/50_interfaces.md R206 to
R209). It is outside the block: no instruction's meaning depends on it. -/

namespace Sys2Proof.Machine

/-- ON_DECODE_FAULT (R208). -/
inductive DecodeFaultPolicy where
  | abort
  | continues
  deriving DecidableEq, Repr

/-- The reference driver's policy (R208). -/
def Driver.defaultPolicy : DecodeFaultPolicy := .abort

/-- The four ways a run ends (R209). -/
inductive RunEnd where
  | finished
  | faulted (op : BitVec 7)
  | stoppedAtZeroWord
  | budgetExhausted
  deriving DecidableEq, Repr

/-- The driver's test for the all-zero sentinel, not made at the halt vector (R207; the spec's decision
D18, log 21). -/
def Driver.atZeroWord (s : State) : Bool := !s.atHaltVector && s.fetch == 0x00000000#32

/-- `run()` with STEP_BUDGET steps left (R206; the spec's decision D18, log 21): the budget test, the
zero-word test, then a step. Answers how the run ended and the final state. -/
def Driver.run (policy : DecodeFaultPolicy) : Nat → State → Host.Outcome (RunEnd × State) Fault Refusal
  | 0, s => .next (.budgetExhausted, s)
  | n + 1, s =>
    if Driver.atZeroWord s then .next (.stoppedAtZeroWord, s)
    else
      match step s with
      | .next t =>
        match t.signal, policy with
        | .halted, _ => .next (.finished, t)
        | .decodeFault op, .abort => .next (.faulted op, t)
        | .decodeFault _, .continues => Driver.run policy n t
        | .continues, _ => Driver.run policy n t
      | .fault f => .fault f
      | .refused r => .refused r

end Sys2Proof.Machine
end

