-- ==== Sys2Proof/Machine/HostProtocol.lean ====
section
/-! DEFINITION. What the host may and must do (spec/50_interfaces.md R211; spec/70_reset_and_hazards.md R253,
R262), row by row of R211:

- before the run: the host chooses the parameters and creates the memory first (`State.powerOn`), loads an
  image, and must not start if the load failed (`HostPhase.loadFailed`, `Driver.session`);
- reset: before the first step, at a step boundary (`HostAction.reset`; a step is one action, so there is no
  middle of a step);
- stepping: any number of times (`HostAction.step`); `Halted` is success (`RunEnd.success`), `DecodeFault` is
  surfaced (`State.signal`, `RunEnd.faulted`); one State holds one engine, so two cannot run on its memory;
- between steps: registers, pc and memory are read freely (`State.introspect`, `State.readByte`); memory can be
  written (`HostAction.writeMemory`); there is no action that writes a register or the pc;
- after the run: the final state is the answer of `Driver.run` and `Driver.session`. -/

namespace Sys2Proof.Machine

/-- Where a host stands in a session. -/
inductive HostPhase where
  /-- the memory is created; no engine has been reset against it in this session -/
  | memoryReady
  /-- `load_image` reported failure: the session must not start -/
  | loadFailed
  /-- the engine is reset and has not stepped -/
  | engineReady
  /-- the engine has stepped since its reset -/
  | stepped
  deriving DecidableEq, Repr

/-- What a host can do that changes something (R202, R205, R211; spec/20_memory.md R40). -/
inductive HostAction where
  | loadImage (image : List Byte)
  | reset
  | step
  | writeMemory (a : Nat) (v : Byte)
  deriving DecidableEq, Repr

/-- One action of the host: the new phase and state, or `none` where the host must not do it. After a failed
load nothing may be done (R211 "not start if `load_image` failed"); an image is loaded only before the first
step (spec/20_memory.md R50), loading and reset in either order (R253); a step needs a reset before it. A
reset after steps is the spec's decision D19 (log 22). That a failed load ends the session for good, and that an
image may be loaded again after a reset that follows steps, are DESIGN CHOICE (log 28): safe. -/
def hostAct (p : HostPhase) (a : HostAction) (s : State) : Option (HostPhase × State) :=
  match p, a with
  | .loadFailed, _ => none
  | .stepped, .loadImage _ => none
  | p, .loadImage image =>
    match s.loadImage image with
    | (.success, t) => some (p, t)
    | (.failure, t) => some (.loadFailed, t)
  | _, .reset => some (.engineReady, s.engineReset)
  | .memoryReady, .step => none
  | _, .step =>
    match Sys2Proof.Machine.step s with
    | .next t => some (.stepped, t)
    | _ => none
  | p, .writeMemory a v => some (p, s.writeByte a v)

/-- How a session ends. -/
inductive SessionEnd where
  /-- the image was rejected: nothing was reset and no step was made (R262) -/
  | notStarted
  | ran (e : RunEnd)
  deriving DecidableEq, Repr

/-- The only ending the source calls success (R204, R209). -/
def RunEnd.success : RunEnd → Bool
  | .finished => true
  | _ => false

/-- A session on a created memory: load the image (an empty one for none, R262), and only if that succeeded
reset the engine and run (R211, R253, R262). -/
def Driver.session (policy : DecodeFaultPolicy) (budget : Nat) (image : List Byte) (s : State) :
    Host.Outcome (SessionEnd × State) Fault Refusal :=
  match s.loadImage image with
  | (.failure, t) => .next (.notStarted, t)
  | (.success, t) =>
    match Driver.run policy budget t.engineReset with
    | .next (e, u) => .next (.ran e, u)
    | .fault f => .fault f
    | .refused r => .refused r

end Sys2Proof.Machine
end

