-- ==== Sys2Proof/Machine/ProgramCheck.lean ====
section
/-! DEFINITION. The check of a program for words that run but do nothing (spec/48_unimplemented_and_unknown.md
R193: "A model should flag any program that contains these words"; spec/30_encoding.md R89). No step reads it. -/

namespace Sys2Proof.Machine

/-- The word at an offset of an image, little-endian; past the image's end a byte is 0, as in fresh memory
(spec/20_memory.md R50, R51). -/
def imageWord (image : List Byte) (offset : Nat) : Word :=
  wordOfBytes (image.getD offset 0#8) (image.getD (offset + 1) 0#8) (image.getD (offset + 2) 0#8)
    (image.getD (offset + 3) 0#8)

/-- The instruction of a word if it is recognised-unimplemented (R85, R190). -/
def flaggedInstr (w : Word) : Option Instr :=
  match decode w with
  | .instr i => if (unimplementedOpcode i).isSome then some i else none
  | .unknownOpcode _ => none

/-- The flags of a program: the offset and the instruction of every recognised-unimplemented word of the image,
its words being those at the multiples of 4 (DESIGN CHOICE, log 27: unsafe). An image with an empty list is not
flagged. -/
def flaggedWords (image : List Byte) : List (Nat × Instr) :=
  (List.range ((image.length + 3) / 4)).filterMap fun n =>
    (flaggedInstr (imageWord image (4 * n))).map fun i => (4 * n, i)

/-- What the author of a flagged word meant, where standard RV32I has an instruction there (the table of R193);
none for an encoding RV32I reserves. -/
def absentInstruction : Instr → Option String
  | .unimplemented33 bits =>
    match upperFunct3 bits with
    | 2#3 => some "SLT"
    | 3#3 => some "SLTU"
    | _ => none
  | .unimplemented13 bits =>
    match upperFunct3 bits with
    | 1#3 => some "SLLI"
    | 2#3 => some "SLTI"
    | 3#3 => some "SLTIU"
    | 5#3 => some "SRLI or SRAI"
    | _ => none
  | .unimplemented03 bits =>
    match upperFunct3 bits with
    | 4#3 => some "LBU"
    | 5#3 => some "LHU"
    | _ => none
  | _ => none

end Sys2Proof.Machine
end

