-- ==== Sys2Proof/Safety.lean ====
section
/-! DEFINITION. The terms claims are stated in: invariants of the machine, what an instruction leaves
unchanged, which registers it reads and writes, and when two states look alike. -/

namespace Sys2Proof.Machine

/-! ### Invariants -/

/-- The stored x0 is 0 (spec/10_state.md R23, R36). -/
def State.X0Clear (s : State) : Prop := s.regs[0] = 0#32

/-- Every byte the memory lists lies below MEM_CAPACITY (R34). -/
def State.MemWithinCapacity (s : State) : Prop := ∀ c ∈ s.mem, c.1 < s.capacity

/-- The machine's invariant: x0 clear, memory canonical and within its capacity. -/
def State.Inv (s : State) : Prop := s.X0Clear ∧ Memory.wf s.mem ∧ s.MemWithinCapacity

/-- The pc is even (R29). -/
def State.PcEven (s : State) : Prop := s.pc.toNat % 2 = 0

/-! ### Frames -/

/-- No register changes. -/
def SameRegs (s t : State) : Prop := ∀ r, t.readReg r = s.readReg r

/-- Register `rd` takes `v`, unless it is x0, which stays 0; no other register changes. -/
def OnlyRegWritten (s t : State) (rd : Reg) (v : Word) : Prop :=
  ∀ r, t.readReg r = if r = rd ∧ r ≠ 0 then v else s.readReg r

/-- No byte of memory changes. -/
def SameMemory (s t : State) : Prop := ∀ a, t.readByte a = s.readByte a

/-- The parameters are the same and the signal is `Continue`. -/
def Continues (s t : State) : Prop := t.cfg = s.cfg ∧ t.signal = .continues

/-- A register result: `rd` takes `v`; other registers, memory, the pc (`npc`) and the parameters are
unchanged; the signal is `Continue`. -/
def RegResult (s t : State) (rd : Reg) (v : Word) : Prop :=
  OnlyRegWritten s t rd v ∧ SameMemory s t ∧ t.pc = s.pc ∧ Continues s t

/-- A store result: the `n` bytes of the access at `addr` that lie in range take the low bytes of `v`, in
little-endian order; every other byte of memory, every register, the pc (`npc`) and the parameters are
unchanged; the signal is `Continue`. -/
def StoreResult (s t : State) (addr : Word) (n : Nat) (v : Word) : Prop :=
  (∀ k, k < n → s.byteAddr addr k < s.capacity →
      t.readByte (s.byteAddr addr k) = v.extractLsb' (8 * k) 8) ∧
    (∀ a, (∀ k, k < n → a ≠ s.byteAddr addr k) → t.readByte a = s.readByte a) ∧
    (∀ a, s.capacity ≤ a → t.readByte a = 0x00#8) ∧
    SameRegs s t ∧ t.pc = s.pc ∧ Continues s t

/-- A branch result: the pc is `target` if taken, else `npc`; registers, memory and parameters are
unchanged; the signal is `Continue`. -/
def BranchResult (s t : State) (taken : Prop) (target : Word) : Prop :=
  (taken → t.pc = target) ∧ (¬taken → t.pc = s.pc) ∧ SameRegs s t ∧ SameMemory s t ∧ Continues s t

/-- A jump result: `rd` takes the link value `npc`, the pc is `target`; other registers, memory and
parameters are unchanged; the signal is `Continue`. -/
def JumpResult (s t : State) (rd : Reg) (target : Word) : Prop :=
  OnlyRegWritten s t rd s.pc ∧ t.pc = target ∧ SameMemory s t ∧ Continues s t

/-! ### Encodings -/

/-- Every word the mask and the pattern select decodes to the instruction `mk` reads from its fields. -/
def Selects (mask pattern : Word) (mk : Word → Instr) : Prop :=
  ∀ w, w &&& mask = pattern → decode w = .instr (mk w)

/-- The R-format operands of a word, given to a constructor. -/
def asR (mk : Reg → Reg → Reg → Instr) (w : Word) : Instr := mk (Decode.rd w) (Decode.rs1 w) (Decode.rs2 w)

/-- The I-format operands of a word, given to a constructor. -/
def asI (mk : Reg → Reg → BitVec 12 → Instr) (w : Word) : Instr :=
  mk (Decode.rd w) (Decode.rs1 w) (Decode.immI w)

/-- The S-format operands of a word, given to a constructor. -/
def asS (mk : Reg → Reg → BitVec 12 → Instr) (w : Word) : Instr :=
  mk (Decode.rs1 w) (Decode.rs2 w) (Decode.immS w)

/-- The B-format operands of a word, given to a constructor. -/
def asB (mk : Reg → Reg → BitVec 13 → Instr) (w : Word) : Instr :=
  mk (Decode.rs1 w) (Decode.rs2 w) (Decode.immB w)

/-- The U-format operands of a word, given to a constructor. -/
def asU (mk : Reg → BitVec 20 → Instr) (w : Word) : Instr := mk (Decode.rd w) (Decode.immU w)

/-- The J-format operands of a word, given to a constructor. -/
def asJ (mk : Reg → BitVec 21 → Instr) (w : Word) : Instr := mk (Decode.rd w) (Decode.immJ w)

/-- The nine known opcodes (spec/30_encoding.md R81). -/
def knownOpcodes : List (BitVec 7) :=
  [0x33#7, 0x13#7, 0x03#7, 0x23#7, 0x63#7, 0x37#7, 0x17#7, 0x6F#7, 0x67#7]

/-- A word decodes to the instruction of a row, by mnemonic. -/
def DecodesAs (w : Word) (mnemonic : String) : Prop := ∃ i, decode w = .instr i ∧ i.mnemonic = mnemonic

/-- The bits of an instruction's word that the decoder examines or reads as an operand: all but funct7 of
SLL, XOR, OR, AND (R83) and funct3 of JALR (R84). -/
def examinedBits : Instr → Word
  | .sll _ _ _ | .xor _ _ _ | .or _ _ _ | .and _ _ _ => 0x01FFFFFF#32
  | .jalr _ _ _ => 0xFFFF8FFF#32
  | _ => 0xFFFFFFFF#32

/-! ### Runs -/

/-- A step that answered `t` does not end a run: its signal is not `Halted`, and no `DecodeFault` under the
policy abort (spec/50_interfaces.md R206, R208). -/
def GoesOn (policy : DecodeFaultPolicy) (t : State) : Prop :=
  t.signal ≠ .halted ∧ (policy = .abort → ∀ op, t.signal ≠ .decodeFault op)

/-! ### Which registers an instruction names (spec/10_state.md R24) -/

/-- The register an instruction writes. -/
def destination : Instr → Option Reg
  | .add rd _ _ | .sub rd _ _ | .sll rd _ _ | .xor rd _ _ => some rd
  | .srl rd _ _ | .sra rd _ _ | .or rd _ _ | .and rd _ _ => some rd
  | .addi rd _ _ | .xori rd _ _ | .ori rd _ _ | .andi rd _ _ => some rd
  | .lb rd _ _ | .lh rd _ _ | .lw rd _ _ => some rd
  | .lui rd _ | .auipc rd _ | .jal rd _ | .jalr rd _ _ => some rd
  | .sb _ _ _ | .sh _ _ _ | .sw _ _ _ => none
  | .beq _ _ _ | .bne _ _ _ | .blt _ _ _ | .bge _ _ _ | .bltu _ _ _ | .bgeu _ _ _ => none
  | .unimplemented33 _ | .unimplemented13 _ | .unimplemented03 _ => none
  | .unimplemented23 _ | .unimplemented63 _ => none

/-- The registers an instruction reads. -/
def sources : Instr → List Reg
  | .add _ a b | .sub _ a b | .sll _ a b | .xor _ a b => [a, b]
  | .srl _ a b | .sra _ a b | .or _ a b | .and _ a b => [a, b]
  | .addi _ a _ | .xori _ a _ | .ori _ a _ | .andi _ a _ => [a]
  | .lb _ a _ | .lh _ a _ | .lw _ a _ => [a]
  | .jalr _ a _ => [a]
  | .sb a b _ | .sh a b _ | .sw a b _ => [a, b]
  | .beq a b _ | .bne a b _ | .blt a b _ | .bge a b _ | .bltu a b _ | .bgeu a b _ => [a, b]
  | .lui _ _ | .auipc _ _ | .jal _ _ => []
  | .unimplemented33 _ | .unimplemented13 _ | .unimplemented03 _ => []
  | .unimplemented23 _ | .unimplemented63 _ => []

/-- The access a store makes: its base register, data register, displacement and number of bytes. -/
def storeAccess : Instr → Option (Reg × Reg × BitVec 12 × Nat)
  | .sb rs1 rs2 imm => some (rs1, rs2, imm, 1)
  | .sh rs1 rs2 imm => some (rs1, rs2, imm, 2)
  | .sw rs1 rs2 imm => some (rs1, rs2, imm, 4)
  | _ => none

/-! ### States that look alike -/

/-- Two states show the same registers, pc, memory bytes and parameters: everything the spec calls state
(spec/00_scope.md R8, spec/10_state.md R20). They may differ in `signal`, in the stored x0, and in cells
of memory no read can see. -/
def LookAlike (s t : State) : Prop :=
  (∀ r, s.readReg r = t.readReg r) ∧ s.pc = t.pc ∧ (∀ a, s.readByte a = t.readByte a) ∧ s.cfg = t.cfg

end Sys2Proof.Machine
end

