-- ==== Sys2Proof/Certificates/Slice0/Obligations.lean ====
section
/-! DEFINITION. The statements for the provers, from the spec's numbered rules. `exec` runs an instruction on
the advanced state, whose pc is `npc` (the address of the instruction plus 4); `s.pc - 4` is its address.
Where a statement about an instruction says which words select it (`Selects`) and which bits are its operands,
the positions of rd, rs1, rs2 and the immediates are those of Decode.lean (the spec's decision D20, log 11). -/

open Sys2Proof Sys2Proof.Machine

/-! ### Encoding -/

/-- A few words written out from the encodings of spec/95_test_vectors.md section 11 decode to the
instructions they stand for. -/
def Obligations.DecoderReadsTheSpecsWords : Prop :=
  decode 0x002081B3#32 = .instr (.add 3 1 2) ∧
  decode 0x402080B3#32 = .instr (.sub 1 1 2) ∧
  decode 0x4020D1B3#32 = .instr (.sra 3 1 2) ∧
  decode 0xFFF08193#32 = .instr (.addi 3 1 0xFFF#12) ∧
  decode 0xFFC09183#32 = .instr (.lh 3 1 0xFFC#12) ∧
  decode 0xFE20AE23#32 = .instr (.sw 1 2 0xFFC#12) ∧
  decode 0xFE009EE3#32 = .instr (.bne 1 0 0x1FFC#13) ∧
  decode 0x123452B7#32 = .instr (.lui 5 0x12345#20) ∧
  decode 0xFF9FF06F#32 = .instr (.jal 0 0x1FFFF8#21) ∧
  decode 0x003302E7#32 = .instr (.jalr 5 6 3#12) ∧
  decode 0x0002AEB3#32 = .instr (.unimplemented33 0x000055D#25) ∧
  decode 0x00000073#32 = .unknownOpcode 0x73#7

/-- A word selects a row of the table when `w & mask == match`, and then it is that row's instruction, for each
of the 28 rows. The funct3 values and the bits not examined are the spec's decisions D20, D9 and D10 (logs 11
and 12). -/
def Obligations.InstructionRowsSelectTheirWords : Prop :=
  ∀ row ∈ OpcodeTable.instructionRows, ∀ w, row.Matches w ↔ DecodesAs w row.mnemonic

/-- The 28 instruction rows are pairwise disjoint; the five fallback rows apply where no instruction row
matches; where no row matches the result is `DecodeFault(inst[6:0])` (spec/30_encoding.md section 7). -/
def Obligations.FallbackRowsApplyAfterInstructionRows : Prop :=
  OpcodeTable.instructionRows.Pairwise (fun r q => ∀ w, ¬(r.Matches w ∧ q.Matches w)) ∧
  (∀ row ∈ OpcodeTable.fallbackRows, ∀ w,
    (row.Matches w ∧ ∀ r ∈ OpcodeTable.instructionRows, ¬r.Matches w) ↔ DecodesAs w row.mnemonic) ∧
  ∀ w op, decode w = .unknownOpcode op ↔
    op = w.extractLsb' 0 7 ∧ ∀ r ∈ OpcodeTable.instructionRows ++ OpcodeTable.fallbackRows, ¬r.Matches w

/-- The table of spec/30_encoding.md R85, by funct3 and funct7. The spec gives the encodings the source does
not name the same treatment by its decision D8 (log 13). -/
def Obligations.UnimplementedWordsByFields : Prop :=
  ∀ w,
    (decode w = .instr (.unimplemented33 (w.extractLsb' 7 25)) ↔
      w.extractLsb' 0 7 = 0x33#7 ∧ (w.extractLsb' 12 3 = 2#3 ∨ w.extractLsb' 12 3 = 3#3 ∨
        ((w.extractLsb' 12 3 = 0#3 ∨ w.extractLsb' 12 3 = 5#3) ∧
          w.extractLsb' 25 7 ≠ 0x00#7 ∧ w.extractLsb' 25 7 ≠ 0x20#7))) ∧
    (decode w = .instr (.unimplemented13 (w.extractLsb' 7 25)) ↔
      w.extractLsb' 0 7 = 0x13#7 ∧ w.extractLsb' 12 3 ∈ [1#3, 2#3, 3#3, 5#3]) ∧
    (decode w = .instr (.unimplemented03 (w.extractLsb' 7 25)) ↔
      w.extractLsb' 0 7 = 0x03#7 ∧ w.extractLsb' 12 3 ∈ [3#3, 4#3, 5#3, 6#3, 7#3]) ∧
    (decode w = .instr (.unimplemented23 (w.extractLsb' 7 25)) ↔
      w.extractLsb' 0 7 = 0x23#7 ∧ w.extractLsb' 12 3 ∈ [3#3, 4#3, 5#3, 6#3, 7#3]) ∧
    (decode w = .instr (.unimplemented63 (w.extractLsb' 7 25)) ↔
      w.extractLsb' 0 7 = 0x63#7 ∧ w.extractLsb' 12 3 ∈ [2#3, 3#3])

/-- The nine known opcodes; any other value of the low seven bits is an unknown opcode, 119 in all
(spec/30_encoding.md section 4). -/
def Obligations.UnknownOpcodeExactlyOutsideTheNine : Prop :=
  (∀ w op, decode w = .unknownOpcode op ↔
    op = w.extractLsb' 0 7 ∧
      op ∉ [0x33#7, 0x13#7, 0x03#7, 0x23#7, 0x63#7, 0x37#7, 0x17#7, 0x6F#7, 0x67#7]) ∧
  ((List.finRange 128).filter fun k =>
    decide (decode (BitVec.ofNat 32 k.val) = .unknownOpcode (BitVec.ofNat 7 k.val))).length = 119

/-- Decoding the encoding of a well-formed instruction gives it back, for every instruction and every value
of every operand. -/
def Obligations.DecodeOfEncodeIsIdentity : Prop :=
  ∀ i : Instr, i.WellFormed = true → decode (encode i) = .instr i

/-- Encoding a decoded word gives the word back, but for the bits the decoder does not examine (funct7 of
SLL, XOR, OR, AND; funct3 of JALR: the spec's decisions D9 and D10, log 12). -/
def Obligations.EncodeOfDecodeKeepsExaminedBits : Prop :=
  ∀ w i, decode w = .instr i → encode i &&& examinedBits i = w &&& examinedBits i

/-- Every decoded instruction is well-formed: no branch or JAL offset is odd, and a recognised-unimplemented
word is none of the 28 instructions. -/
def Obligations.DecodedInstructionsAreWellFormed : Prop :=
  ∀ w i, decode w = .instr i → i.WellFormed = true

/-- R75, R77: which bit of the word is which bit of the S and U immediates, sign-extended to 32 bits. -/
def Obligations.StoreAndUpperImmediateBits : Prop :=
  ∀ (w : Word) (k : Nat), k < 32 →
    (immS (Decode.immS w)).getLsbD k =
      (if k < 5 then w.getLsbD (7 + k) else if k < 11 then w.getLsbD (20 + k) else w.getLsbD 31) ∧
    (immU (Decode.immU w)).getLsbD k = if k < 12 then false else w.getLsbD k

/-- Which bit of the word is which bit of the I, B and J immediates, sign-extended to 32 bits (the
positions are the spec's decision D20, log 11). -/
def Obligations.ImmediateBitsOfFormatsIBJ : Prop :=
  ∀ (w : Word) (k : Nat), k < 32 →
    (immI (Decode.immI w)).getLsbD k = (if k < 12 then w.getLsbD (20 + k) else w.getLsbD 31) ∧
    (immB (Decode.immB w)).getLsbD k =
      (if k = 0 then false else if k < 5 then w.getLsbD (7 + k) else if k < 11 then w.getLsbD (20 + k)
        else if k = 11 then w.getLsbD 7 else w.getLsbD 31) ∧
    (immJ (Decode.immJ w)).getLsbD k =
      (if k = 0 then false else if k < 11 then w.getLsbD (20 + k) else if k = 11 then w.getLsbD 20
        else if k < 20 then w.getLsbD k else w.getLsbD 31)

/-! ### Memory -/

/-- R43, R49: a write then a read, in and out of range; every other byte unchanged; and SW then LW at the
same in-range address returns the identical value. -/
def Obligations.MemoryPropertiesOfTheSource : Prop :=
  (∀ (s : State) a v, a < s.capacity → (s.writeByte a v).readByte a = v) ∧
  (∀ (s : State) a v b, s.capacity ≤ a →
    s.readByte a = 0x00#8 ∧ (s.writeByte a v).readByte b = s.readByte b) ∧
  (∀ (s : State) a v b, b ≠ a → (s.writeByte a v).readByte b = s.readByte b) ∧
  ∀ (s : State) (rs1 rs2 rd : Reg) (imm : BitVec 12), rd ≠ 0 →
    (∀ k, k < 4 → s.byteAddr (s.storeAddr rs1 imm) k < s.capacity) →
    ∃ t u, exec (.sw rs1 rs2 imm) s = .next t ∧ exec (.lw rd rs1 imm) t = .next u ∧
      u.readReg rd = s.readReg rs2

/-- R42: every address at or above MEM_CAPACITY reads as 0, with no signal, for loads and for fetch alike. -/
def Obligations.OutOfRangeReadsGiveZero : Prop :=
  (∀ (s : State) a, s.capacity ≤ a → s.readByte a = 0x00#8) ∧
  (∀ (s : State), (∀ k, k < 4 → s.capacity ≤ s.byteAddr s.pc k) → s.fetch = 0x00000000#32) ∧
  ∀ (s : State) (rd rs1 : Reg) (imm : BitVec 12),
    (∀ k, k < 4 → s.capacity ≤ s.byteAddr (s.loadAddr rs1 imm) k) →
    (∃ t, exec (.lb rd rs1 imm) s = .next t ∧ RegResult s t rd 0#32) ∧
    (∃ t, exec (.lh rd rs1 imm) s = .next t ∧ RegResult s t rd 0#32) ∧
    ∃ t, exec (.lw rd rs1 imm) s = .next t ∧ RegResult s t rd 0#32

/-- Where byte `i` of an access lies, under both settings of ADDR_WRAP, and that a fetch from an even pc
never meets the difference. ADDR_WRAP is a parameter of the spec (its decision D12, log 7). -/
def Obligations.AccessesAtTheTopOfTheAddressSpace : Prop :=
  (∀ (s : State) (addr : Word) i, addr.toNat + i < 2 ^ 32 → s.byteAddr addr i = addr.toNat + i) ∧
  (∀ (s : State) (addr : Word) i, i < 4 → s.cfg.addrWrap = .wrap → 2 ^ 32 ≤ addr.toNat + i →
    s.byteAddr addr i = addr.toNat + i - 2 ^ 32) ∧
  (∀ (s : State) (addr : Word) i v b, s.cfg.addrWrap = .zero → 2 ^ 32 ≤ addr.toNat + i →
    s.readByte (s.byteAddr addr i) = 0x00#8 ∧
      (s.writeByte (s.byteAddr addr i) v).readByte b = s.readByte b) ∧
  ∀ s : State, s.PcEven → s.atHaltVector = false → ∀ i, i < 4 → s.pc.toNat + i < 2 ^ 32

/-- R50: `load_image` copies the bytes to offset 0, or rejects more than MEM_CAPACITY of them and changes
nothing; registers, pc and parameters are untouched. -/
def Obligations.LoadImageCopiesOrRejects : Prop :=
  ∀ (s : State) (bytes : List Byte),
    (s.capacity < bytes.length → s.loadImage bytes = (.failure, s)) ∧
    (bytes.length ≤ s.capacity → ∃ t, s.loadImage bytes = (.success, t) ∧
      (∀ i (h : i < bytes.length), t.readByte i = bytes[i]) ∧
      (∀ a, bytes.length ≤ a → t.readByte a = s.readByte a) ∧
      t.regs = s.regs ∧ t.pc = s.pc ∧ t.cfg = s.cfg)

/-- R44: `read_word` is the four bytes at the address, the first the least significant, each 0 where it is
out of range. -/
def Obligations.ReadWordIsLittleEndian : Prop :=
  ∀ (s : State) (addr : Word),
    (s.loadWord addr).toNat = (s.readByte (s.byteAddr addr 0)).toNat +
      2 ^ 8 * (s.readByte (s.byteAddr addr 1)).toNat + 2 ^ 16 * (s.readByte (s.byteAddr addr 2)).toNat +
      2 ^ 24 * (s.readByte (s.byteAddr addr 3)).toNat ∧
    ∀ k, s.capacity ≤ s.byteAddr addr k → s.readByte (s.byteAddr addr k) = 0x00#8

/-! ### The step -/

/-- R100: one step, in order: the halt check (bit 0 masked, as R100 writes it; log 15); else the fetch, the
advance by 4, the decoded instruction on the advanced state (or the unknown opcode's signal), and the x0
clear. -/
def Obligations.StepRunsTheDecodedInstruction : Prop :=
  ∀ s : State,
    (s.pc &&& 0xFFFFFFFE#32 = 0xFFFFFFFE#32 → step s = .next { s with signal := .halted }) ∧
    (s.pc &&& 0xFFFFFFFE#32 ≠ 0xFFFFFFFE#32 →
      (∀ i t, decode (s.loadWord s.pc) = .instr i → exec i { s with pc := s.pc + 4#32 } = .next t →
        step s = .next { t with regs := t.regs.set 0 0#32 }) ∧
      ∀ op, decode (s.loadWord s.pc) = .unknownOpcode op →
        step s = .next
          { s with pc := s.pc + 4#32, signal := .decodeFault op, regs := s.regs.set 0 0#32 })

/-- A step at the halt vector changes nothing but the signal, and so does every further one. The masked
compare and the unchanged state are the spec's decisions D4 and D5 (log 15). -/
def Obligations.HaltedEngineIsAFixedPoint : Prop :=
  ∀ s : State, (s.pc = 0xFFFFFFFE#32 ∨ s.pc = 0xFFFFFFFF#32) →
    ∀ n, Host.Core.run Sys2Proof.core (n + 1) s = .next { s with signal := .halted }

/-- A step over an unknown opcode reports it and advances the pc; no register and no byte of memory changes.
The state after it and the payload are the spec's decisions D6 and D22 (log 16). -/
def Obligations.UnknownOpcodeAdvancesAndReports : Prop :=
  ∀ s : State, s.atHaltVector = false → s.fetch.extractLsb' 0 7 ∉ knownOpcodes →
    ∃ t, step s = .next t ∧ t.signal = .decodeFault (s.fetch.extractLsb' 0 7) ∧
      t.pc = BitVec.ofNat 32 (s.pc.toNat + 4) ∧ SameRegs s t ∧ SameMemory s t ∧ t.cfg = s.cfg

/-- Stepping the all-zero word gives `DecodeFault(0x00)` and pc = ia + 4, nothing else changed (the spec's
decision D6, log 16); it is the driver that stops there, before the step, with the word not executed (the
spec's decision D18, log 21). -/
def Obligations.ZeroWordFaultsAndStopsTheDriver : Prop :=
  ∀ s : State, s.atHaltVector = false → s.fetch = 0x00000000#32 →
    (∃ t, step s = .next t ∧ t.signal = .decodeFault 0x00#7 ∧ t.pc = s.pc + 4#32 ∧
      SameRegs s t ∧ SameMemory s t ∧ t.cfg = s.cfg) ∧
    ∀ policy n, Driver.run policy (n + 1) s = .next (.stoppedAtZeroWord, s)

/-- R111: `step()` is defined for every state and always answers one next state; so is every
instruction's meaning. -/
def Obligations.StepIsTotal : Prop :=
  (∀ s : State, ∃ t, step s = .next t) ∧ ∀ (i : Instr) (s : State), ∃ t, exec i s = .next t

/-- The signal of a step: `Halted` at the halt vector, compared with bit 0 masked (the spec's decision D4,
log 15); `DecodeFault` with the low 7 bits of the word for an unknown opcode; `Continue` for each of the 28
instructions; UNIMPL_SIGNAL, with the word's own opcode, for a recognised-unimplemented word (the spec's
decision D7, log 8). -/
def Obligations.SignalSaysWhatTheStepDid : Prop :=
  ∀ s t : State, step s = .next t →
    (t.signal = .halted ↔ s.atHaltVector = true) ∧
    (s.atHaltVector = false →
      (∀ op, decode s.fetch = .unknownOpcode op → t.signal = .decodeFault (s.fetch.extractLsb' 0 7)) ∧
      ∀ i, decode s.fetch = .instr i →
        (unimplementedOpcode i = none → t.signal = .continues) ∧
        ∀ op, unimplementedOpcode i = some op →
          t.signal = match s.cfg.unimplSignal with
            | .continues => .continues
            | .decodeFault => .decodeFault op)

/-- R28: how each step leaves the pc, from the address `s.pc` of the instruction. -/
def Obligations.PcAfterEachStep : Prop :=
  ∀ s t : State, step s = .next t →
    (s.atHaltVector = true → t.pc = s.pc) ∧
    (s.atHaltVector = false →
      (∀ op, decode s.fetch = .unknownOpcode op → t.pc = s.pc + 4#32) ∧
      ∀ i, decode s.fetch = .instr i →
        t.pc = match i with
          | .beq a b off => if s.readReg a = s.readReg b then s.pc + off.signExtend 32 else s.pc + 4#32
          | .bne a b off => if s.readReg a ≠ s.readReg b then s.pc + off.signExtend 32 else s.pc + 4#32
          | .blt a b off =>
            if (s.readReg a).toInt < (s.readReg b).toInt then s.pc + off.signExtend 32 else s.pc + 4#32
          | .bge a b off =>
            if (s.readReg a).toInt ≥ (s.readReg b).toInt then s.pc + off.signExtend 32 else s.pc + 4#32
          | .bltu a b off =>
            if (s.readReg a).toNat < (s.readReg b).toNat then s.pc + off.signExtend 32 else s.pc + 4#32
          | .bgeu a b off =>
            if (s.readReg a).toNat ≥ (s.readReg b).toNat then s.pc + off.signExtend 32 else s.pc + 4#32
          | .jal _ off => s.pc + off.signExtend 32
          | .jalr _ a imm => (s.readReg a + imm.signExtend 32) &&& 0xFFFFFFFE#32
          | _ => s.pc + 4#32)

/-- The access table of spec/10_state.md section 2: an instruction changes no register but its destination,
and what it does depends on no register but its sources. -/
def Obligations.RegistersReadAndWritten : Prop :=
  (∀ (i : Instr) (s t : State), exec i s = .next t →
    ∀ r, destination i ≠ some r → t.readReg r = s.readReg r) ∧
  ∀ (i : Instr) (s₁ s₂ t₁ t₂ : State), s₁.pc = s₂.pc → s₁.cfg = s₂.cfg →
    (∀ a, s₁.readByte a = s₂.readByte a) → (∀ r ∈ sources i, s₁.readReg r = s₂.readReg r) →
    exec i s₁ = .next t₁ → exec i s₂ = .next t₂ →
    t₁.pc = t₂.pc ∧ t₁.signal = t₂.signal ∧ (∀ a, t₁.readByte a = t₂.readByte a) ∧
      ∀ d, destination i = some d → t₁.readReg d = t₂.readReg d

/-- A write to x0 is discarded: no register of the file changes, and a step that did not halt leaves x0 at 0
from any state. That the model discards the write when it is made is its own choice, which the spec allows
(spec/10_state.md section 2; log 10). -/
def Obligations.WriteToX0IsDiscarded : Prop :=
  (∀ (i : Instr) (s t : State), destination i = some 0 → exec i s = .next t → t.regs = s.regs) ∧
  (∀ s t : State, step s = .next t → s.atHaltVector = false → t.regs[0] = 0#32) ∧
  ∀ (i : Instr) (s t : State), s.X0Clear → s.atHaltVector = false → decode s.fetch = .instr i →
    destination i = some 0 → step s = .next t → t.regs = s.regs

/-- R252: the memory is zero when it is created; an engine reset leaves every byte as it was; a step changes
a byte only by a store, at one of the bytes it addresses, in range (`load_image` is stated apart). -/
def Obligations.MemoryChangesOnlyByStores : Prop :=
  (∀ cfg a, (State.powerOn cfg).readByte a = 0x00#8) ∧
  (∀ s : State, SameMemory s s.engineReset) ∧
  ∀ (s t : State) (a : Nat), step s = .next t → t.readByte a ≠ s.readByte a →
    a < s.capacity ∧ ∃ i rs1 rs2 imm n k, decode s.fetch = .instr i ∧
      storeAccess i = some (rs1, rs2, imm, n) ∧ k < n ∧ a = s.byteAddr (s.storeAddr rs1 imm) k ∧
      t.readByte a = (s.readReg rs2).extractLsb' (8 * k) 8

/-- Every step keeps the machine's invariant, from every state that has it: x0 clear, the memory in its
canonical form, nothing stored at or above MEM_CAPACITY. -/
def Obligations.EveryStepKeepsTheInvariant : Prop :=
  ∀ s t : State, s.Inv → step s = .next t → t.Inv

/-- The invariant holds right after power-on, for every choice of the parameters; loading an image keeps it,
and an engine reset keeps it. -/
def Obligations.InvariantHoldsWhereARunStarts : Prop :=
  (∀ cfg, (State.powerOn cfg).Inv) ∧ State.reset.Inv ∧
  (∀ (s : State) bytes, s.Inv → (s.loadImage bytes).2.Inv) ∧
  ∀ s : State, Memory.wf s.mem → s.MemWithinCapacity → s.engineReset.Inv

/-- An even pc stays even under every step, so from an even RESET_PC the pc is even at every step boundary
(spec/10_state.md section 3, which marks it as derived). -/
def Obligations.PcStaysEven : Prop :=
  (∀ s t : State, s.PcEven → step s = .next t → t.PcEven) ∧
  ∀ (s : State) n t, s.cfg.resetPc.toNat % 2 = 0 →
    Host.Core.run Sys2Proof.core n s.engineReset = .next t → t.PcEven

/-- R45: the capacity is a constant: no step, write, image load or engine reset changes it (or any other
parameter). -/
def Obligations.CapacityNeverChanges : Prop :=
  (∀ s t : State, step s = .next t → t.capacity = s.capacity ∧ t.cfg = s.cfg) ∧
  (∀ (s : State) bytes, (s.loadImage bytes).2.capacity = s.capacity) ∧
  (∀ (s : State) a v, (s.writeByte a v).capacity = s.capacity) ∧
  ∀ s : State, s.engineReset.capacity = s.capacity

/-- What an engine reset leaves in the registers and the pc. x3 to x31 = 0, SP_INIT and RESET_PC are the
spec's decisions D2, D3, D1 (logs 3, 5, 4). -/
def Obligations.ResetRegisterValues : Prop :=
  (∀ s : State, s.engineReset.readReg 0 = 0#32 ∧ s.engineReset.readReg 1 = 0xFFFFFFFE#32 ∧
    s.engineReset.readReg 2 = s.cfg.spInit ∧ (∀ r : Reg, 3 ≤ r.val → s.engineReset.readReg r = 0#32) ∧
    s.engineReset.pc = s.cfg.resetPc) ∧
  (∀ cfg, (State.powerOn cfg).engineReset = State.powerOn cfg) ∧
  ∀ capacity, (Config.ofCapacity capacity).spInit.toNat = capacity.val % 2 ^ 32 ∧
    (Config.ofCapacity capacity).resetPc = 0#32

/-- R8: a step is a function of the registers, the pc and the memory (under fixed parameters); "nothing else
is carried from one step to the next". Two states that show the same registers, pc, memory bytes and
parameters step to states that do, with the same signal. -/
def Obligations.OnlyVisibleStateIsCarried : Prop :=
  ∀ s₁ s₂ t₁ t₂ : State, LookAlike s₁ s₂ → step s₁ = .next t₁ → step s₂ = .next t₂ →
    LookAlike t₁ t₂ ∧ t₁.signal = t₂.signal

/-- A word stored over the next instruction is the word the next step fetches (the spec's decision D17,
log 20); and the host's `withFetchWord` places the word the next step fetches. -/
def Obligations.StoredWordIsFetchedNext : Prop :=
  (∀ (s : State) (rs1 rs2 : Reg) (imm : BitVec 12), s.atHaltVector = false →
    decode s.fetch = .instr (.sw rs1 rs2 imm) → s.storeAddr rs1 imm = s.pc + 4#32 →
    (∀ k, k < 4 → s.byteAddr (s.pc + 4#32) k < s.capacity) →
    ∃ t, step s = .next t ∧ t.fetch = s.readReg rs2) ∧
  ∀ (s : State) (w : Word), (∀ k, k < 4 → s.byteAddr s.pc k < s.capacity) →
    (s.withFetchWord 32 w.toNat).fetch = w

/-- A return with `JALR x0, 0(x1)` while x1 holds the halt vector sets the pc to it, and the next step is
`Halted`, with the pc unchanged (the spec's decision D5, log 15); any other way of making the pc 0xFFFFFFFE
works as well (spec/47_jumps.md section 3). -/
def Obligations.ReturnToTheHaltVectorHalts : Prop :=
  (∀ s : State, s.atHaltVector = false → decode s.fetch = .instr (.jalr 0 1 0#12) →
    s.readReg 1 = 0xFFFFFFFE#32 →
    ∃ t u, step s = .next t ∧ t.signal = .continues ∧ t.pc = 0xFFFFFFFE#32 ∧
      step t = .next u ∧ u.signal = .halted ∧ u.pc = 0xFFFFFFFE#32) ∧
  ∀ s t : State, step s = .next t → t.pc = 0xFFFFFFFE#32 → ∃ u, step t = .next u ∧ u.signal = .halted

/-- The four endings of a run, and the state each leaves: the one after some `k` steps of the budget `n`, none
of which (nor the zero word before it) had ended the run earlier. Finished: the last step was `Halted`. Faulted:
the last step was `DecodeFault`, under abort. Stopped at the zero word: budget is left and the word at the pc is
0. Budget exhausted: `n` steps were made. The order of the driver's tests is the spec's decision D18 (log 21). -/
def Obligations.EveryRunEndsInOneOfFourWays : Prop :=
  ∀ (policy : DecodeFaultPolicy) (n : Nat) (s : State), ∃ e t k,
    Driver.run policy n s = .next (e, t) ∧ k ≤ n ∧ Host.Core.run Sys2Proof.core k s = .next t ∧
    (∀ j u, j < k → Host.Core.run Sys2Proof.core j s = .next u →
      Driver.atZeroWord u = false ∧ (0 < j → GoesOn policy u)) ∧
    (e = .finished → 0 < k ∧ t.signal = .halted ∧ t.atHaltVector = true) ∧
    (∀ op, e = .faulted op → 0 < k ∧ policy = .abort ∧ t.signal = .decodeFault op) ∧
    (e = .stoppedAtZeroWord → k < n ∧ t.atHaltVector = false ∧ t.fetch = 0x00000000#32 ∧
      (0 < k → GoesOn policy t)) ∧
    (e = .budgetExhausted → k = n ∧ (0 < k → GoesOn policy t))

/-- After a `DecodeFault` the choice is the host's: with abort, the default, the run ends there; with continue
it goes on at the already advanced pc. So after every step that returns it, whatever the word; such steps are
those over an unknown opcode, and over a recognised-unimplemented word when UNIMPL_SIGNAL is DecodeFault (the
spec's decision D7, log 8). The zero word never gets so far: the driver stops before it (D18, log 21). -/
def Obligations.HostChoosesAfterADecodeFault : Prop :=
  Driver.defaultPolicy = .abort ∧
  (∀ (s t : State) (op : BitVec 7) (n : Nat), Driver.atZeroWord s = false → step s = .next t →
    t.signal = .decodeFault op →
    t.pc = s.pc + 4#32 ∧ Driver.run .abort (n + 1) s = .next (.faulted op, t) ∧
      Driver.run .continues (n + 1) s = Driver.run .continues n t) ∧
  ∀ (s : State) (n : Nat), s.atHaltVector = false → s.fetch ≠ 0x00000000#32 →
    (s.fetch.extractLsb' 0 7 ∉ knownOpcodes ∨
      (s.cfg.unimplSignal = .decodeFault ∧ (flaggedInstr s.fetch).isSome = true)) →
    ∃ t, step s = .next t ∧ t.pc = s.pc + 4#32 ∧ t.signal = .decodeFault (s.fetch.extractLsb' 0 7) ∧
      Driver.run .abort (n + 1) s = .next (.faulted (s.fetch.extractLsb' 0 7), t) ∧
      Driver.run .continues (n + 1) s = Driver.run .continues n t

/-- A session runs only after a load that succeeded, and then is the run of the reset engine; an image that
does not fit leaves the machine as it was and unstarted; with no image the driver stops at once on the zero
word. Reset as a host operation and the driver's order are the spec's decisions D19, D21 and D18 (logs 22, 21). -/
def Obligations.SessionStartsOnlyAfterALoadThatSucceeded : Prop :=
  (∀ (policy : DecodeFaultPolicy) (n : Nat) (image : List Byte) (s : State),
    (s.capacity < image.length → Driver.session policy n image s = .next (.notStarted, s)) ∧
    (image.length ≤ s.capacity → ∃ e t,
      Driver.run policy n (s.loadImage image).2.engineReset = .next (e, t) ∧
      Driver.session policy n image s = .next (.ran e, t))) ∧
  ∀ (policy : DecodeFaultPolicy) (n : Nat) (cfg : Config), (State.powerOn cfg).atHaltVector = false →
    Driver.session policy (n + 1) [] (State.powerOn cfg) = .next (.ran .stoppedAtZeroWord, State.powerOn cfg)

/-- When `hostAct` permits an action that changes something, and what it gives: nothing after a failed load; a
step only after a reset; a load only while no step has been made since the last reset, and one that fits leaves
the phase as it was, so it neither stands for a reset nor undoes one. No action but reset and step changes a
register or the pc, and none a parameter. A reset at any step boundary, so also after steps, is the spec's
decision D19 (log 22), and that it leaves memory as it is its decision D21 (log 22). Two choices are the model's
(log 28): that a failed load ends the session for good, and that an image may be loaded again after a reset that
follows steps. The host's duties to surface `DecodeFault` and to treat `Halted` as success are not stated here:
they are `RunEnd.faulted` and `RunEnd.success`. -/
def Obligations.HostActsOnlyWherePermitted : Prop :=
  (∀ (p q : HostPhase) (a : HostAction) (s t : State), hostAct p a s = some (q, t) →
    p ≠ .loadFailed ∧ t.cfg = s.cfg ∧ (a ≠ .step → a ≠ .reset → t.regs = s.regs ∧ t.pc = s.pc) ∧
    (a = .step → (p = .engineReady ∨ p = .stepped) ∧ q = .stepped ∧ step s = .next t) ∧
    ∀ image, a = .loadImage image → p ≠ .stepped ∧
      (q = .loadFailed ↔ s.capacity < image.length) ∧ (image.length ≤ s.capacity → q = p) ∧
      t = (s.loadImage image).2) ∧
  ∀ (p : HostPhase) (s : State), p ≠ .loadFailed →
    hostAct p .reset s = some (.engineReady, s.engineReset) ∧
    (∀ a v, hostAct p (.writeMemory a v) s = some (p, s.writeByte a v)) ∧
    (p ≠ .memoryReady → ∃ t, hostAct p .step s = some (.stepped, t)) ∧
    (p ≠ .stepped → ∀ image, ∃ q t, hostAct p (.loadImage image) s = some (q, t))

/-- The flags of a program are its recognised-unimplemented words, at the multiples of 4 (that choice of offsets
is the model's, log 27; that the encodings the source does not name are among them is the spec's decision D8,
log 13). Such a word changes nothing where it stands: in a machine just powered on with the image loaded, a step
at a flagged offset changes no register and no byte of memory, and leaves the pc at the next word; for other
states `Obligations.UnimplementedWordsDoNothing` and `Obligations.StepRunsTheDecodedInstruction` say so. A word
with no flag may change nothing too: ADDI x0, x0, 0 does not. -/
def Obligations.FlaggedWordsAreRecognisedUnimplemented : Prop :=
  (∀ (image : List Byte) (k : Nat) (i : Instr), (k, i) ∈ flaggedWords image ↔
    k % 4 = 0 ∧ k < image.length ∧ decode (imageWord image k) = .instr i ∧ unimplementedOpcode i ≠ none) ∧
  ∀ (cfg : Config) (image : List Byte) (k : Nat) (i : Instr), (k, i) ∈ flaggedWords image →
    image.length ≤ cfg.memCapacity.val →
    ∀ s : State, s = ((State.powerOn cfg).loadImage image).2.setPc (BitVec.ofNat 32 k) →
    ∃ t, step s = .next t ∧ SameRegs s t ∧ SameMemory s t ∧ t.pc = s.pc + 4#32

/-! ### Register-register instructions -/

/-- R121: ADD: its encoding, and the sum modulo 2^32. -/
def Obligations.AddWritesTheSum : Prop :=
  Selects 0xFE00707F#32 0x00000033#32 (asR .add) ∧
  ∀ (s : State) (rd rs1 rs2 : Reg), ∃ t, exec (.add rd rs1 rs2) s = .next t ∧
    RegResult s t rd (BitVec.ofNat 32 ((s.readReg rs1).toNat + (s.readReg rs2).toNat))

/-- R122: SUB: its encoding, and the difference modulo 2^32. -/
def Obligations.SubWritesTheDifference : Prop :=
  Selects 0xFE00707F#32 0x40000033#32 (asR .sub) ∧
  ∀ (s : State) (rd rs1 rs2 : Reg), ∃ t, exec (.sub rd rs1 rs2) s = .next t ∧
    RegResult s t rd (BitVec.ofInt 32 ((s.readReg rs1).toNat - (s.readReg rs2).toNat))

/-- R123: SLL: its encoding, and multiplication by 2^shamt modulo 2^32, shamt the low 5 bits of rs2. -/
def Obligations.SllShiftsLeft : Prop :=
  Selects 0x0000707F#32 0x00001033#32 (asR .sll) ∧
  ∀ (s : State) (rd rs1 rs2 : Reg), ∃ t, exec (.sll rd rs1 rs2) s = .next t ∧
    RegResult s t rd (BitVec.ofNat 32 ((s.readReg rs1).toNat * 2 ^ ((s.readReg rs2).toNat % 32)))

/-- R125: SRL: its encoding, and unsigned division by 2^shamt. -/
def Obligations.SrlShiftsRightLogically : Prop :=
  Selects 0xFE00707F#32 0x00005033#32 (asR .srl) ∧
  ∀ (s : State) (rd rs1 rs2 : Reg), ∃ t, exec (.srl rd rs1 rs2) s = .next t ∧
    RegResult s t rd (BitVec.ofNat 32 ((s.readReg rs1).toNat / 2 ^ ((s.readReg rs2).toNat % 32)))

/-- R126: SRA: its encoding, and signed division by 2^shamt rounding toward minus infinity. -/
def Obligations.SraShiftsRightArithmetically : Prop :=
  Selects 0xFE00707F#32 0x40005033#32 (asR .sra) ∧
  ∀ (s : State) (rd rs1 rs2 : Reg), ∃ t, exec (.sra rd rs1 rs2) s = .next t ∧
    RegResult s t rd (BitVec.ofInt 32 ((s.readReg rs1).toInt / 2 ^ ((s.readReg rs2).toNat % 32)))

/-- R124, R127, R128: XOR, OR, AND: their encodings, and the result bit by bit. -/
def Obligations.XorOrAndWorkBitByBit : Prop :=
  Selects 0x0000707F#32 0x00004033#32 (asR .xor) ∧
  Selects 0x0000707F#32 0x00006033#32 (asR .or) ∧
  Selects 0x0000707F#32 0x00007033#32 (asR .and) ∧
  ∀ (s : State) (rd rs1 rs2 : Reg),
    (∃ t v, exec (.xor rd rs1 rs2) s = .next t ∧ RegResult s t rd v ∧
      ∀ k, v.getLsbD k = ((s.readReg rs1).getLsbD k != (s.readReg rs2).getLsbD k)) ∧
    (∃ t v, exec (.or rd rs1 rs2) s = .next t ∧ RegResult s t rd v ∧
      ∀ k, v.getLsbD k = ((s.readReg rs1).getLsbD k || (s.readReg rs2).getLsbD k)) ∧
    ∃ t v, exec (.and rd rs1 rs2) s = .next t ∧ RegResult s t rd v ∧
      ∀ k, v.getLsbD k = ((s.readReg rs1).getLsbD k && (s.readReg rs2).getLsbD k)

/-! ### Register-immediate instructions -/

/-- R131: ADDI: its encoding, and the sum with the sign-extended immediate modulo 2^32. -/
def Obligations.AddiAddsTheSignedImmediate : Prop :=
  Selects 0x0000707F#32 0x00000013#32 (asI .addi) ∧
  ∀ (s : State) (rd rs1 : Reg) (imm : BitVec 12), ∃ t, exec (.addi rd rs1 imm) s = .next t ∧
    RegResult s t rd (BitVec.ofInt 32 ((s.readReg rs1).toNat + imm.toInt))

/-- R132, R133, R134: XORI, ORI, ANDI: their encodings, and the result bit by bit; bits 31 to 12 of the
immediate are copies of its bit 11. -/
def Obligations.LogicalImmediatesWorkBitByBit : Prop :=
  Selects 0x0000707F#32 0x00004013#32 (asI .xori) ∧
  Selects 0x0000707F#32 0x00006013#32 (asI .ori) ∧
  Selects 0x0000707F#32 0x00007013#32 (asI .andi) ∧
  ∀ (s : State) (rd rs1 : Reg) (imm : BitVec 12),
    (∃ t v, exec (.xori rd rs1 imm) s = .next t ∧ RegResult s t rd v ∧
      ∀ k, k < 32 → v.getLsbD k = ((s.readReg rs1).getLsbD k != imm.getLsbD (min k 11))) ∧
    (∃ t v, exec (.ori rd rs1 imm) s = .next t ∧ RegResult s t rd v ∧
      ∀ k, k < 32 → v.getLsbD k = ((s.readReg rs1).getLsbD k || imm.getLsbD (min k 11))) ∧
    ∃ t v, exec (.andi rd rs1 imm) s = .next t ∧ RegResult s t rd v ∧
      ∀ k, k < 32 → v.getLsbD k = ((s.readReg rs1).getLsbD k && imm.getLsbD (min k 11))

/-! ### Loads -/

/-- R142: LB: its encoding, its address, and the byte there as a signed number. -/
def Obligations.LbLoadsASignedByte : Prop :=
  Selects 0x0000707F#32 0x00000003#32 (asI .lb) ∧
  ∀ (s : State) (rd rs1 : Reg) (imm : BitVec 12) (ea : Word),
    ea = BitVec.ofInt 32 ((s.readReg rs1).toNat + imm.toInt) →
    ∃ t, exec (.lb rd rs1 imm) s = .next t ∧
      RegResult s t rd (BitVec.ofInt 32 (s.readByte (s.byteAddr ea 0)).toInt)

/-- R143: LH: its encoding, its address, and the little-endian halfword there as a signed number. -/
def Obligations.LhLoadsASignedHalfword : Prop :=
  Selects 0x0000707F#32 0x00001003#32 (asI .lh) ∧
  ∀ (s : State) (rd rs1 : Reg) (imm : BitVec 12) (ea : Word) (h : Nat),
    ea = BitVec.ofInt 32 ((s.readReg rs1).toNat + imm.toInt) →
    h = (s.readByte (s.byteAddr ea 0)).toNat + 256 * (s.readByte (s.byteAddr ea 1)).toNat →
    ∃ t, exec (.lh rd rs1 imm) s = .next t ∧
      RegResult s t rd (BitVec.ofInt 32 (if h < 32768 then (h : Int) else h - 65536))

/-- R144: LW: its encoding, its address, and the little-endian word there. -/
def Obligations.LwLoadsTheWord : Prop :=
  Selects 0x0000707F#32 0x00002003#32 (asI .lw) ∧
  ∀ (s : State) (rd rs1 : Reg) (imm : BitVec 12) (ea : Word),
    ea = BitVec.ofInt 32 ((s.readReg rs1).toNat + imm.toInt) →
    ∃ t v, exec (.lw rd rs1 imm) s = .next t ∧ RegResult s t rd v ∧
      ∀ k, k < 4 → v.extractLsb' (8 * k) 8 = s.readByte (s.byteAddr ea k)

/-! ### Stores -/

/-- R152, R153, R154: SB, SH, SW: their encodings, their address, and the low 1, 2, 4 bytes of rs2 written
there in little-endian order, the out-of-range ones dropped, nothing else changed. -/
def Obligations.StoresWriteTheLowBytes : Prop :=
  Selects 0x0000707F#32 0x00000023#32 (asS .sb) ∧
  Selects 0x0000707F#32 0x00001023#32 (asS .sh) ∧
  Selects 0x0000707F#32 0x00002023#32 (asS .sw) ∧
  ∀ (s : State) (rs1 rs2 : Reg) (imm : BitVec 12),
    s.storeAddr rs1 imm = BitVec.ofInt 32 ((s.readReg rs1).toNat + imm.toInt) ∧
    (∃ t, exec (.sb rs1 rs2 imm) s = .next t ∧
      StoreResult s t (s.storeAddr rs1 imm) 1 (s.readReg rs2)) ∧
    (∃ t, exec (.sh rs1 rs2 imm) s = .next t ∧
      StoreResult s t (s.storeAddr rs1 imm) 2 (s.readReg rs2)) ∧
    ∃ t, exec (.sw rs1 rs2 imm) s = .next t ∧
      StoreResult s t (s.storeAddr rs1 imm) 4 (s.readReg rs2)

/-! ### Branches -/

/-- R162, R163: BEQ and BNE: their encodings, the comparison of rs1 with rs2, and the target from the
branch's own address. -/
def Obligations.EqualityBranches : Prop :=
  Selects 0x0000707F#32 0x00000063#32 (asB .beq) ∧
  Selects 0x0000707F#32 0x00001063#32 (asB .bne) ∧
  ∀ (s : State) (rs1 rs2 : Reg) (off : BitVec 13),
    (∃ t, exec (.beq rs1 rs2 off) s = .next t ∧
      BranchResult s t (s.readReg rs1 = s.readReg rs2)
        (BitVec.ofInt 32 (s.pc.toNat - 4 + off.toInt))) ∧
    ∃ t, exec (.bne rs1 rs2 off) s = .next t ∧
      BranchResult s t (s.readReg rs1 ≠ s.readReg rs2)
        (BitVec.ofInt 32 (s.pc.toNat - 4 + off.toInt))

/-- R164, R165: BLT and BGE: their encodings, the signed comparison, and the target. -/
def Obligations.SignedBranches : Prop :=
  Selects 0x0000707F#32 0x00004063#32 (asB .blt) ∧
  Selects 0x0000707F#32 0x00005063#32 (asB .bge) ∧
  ∀ (s : State) (rs1 rs2 : Reg) (off : BitVec 13),
    (∃ t, exec (.blt rs1 rs2 off) s = .next t ∧
      BranchResult s t ((s.readReg rs1).toInt < (s.readReg rs2).toInt)
        (BitVec.ofInt 32 (s.pc.toNat - 4 + off.toInt))) ∧
    ∃ t, exec (.bge rs1 rs2 off) s = .next t ∧
      BranchResult s t ((s.readReg rs1).toInt ≥ (s.readReg rs2).toInt)
        (BitVec.ofInt 32 (s.pc.toNat - 4 + off.toInt))

/-- R166, R167: BLTU and BGEU: their encodings, the unsigned comparison, and the target. -/
def Obligations.UnsignedBranches : Prop :=
  Selects 0x0000707F#32 0x00006063#32 (asB .bltu) ∧
  Selects 0x0000707F#32 0x00007063#32 (asB .bgeu) ∧
  ∀ (s : State) (rs1 rs2 : Reg) (off : BitVec 13),
    (∃ t, exec (.bltu rs1 rs2 off) s = .next t ∧
      BranchResult s t ((s.readReg rs1).toNat < (s.readReg rs2).toNat)
        (BitVec.ofInt 32 (s.pc.toNat - 4 + off.toInt))) ∧
    ∃ t, exec (.bgeu rs1 rs2 off) s = .next t ∧
      BranchResult s t ((s.readReg rs1).toNat ≥ (s.readReg rs2).toNat)
        (BitVec.ofInt 32 (s.pc.toNat - 4 + off.toInt))

/-! ### Upper-immediate instructions and jumps -/

/-- R171: LUI: its encoding, and the 20-bit field times 2^12. -/
def Obligations.LuiLoadsTheUpperImmediate : Prop :=
  Selects 0x0000007F#32 0x00000037#32 (asU .lui) ∧
  ∀ (s : State) (rd : Reg) (imm20 : BitVec 20), ∃ t, exec (.lui rd imm20) s = .next t ∧
    RegResult s t rd (BitVec.ofNat 32 (imm20.toNat * 4096))

/-- R172: AUIPC: its encoding, and its own address plus the 20-bit field times 2^12, modulo 2^32. -/
def Obligations.AuipcAddsToItsOwnAddress : Prop :=
  Selects 0x0000007F#32 0x00000017#32 (asU .auipc) ∧
  ∀ (s : State) (rd : Reg) (imm20 : BitVec 20), ∃ t, exec (.auipc rd imm20) s = .next t ∧
    RegResult s t rd (BitVec.ofInt 32 (s.pc.toNat - 4 + imm20.toNat * 4096))

/-- R181: JAL: its encoding, the link to the following instruction, the target from its own address. -/
def Obligations.JalLinksAndJumps : Prop :=
  Selects 0x0000007F#32 0x0000006F#32 (asJ .jal) ∧
  ∀ (s : State) (rd : Reg) (off : BitVec 21), ∃ t, exec (.jal rd off) s = .next t ∧
    JumpResult s t rd (BitVec.ofInt 32 (s.pc.toNat - 4 + off.toInt))

/-- R182: JALR: its encoding (funct3 not examined), the link, and the absolute target from the old rs1 with
bit 0 cleared. -/
def Obligations.JalrLinksAndJumps : Prop :=
  Selects 0x0000007F#32 0x00000067#32 (asI .jalr) ∧
  ∀ (s : State) (rd rs1 : Reg) (imm : BitVec 12), ∃ t, exec (.jalr rd rs1 imm) s = .next t ∧
    JumpResult s t rd
      (BitVec.ofNat 32 (((((s.readReg rs1).toNat + imm.toInt) % 2 ^ 32).toNat) / 2 * 2))

/-! ### Recognised-unimplemented words -/

/-- Each of the five recognised-unimplemented rows completes with no effect on registers, memory, pc
(`npc`) or parameters; the signal is UNIMPL_SIGNAL, a parameter of the spec (its decisions D7 and D8,
logs 8 and 13). -/
def Obligations.UnimplementedWordsDoNothing : Prop :=
  ∀ (s : State) (bits : BitVec 25) (i : Instr) (op : BitVec 7),
    (i, op) ∈ [(Instr.unimplemented33 bits, 0x33#7), (Instr.unimplemented13 bits, 0x13#7),
      (Instr.unimplemented03 bits, 0x03#7), (Instr.unimplemented23 bits, 0x23#7),
      (Instr.unimplemented63 bits, 0x63#7)] →
    ∃ t, exec i s = .next t ∧ SameRegs s t ∧ SameMemory s t ∧ t.pc = s.pc ∧ t.cfg = s.cfg ∧
      (s.cfg.unimplSignal = .continues → t.signal = .continues) ∧
      (s.cfg.unimplSignal = .decodeFault → t.signal = .decodeFault op)
end

