-- ==== Sys2Proof/Laws/Decode.lean ====
section
/-! SUPPORT. The packed formats and the fields of a word as numbers (so that a field of a packed word is
linear arithmetic), a word from its fields, and the masks of the opcode table as conditions on fields. -/

namespace Sys2Proof

/-! ### Fields as numbers -/

theorem extractLsb'_toNat_eq {n : Nat} (w : BitVec n) (low len : Nat) :
    (w.extractLsb' low len).toNat = w.toNat / 2 ^ low % 2 ^ len := by
  rw [BitVec.extractLsb'_toNat, Nat.shiftRight_eq_div_pow]

theorem append_toNat {n k : Nat} (x : BitVec n) (y : BitVec k) : (x ++ y).toNat = 2 ^ k * x.toNat + y.toNat := by
  rw [BitVec.toNat_append, ← Nat.shiftLeft_add_eq_or_of_lt y.isLt, Nat.shiftLeft_eq, Nat.mul_comm]

@[simp] theorem Encode.regBits_toNat (r : Reg) : (Encode.regBits r).toNat = r.val := rfl

theorem Decode.opcode_toNat (w : Word) : (Decode.opcode w).toNat = w.toNat % 128 := by
  have h : (Decode.opcode w).toNat = _ := extractLsb'_toNat_eq w 0 7
  omega

theorem Decode.funct3_toNat (w : Word) : (Decode.funct3 w).toNat = w.toNat / 4096 % 8 :=
  extractLsb'_toNat_eq w 12 3

theorem Decode.funct7_toNat (w : Word) : (Decode.funct7 w).toNat = w.toNat / 33554432 % 128 :=
  extractLsb'_toNat_eq w 25 7

theorem Decode.rd_val (w : Word) : (Decode.rd w).val = w.toNat / 128 % 32 := extractLsb'_toNat_eq w 7 5

theorem Decode.rs1_val (w : Word) : (Decode.rs1 w).val = w.toNat / 32768 % 32 := extractLsb'_toNat_eq w 15 5

theorem Decode.rs2_val (w : Word) : (Decode.rs2 w).val = w.toNat / 1048576 % 32 := extractLsb'_toNat_eq w 20 5

theorem Decode.immI_toNat (w : Word) : (Decode.immI w).toNat = w.toNat / 1048576 % 4096 :=
  extractLsb'_toNat_eq w 20 12

theorem Decode.immU_toNat (w : Word) : (Decode.immU w).toNat = w.toNat / 4096 % 1048576 :=
  extractLsb'_toNat_eq w 12 20

theorem Decode.upper_toNat (w : Word) : (Decode.upper w).toNat = w.toNat / 128 % 33554432 :=
  extractLsb'_toNat_eq w 7 25

theorem Decode.immS_toNat (w : Word) :
    (Decode.immS w).toNat = 32 * (w.toNat / 33554432 % 128) + w.toNat / 128 % 32 := by
  have h : (Decode.immS w).toNat = _ := append_toNat (w.extractLsb' 25 7) (w.extractLsb' 7 5)
  simpa only [extractLsb'_toNat_eq, Nat.reducePow] using h

theorem Decode.immB_toNat (w : Word) :
    (Decode.immB w).toNat = 4096 * (w.toNat / 2147483648 % 2) + 2048 * (w.toNat / 128 % 2) +
      32 * (w.toNat / 33554432 % 64) + 2 * (w.toNat / 256 % 16) := by
  have h : (Decode.immB w).toNat = (w.extractLsb' 31 1 ++ w.extractLsb' 7 1 ++ w.extractLsb' 25 6 ++
    w.extractLsb' 8 4 ++ 0#1).toNat := rfl
  rw [h]
  simp only [append_toNat, extractLsb'_toNat_eq, BitVec.toNat_ofNat, Nat.reducePow]
  omega

theorem Decode.immJ_toNat (w : Word) :
    (Decode.immJ w).toNat = 1048576 * (w.toNat / 2147483648 % 2) + 4096 * (w.toNat / 4096 % 256) +
      2048 * (w.toNat / 1048576 % 2) + 2 * (w.toNat / 2097152 % 1024) := by
  have h : (Decode.immJ w).toNat = (w.extractLsb' 31 1 ++ w.extractLsb' 12 8 ++ w.extractLsb' 20 1 ++
    w.extractLsb' 21 10 ++ 0#1).toNat := rfl
  rw [h]
  simp only [append_toNat, extractLsb'_toNat_eq, BitVec.toNat_ofNat, Nat.reducePow]
  omega

/-! ### Packed words as numbers -/

theorem Encode.formatR_toNat (f7 : BitVec 7) (rs2 rs1 : Reg) (f3 : BitVec 3) (rd : Reg) (op : BitVec 7) :
    (Encode.formatR f7 rs2 rs1 f3 rd op).toNat = 33554432 * f7.toNat + 1048576 * rs2.val + 32768 * rs1.val +
      4096 * f3.toNat + 128 * rd.val + op.toNat := by
  have h : (Encode.formatR f7 rs2 rs1 f3 rd op).toNat =
      (f7 ++ Encode.regBits rs2 ++ Encode.regBits rs1 ++ f3 ++ Encode.regBits rd ++ op).toNat := rfl
  rw [h]
  simp only [append_toNat, Encode.regBits_toNat]
  omega

theorem Encode.formatI_toNat (imm : BitVec 12) (rs1 : Reg) (f3 : BitVec 3) (rd : Reg) (op : BitVec 7) :
    (Encode.formatI imm rs1 f3 rd op).toNat = 1048576 * imm.toNat + 32768 * rs1.val +
      4096 * f3.toNat + 128 * rd.val + op.toNat := by
  have h : (Encode.formatI imm rs1 f3 rd op).toNat =
      (imm ++ Encode.regBits rs1 ++ f3 ++ Encode.regBits rd ++ op).toNat := rfl
  rw [h]
  simp only [append_toNat, Encode.regBits_toNat]
  omega

theorem Encode.formatS_toNat (imm : BitVec 12) (rs2 rs1 : Reg) (f3 : BitVec 3) (op : BitVec 7) :
    (Encode.formatS imm rs2 rs1 f3 op).toNat = 33554432 * (imm.toNat / 32 % 128) + 1048576 * rs2.val +
      32768 * rs1.val + 4096 * f3.toNat + 128 * (imm.toNat % 32) + op.toNat := by
  have h : (Encode.formatS imm rs2 rs1 f3 op).toNat = (imm.extractLsb' 5 7 ++ Encode.regBits rs2 ++
      Encode.regBits rs1 ++ f3 ++ imm.extractLsb' 0 5 ++ op).toNat := rfl
  rw [h]
  simp only [append_toNat, extractLsb'_toNat_eq, Encode.regBits_toNat, Nat.reducePow]
  omega

theorem Encode.formatB_toNat (off : BitVec 13) (rs2 rs1 : Reg) (f3 : BitVec 3) (op : BitVec 7) :
    (Encode.formatB off rs2 rs1 f3 op).toNat = 2147483648 * (off.toNat / 4096 % 2) +
      33554432 * (off.toNat / 32 % 64) + 1048576 * rs2.val + 32768 * rs1.val + 4096 * f3.toNat +
      256 * (off.toNat / 2 % 16) + 128 * (off.toNat / 2048 % 2) + op.toNat := by
  have h : (Encode.formatB off rs2 rs1 f3 op).toNat = (off.extractLsb' 12 1 ++ off.extractLsb' 5 6 ++
      Encode.regBits rs2 ++ Encode.regBits rs1 ++ f3 ++ off.extractLsb' 1 4 ++ off.extractLsb' 11 1 ++
      op).toNat := rfl
  rw [h]
  simp only [append_toNat, extractLsb'_toNat_eq, Encode.regBits_toNat, Nat.reducePow]
  omega

theorem Encode.formatU_toNat (imm20 : BitVec 20) (rd : Reg) (op : BitVec 7) :
    (Encode.formatU imm20 rd op).toNat = 4096 * imm20.toNat + 128 * rd.val + op.toNat := by
  have h : (Encode.formatU imm20 rd op).toNat = (imm20 ++ Encode.regBits rd ++ op).toNat := rfl
  rw [h]
  simp only [append_toNat, Encode.regBits_toNat]
  omega

theorem Encode.formatJ_toNat (off : BitVec 21) (rd : Reg) (op : BitVec 7) :
    (Encode.formatJ off rd op).toNat = 2147483648 * (off.toNat / 1048576 % 2) +
      2097152 * (off.toNat / 2 % 1024) + 1048576 * (off.toNat / 2048 % 2) +
      4096 * (off.toNat / 4096 % 256) + 128 * rd.val + op.toNat := by
  have h : (Encode.formatJ off rd op).toNat = (off.extractLsb' 20 1 ++ off.extractLsb' 1 10 ++
      off.extractLsb' 11 1 ++ off.extractLsb' 12 8 ++ Encode.regBits rd ++ op).toNat := rfl
  rw [h]
  simp only [append_toNat, extractLsb'_toNat_eq, Encode.regBits_toNat, Nat.reducePow]
  omega

theorem Encode.formatRaw_toNat (bits : BitVec 25) (op : BitVec 7) :
    (Encode.formatRaw bits op).toNat = 128 * bits.toNat + op.toNat := append_toNat bits op

/-! ### The opcode and the other fields of a packed word -/

section fields

variable (f7 op : BitVec 7) (rs2 rs1 rd : Reg) (f3 : BitVec 3) (imm : BitVec 12) (off : BitVec 13)
  (imm20 : BitVec 20) (joff : BitVec 21) (bits : BitVec 25)

@[simp] theorem opcode_formatR : Decode.opcode (Encode.formatR f7 rs2 rs1 f3 rd op) = op := by
  apply BitVec.eq_of_toNat_eq; rw [Decode.opcode_toNat, Encode.formatR_toNat]; omega

@[simp] theorem funct3_formatR : Decode.funct3 (Encode.formatR f7 rs2 rs1 f3 rd op) = f3 := by
  apply BitVec.eq_of_toNat_eq; rw [Decode.funct3_toNat, Encode.formatR_toNat]; omega

@[simp] theorem funct7_formatR : Decode.funct7 (Encode.formatR f7 rs2 rs1 f3 rd op) = f7 := by
  apply BitVec.eq_of_toNat_eq; rw [Decode.funct7_toNat, Encode.formatR_toNat]; omega

@[simp] theorem rd_formatR : Decode.rd (Encode.formatR f7 rs2 rs1 f3 rd op) = rd := by
  apply Fin.ext; rw [Decode.rd_val, Encode.formatR_toNat]; omega

@[simp] theorem rs1_formatR : Decode.rs1 (Encode.formatR f7 rs2 rs1 f3 rd op) = rs1 := by
  apply Fin.ext; rw [Decode.rs1_val, Encode.formatR_toNat]; omega

@[simp] theorem rs2_formatR : Decode.rs2 (Encode.formatR f7 rs2 rs1 f3 rd op) = rs2 := by
  apply Fin.ext; rw [Decode.rs2_val, Encode.formatR_toNat]; omega

@[simp] theorem opcode_formatI : Decode.opcode (Encode.formatI imm rs1 f3 rd op) = op := by
  apply BitVec.eq_of_toNat_eq; rw [Decode.opcode_toNat, Encode.formatI_toNat]; omega

@[simp] theorem funct3_formatI : Decode.funct3 (Encode.formatI imm rs1 f3 rd op) = f3 := by
  apply BitVec.eq_of_toNat_eq; rw [Decode.funct3_toNat, Encode.formatI_toNat]; omega

@[simp] theorem opcode_formatS : Decode.opcode (Encode.formatS imm rs2 rs1 f3 op) = op := by
  apply BitVec.eq_of_toNat_eq; rw [Decode.opcode_toNat, Encode.formatS_toNat]; omega

@[simp] theorem funct3_formatS : Decode.funct3 (Encode.formatS imm rs2 rs1 f3 op) = f3 := by
  apply BitVec.eq_of_toNat_eq; rw [Decode.funct3_toNat, Encode.formatS_toNat]; omega

@[simp] theorem opcode_formatB : Decode.opcode (Encode.formatB off rs2 rs1 f3 op) = op := by
  apply BitVec.eq_of_toNat_eq; rw [Decode.opcode_toNat, Encode.formatB_toNat]; omega

@[simp] theorem funct3_formatB : Decode.funct3 (Encode.formatB off rs2 rs1 f3 op) = f3 := by
  apply BitVec.eq_of_toNat_eq; rw [Decode.funct3_toNat, Encode.formatB_toNat]
  have h1 := Nat.mod_lt (off.toNat / 2048) (show 2 > 0 by omega)
  have h2 := Nat.mod_lt (off.toNat / 2) (show 16 > 0 by omega)
  generalize off.toNat / 2048 % 2 = a at *
  generalize off.toNat / 2 % 16 = b at *
  generalize off.toNat / 32 % 64 = c at *
  generalize off.toNat / 4096 % 2 = d at *
  omega

@[simp] theorem opcode_formatU : Decode.opcode (Encode.formatU imm20 rd op) = op := by
  apply BitVec.eq_of_toNat_eq; rw [Decode.opcode_toNat, Encode.formatU_toNat]; omega

@[simp] theorem opcode_formatJ : Decode.opcode (Encode.formatJ joff rd op) = op := by
  apply BitVec.eq_of_toNat_eq; rw [Decode.opcode_toNat, Encode.formatJ_toNat]; omega

@[simp] theorem opcode_formatRaw : Decode.opcode (Encode.formatRaw bits op) = op := by
  apply BitVec.eq_of_toNat_eq; rw [Decode.opcode_toNat, Encode.formatRaw_toNat]; omega

@[simp] theorem upper_formatRaw : Decode.upper (Encode.formatRaw bits op) = bits := by
  apply BitVec.eq_of_toNat_eq; rw [Decode.upper_toNat, Encode.formatRaw_toNat]; omega

end fields

/-! ### funct3 and funct7 of a word and of its upper bits -/

theorem upperFunct3_upper (w : Word) : upperFunct3 (Decode.upper w) = Decode.funct3 w := by
  apply BitVec.eq_of_toNat_eq
  have h : (upperFunct3 (Decode.upper w)).toNat = _ := extractLsb'_toNat_eq (Decode.upper w) 5 3
  rw [h, Decode.upper_toNat, Decode.funct3_toNat]
  omega

theorem upperFunct7_upper (w : Word) : upperFunct7 (Decode.upper w) = Decode.funct7 w := by
  apply BitVec.eq_of_toNat_eq
  have h : (upperFunct7 (Decode.upper w)).toNat = _ := extractLsb'_toNat_eq (Decode.upper w) 18 7
  rw [h, Decode.upper_toNat, Decode.funct7_toNat]
  omega

/-! ### Masks as conditions on fields (spec/30_encoding.md R80) -/

/-- A masked word equals a pattern exactly when they agree on the mask's bits. -/
theorem and_mask_eq_iff {w mask pattern : Word} (hp : pattern &&& mask = pattern) :
    w &&& mask = pattern ↔ ∀ i, i < 32 → mask.getLsbD i = true → w.getLsbD i = pattern.getLsbD i := by
  constructor
  · rintro rfl i _ hm
    simp [hm]
  · intro h
    rw [← hp]
    apply BitVec.eq_of_getLsbD_eq
    intro i hi
    by_cases hm : mask.getLsbD i = true
    · simp [hm, h i hi hm]
    · simp [hm]

/-- Two words agree on a field exactly when they agree on its bits. -/
theorem extractLsb'_eq_iff {w p : Word} {low len : Nat} :
    w.extractLsb' low len = p.extractLsb' low len ↔
      ∀ i, i < len → w.getLsbD (low + i) = p.getLsbD (low + i) := by
  constructor
  · intro h i hi
    have := congrArg (·.getLsbD i) h
    simpa [BitVec.getLsbD_extractLsb', hi] using this
  · intro h
    apply BitVec.eq_of_getLsbD_eq
    intro i hi
    simp [hi, h i hi]

/-- The bits of the mask that examines the opcode alone. -/
theorem mask7F_bits : ∀ i, i < 32 → ((0x0000007F#32).getLsbD i = true ↔ i < 7) := by decide

/-- The bits of the mask that examines the opcode and funct3. -/
theorem mask707F_bits : ∀ i, i < 32 →
    ((0x0000707F#32).getLsbD i = true ↔ i < 7 ∨ (12 ≤ i ∧ i < 15)) := by decide

/-- The bits of the mask that examines the opcode, funct3 and funct7. -/
theorem maskFE00707F_bits : ∀ i, i < 32 →
    ((0xFE00707F#32).getLsbD i = true ↔ i < 7 ∨ (12 ≤ i ∧ i < 15) ∨ 25 ≤ i) := by decide

theorem opcode_eq_iff {w p : Word} :
    Decode.opcode w = Decode.opcode p ↔ ∀ i, i < 7 → w.getLsbD i = p.getLsbD i := by
  simpa [Decode.opcode] using extractLsb'_eq_iff (w := w) (p := p) (low := 0) (len := 7)

/-- The mask 0x0000007F. -/
theorem mask7F_iff {w p : Word} (hp : p &&& 0x0000007F#32 = p) :
    w &&& 0x0000007F#32 = p ↔ Decode.opcode w = Decode.opcode p := by
  rw [and_mask_eq_iff hp, opcode_eq_iff]
  exact ⟨fun h i hi => h i (by omega) ((mask7F_bits i (by omega)).mpr hi),
    fun h i h32 hm => h i ((mask7F_bits i h32).mp hm)⟩

/-- The mask 0x0000707F. -/
theorem mask707F_iff {w p : Word} (hp : p &&& 0x0000707F#32 = p) :
    w &&& 0x0000707F#32 = p ↔ Decode.opcode w = Decode.opcode p ∧ Decode.funct3 w = Decode.funct3 p := by
  rw [and_mask_eq_iff hp, opcode_eq_iff, Decode.funct3, Decode.funct3, extractLsb'_eq_iff]
  constructor
  · exact fun h => ⟨fun i hi => h i (by omega) ((mask707F_bits i (by omega)).mpr (by omega)),
      fun i hi => h (12 + i) (by omega) ((mask707F_bits (12 + i) (by omega)).mpr (by omega))⟩
  · rintro ⟨h1, h2⟩ i h32 hm
    rcases (mask707F_bits i h32).mp hm with h | h
    · exact h1 i h
    · simpa [show 12 + (i - 12) = i by omega] using h2 (i - 12) (by omega)

/-- The mask 0xFE00707F. -/
theorem maskFE00707F_iff {w p : Word} (hp : p &&& 0xFE00707F#32 = p) :
    w &&& 0xFE00707F#32 = p ↔ Decode.opcode w = Decode.opcode p ∧ Decode.funct3 w = Decode.funct3 p ∧
      Decode.funct7 w = Decode.funct7 p := by
  rw [and_mask_eq_iff hp, opcode_eq_iff, Decode.funct3, Decode.funct3, Decode.funct7, Decode.funct7,
    extractLsb'_eq_iff, extractLsb'_eq_iff]
  constructor
  · exact fun h => ⟨fun i hi => h i (by omega) ((maskFE00707F_bits i (by omega)).mpr (by omega)),
      fun i hi => h (12 + i) (by omega) ((maskFE00707F_bits (12 + i) (by omega)).mpr (by omega)),
      fun i hi => h (25 + i) (by omega) ((maskFE00707F_bits (25 + i) (by omega)).mpr (by omega))⟩
  · rintro ⟨h1, h2, h3⟩ i h32 hm
    rcases (maskFE00707F_bits i h32).mp hm with h | h | h
    · exact h1 i h
    · simpa [show 12 + (i - 12) = i by omega] using h2 (i - 12) (by omega)
    · simpa [show 25 + (i - 25) = i by omega] using h3 (i - 25) (by omega)

end Sys2Proof
end

