-- ==== Sys2Proof/Laws/State.lean ====
section
/-! SUPPORT. One lemma per field of State per update, so that no later proof unfolds a record update. -/

namespace Sys2Proof.Machine

@[simp] theorem State.setPc_regs (s : State) (t : Word) : (s.setPc t).regs = s.regs := rfl
@[simp] theorem State.setPc_pc (s : State) (t : Word) : (s.setPc t).pc = t := rfl
@[simp] theorem State.setPc_mem (s : State) (t : Word) : (s.setPc t).mem = s.mem := rfl
@[simp] theorem State.setPc_signal (s : State) (t : Word) : (s.setPc t).signal = s.signal := rfl
@[simp] theorem State.setPc_cfg (s : State) (t : Word) : (s.setPc t).cfg = s.cfg := rfl

@[simp] theorem State.setSignal_regs (s : State) (g : Signal) : (s.setSignal g).regs = s.regs := rfl
@[simp] theorem State.setSignal_pc (s : State) (g : Signal) : (s.setSignal g).pc = s.pc := rfl
@[simp] theorem State.setSignal_mem (s : State) (g : Signal) : (s.setSignal g).mem = s.mem := rfl
@[simp] theorem State.setSignal_signal (s : State) (g : Signal) : (s.setSignal g).signal = g := rfl
@[simp] theorem State.setSignal_cfg (s : State) (g : Signal) : (s.setSignal g).cfg = s.cfg := rfl

@[simp] theorem State.clearX0_regs (s : State) : (s.clearX0).regs = s.regs.set 0 0#32 := rfl
@[simp] theorem State.clearX0_pc (s : State) : (s.clearX0).pc = s.pc := rfl
@[simp] theorem State.clearX0_mem (s : State) : (s.clearX0).mem = s.mem := rfl
@[simp] theorem State.clearX0_signal (s : State) : (s.clearX0).signal = s.signal := rfl
@[simp] theorem State.clearX0_cfg (s : State) : (s.clearX0).cfg = s.cfg := rfl

@[simp] theorem State.advance_regs (s : State) : (s.advance).regs = s.regs := rfl
@[simp] theorem State.advance_pc (s : State) : (s.advance).pc = s.pc + 4#32 := rfl
@[simp] theorem State.advance_mem (s : State) : (s.advance).mem = s.mem := rfl
@[simp] theorem State.advance_signal (s : State) : (s.advance).signal = s.signal := rfl
@[simp] theorem State.advance_cfg (s : State) : (s.advance).cfg = s.cfg := rfl

@[simp] theorem State.raiseHalted_regs (s : State) : (s.raiseHalted).regs = s.regs := rfl
@[simp] theorem State.raiseHalted_pc (s : State) : (s.raiseHalted).pc = s.pc := rfl
@[simp] theorem State.raiseHalted_mem (s : State) : (s.raiseHalted).mem = s.mem := rfl
@[simp] theorem State.raiseHalted_signal (s : State) : (s.raiseHalted).signal = .halted := rfl
@[simp] theorem State.raiseHalted_cfg (s : State) : (s.raiseHalted).cfg = s.cfg := rfl

@[simp] theorem State.raiseDecodeFault_regs (s : State) (op : BitVec 7) : (s.raiseDecodeFault op).regs = s.regs := rfl
@[simp] theorem State.raiseDecodeFault_pc (s : State) (op : BitVec 7) : (s.raiseDecodeFault op).pc = s.pc := rfl
@[simp] theorem State.raiseDecodeFault_mem (s : State) (op : BitVec 7) : (s.raiseDecodeFault op).mem = s.mem := rfl
@[simp] theorem State.raiseDecodeFault_signal (s : State) (op : BitVec 7) : (s.raiseDecodeFault op).signal = .decodeFault op := rfl
@[simp] theorem State.raiseDecodeFault_cfg (s : State) (op : BitVec 7) : (s.raiseDecodeFault op).cfg = s.cfg := rfl

@[simp] theorem State.engineReset_regs (s : State) : (s.engineReset).regs = State.resetRegs s.cfg := rfl
@[simp] theorem State.engineReset_pc (s : State) : (s.engineReset).pc = s.cfg.resetPc := rfl
@[simp] theorem State.engineReset_mem (s : State) : (s.engineReset).mem = s.mem := rfl
@[simp] theorem State.engineReset_signal (s : State) : (s.engineReset).signal = .continues := rfl
@[simp] theorem State.engineReset_cfg (s : State) : (s.engineReset).cfg = s.cfg := rfl

@[simp] theorem State.powerOn_regs (cfg : Config) : (State.powerOn cfg).regs = State.resetRegs cfg := rfl
@[simp] theorem State.powerOn_pc (cfg : Config) : (State.powerOn cfg).pc = cfg.resetPc := rfl
@[simp] theorem State.powerOn_mem (cfg : Config) : (State.powerOn cfg).mem = [] := rfl
@[simp] theorem State.powerOn_signal (cfg : Config) : (State.powerOn cfg).signal = .continues := rfl
@[simp] theorem State.powerOn_cfg (cfg : Config) : (State.powerOn cfg).cfg = cfg := rfl

@[simp] theorem State.writeReg_pc (s : State) (r : Reg) (v : Word) : (s.writeReg r v).pc = s.pc := by
  unfold State.writeReg; split <;> rfl

@[simp] theorem State.writeReg_mem (s : State) (r : Reg) (v : Word) : (s.writeReg r v).mem = s.mem := by
  unfold State.writeReg; split <;> rfl

@[simp] theorem State.writeReg_signal (s : State) (r : Reg) (v : Word) : (s.writeReg r v).signal = s.signal := by
  unfold State.writeReg; split <;> rfl

@[simp] theorem State.writeReg_cfg (s : State) (r : Reg) (v : Word) : (s.writeReg r v).cfg = s.cfg := by
  unfold State.writeReg; split <;> rfl

@[simp] theorem State.writeByte_regs (s : State) (a : Nat) (v : Byte) : (s.writeByte a v).regs = s.regs := by
  unfold State.writeByte; split <;> rfl

@[simp] theorem State.writeByte_pc (s : State) (a : Nat) (v : Byte) : (s.writeByte a v).pc = s.pc := by
  unfold State.writeByte; split <;> rfl

@[simp] theorem State.writeByte_signal (s : State) (a : Nat) (v : Byte) : (s.writeByte a v).signal = s.signal := by
  unfold State.writeByte; split <;> rfl

@[simp] theorem State.writeByte_cfg (s : State) (a : Nat) (v : Byte) : (s.writeByte a v).cfg = s.cfg := by
  unfold State.writeByte; split <;> rfl

@[simp] theorem State.store_regs (s : State) (addr : Word) (n : Nat) (v : Word) :
    (s.store addr n v).regs = s.regs := by
  induction n with
  | zero => rfl
  | succ k ih => simp [State.store, ih]

@[simp] theorem State.store_pc (s : State) (addr : Word) (n : Nat) (v : Word) :
    (s.store addr n v).pc = s.pc := by
  induction n with
  | zero => rfl
  | succ k ih => simp [State.store, ih]

@[simp] theorem State.store_signal (s : State) (addr : Word) (n : Nat) (v : Word) :
    (s.store addr n v).signal = s.signal := by
  induction n with
  | zero => rfl
  | succ k ih => simp [State.store, ih]

@[simp] theorem State.store_cfg (s : State) (addr : Word) (n : Nat) (v : Word) :
    (s.store addr n v).cfg = s.cfg := by
  induction n with
  | zero => rfl
  | succ k ih => simp [State.store, ih]

@[simp] theorem State.copyIn_regs (bs : List Byte) (s : State) (start : Nat) :
    (s.copyIn start bs).regs = s.regs := by
  induction bs generalizing s start with
  | nil => rfl
  | cons b bs ih => simp [State.copyIn, ih]

@[simp] theorem State.copyIn_pc (bs : List Byte) (s : State) (start : Nat) :
    (s.copyIn start bs).pc = s.pc := by
  induction bs generalizing s start with
  | nil => rfl
  | cons b bs ih => simp [State.copyIn, ih]

@[simp] theorem State.copyIn_signal (bs : List Byte) (s : State) (start : Nat) :
    (s.copyIn start bs).signal = s.signal := by
  induction bs generalizing s start with
  | nil => rfl
  | cons b bs ih => simp [State.copyIn, ih]

@[simp] theorem State.copyIn_cfg (bs : List Byte) (s : State) (start : Nat) :
    (s.copyIn start bs).cfg = s.cfg := by
  induction bs generalizing s start with
  | nil => rfl
  | cons b bs ih => simp [State.copyIn, ih]

/-! The derived views of an updated state. -/

theorem State.readReg_congr {s t : State} (h : t.regs = s.regs) (r : Reg) : t.readReg r = s.readReg r := by
  simp [State.readReg, h]

theorem State.readByte_congr {s t : State} (hm : t.mem = s.mem) (hc : t.cfg = s.cfg) (a : Nat) :
    t.readByte a = s.readByte a := by
  unfold State.readByte State.capacity
  rw [hm, hc]

theorem State.byteAddr_congr {s t : State} (h : t.cfg = s.cfg) (addr : Word) (i : Nat) :
    t.byteAddr addr i = s.byteAddr addr i := by
  simp [State.byteAddr, h]

theorem State.capacity_congr {s t : State} (h : t.cfg = s.cfg) : t.capacity = s.capacity := by
  simp [State.capacity, h]

@[simp] theorem State.setPc_readReg (s : State) (t : Word) (r : Reg) : (s.setPc t).readReg r = s.readReg r :=
  State.readReg_congr rfl r

@[simp] theorem State.setSignal_readReg (s : State) (g : Signal) (r : Reg) : (s.setSignal g).readReg r = s.readReg r :=
  State.readReg_congr rfl r

@[simp] theorem State.advance_readReg (s : State) (r : Reg) : (s.advance).readReg r = s.readReg r :=
  State.readReg_congr rfl r

@[simp] theorem State.raiseHalted_readReg (s : State) (r : Reg) : (s.raiseHalted).readReg r = s.readReg r :=
  State.readReg_congr rfl r

@[simp] theorem State.raiseDecodeFault_readReg (s : State) (op : BitVec 7) (r : Reg) : (s.raiseDecodeFault op).readReg r = s.readReg r :=
  State.readReg_congr rfl r

@[simp] theorem State.setPc_readByte (s : State) (t : Word) (a : Nat) : (s.setPc t).readByte a = s.readByte a :=
  State.readByte_congr rfl rfl a

@[simp] theorem State.setPc_byteAddr (s : State) (t : Word) (addr : Word) (i : Nat) :
    (s.setPc t).byteAddr addr i = s.byteAddr addr i :=
  State.byteAddr_congr rfl addr i

@[simp] theorem State.setPc_capacity (s : State) (t : Word) : (s.setPc t).capacity = s.capacity := rfl

@[simp] theorem State.setSignal_readByte (s : State) (g : Signal) (a : Nat) : (s.setSignal g).readByte a = s.readByte a :=
  State.readByte_congr rfl rfl a

@[simp] theorem State.setSignal_byteAddr (s : State) (g : Signal) (addr : Word) (i : Nat) :
    (s.setSignal g).byteAddr addr i = s.byteAddr addr i :=
  State.byteAddr_congr rfl addr i

@[simp] theorem State.setSignal_capacity (s : State) (g : Signal) : (s.setSignal g).capacity = s.capacity := rfl

@[simp] theorem State.advance_readByte (s : State) (a : Nat) : (s.advance).readByte a = s.readByte a :=
  State.readByte_congr rfl rfl a

@[simp] theorem State.advance_byteAddr (s : State) (addr : Word) (i : Nat) :
    (s.advance).byteAddr addr i = s.byteAddr addr i :=
  State.byteAddr_congr rfl addr i

@[simp] theorem State.advance_capacity (s : State) : (s.advance).capacity = s.capacity := rfl

@[simp] theorem State.raiseHalted_readByte (s : State) (a : Nat) : (s.raiseHalted).readByte a = s.readByte a :=
  State.readByte_congr rfl rfl a

@[simp] theorem State.raiseHalted_byteAddr (s : State) (addr : Word) (i : Nat) :
    (s.raiseHalted).byteAddr addr i = s.byteAddr addr i :=
  State.byteAddr_congr rfl addr i

@[simp] theorem State.raiseHalted_capacity (s : State) : (s.raiseHalted).capacity = s.capacity := rfl

@[simp] theorem State.raiseDecodeFault_readByte (s : State) (op : BitVec 7) (a : Nat) : (s.raiseDecodeFault op).readByte a = s.readByte a :=
  State.readByte_congr rfl rfl a

@[simp] theorem State.raiseDecodeFault_byteAddr (s : State) (op : BitVec 7) (addr : Word) (i : Nat) :
    (s.raiseDecodeFault op).byteAddr addr i = s.byteAddr addr i :=
  State.byteAddr_congr rfl addr i

@[simp] theorem State.raiseDecodeFault_capacity (s : State) (op : BitVec 7) : (s.raiseDecodeFault op).capacity = s.capacity := rfl

@[simp] theorem State.clearX0_readByte (s : State) (a : Nat) : (s.clearX0).readByte a = s.readByte a :=
  State.readByte_congr rfl rfl a

@[simp] theorem State.clearX0_byteAddr (s : State) (addr : Word) (i : Nat) :
    (s.clearX0).byteAddr addr i = s.byteAddr addr i :=
  State.byteAddr_congr rfl addr i

@[simp] theorem State.clearX0_capacity (s : State) : (s.clearX0).capacity = s.capacity := rfl

@[simp] theorem State.engineReset_readByte (s : State) (a : Nat) : (s.engineReset).readByte a = s.readByte a :=
  State.readByte_congr rfl rfl a

@[simp] theorem State.engineReset_byteAddr (s : State) (addr : Word) (i : Nat) :
    (s.engineReset).byteAddr addr i = s.byteAddr addr i :=
  State.byteAddr_congr rfl addr i

@[simp] theorem State.engineReset_capacity (s : State) : (s.engineReset).capacity = s.capacity := rfl

@[simp] theorem State.writeReg_readByte (s : State) (r : Reg) (v : Word) (a : Nat) : (s.writeReg r v).readByte a = s.readByte a :=
  State.readByte_congr (by simp) (by simp) a

@[simp] theorem State.writeReg_byteAddr (s : State) (r : Reg) (v : Word) (addr : Word) (i : Nat) :
    (s.writeReg r v).byteAddr addr i = s.byteAddr addr i :=
  State.byteAddr_congr (by simp) addr i

@[simp] theorem State.writeReg_capacity (s : State) (r : Reg) (v : Word) : (s.writeReg r v).capacity = s.capacity :=
  State.capacity_congr (by simp)

@[simp] theorem State.writeByte_readReg (s : State) (b : Nat) (v : Byte) (r : Reg) : (s.writeByte b v).readReg r = s.readReg r :=
  State.readReg_congr (by simp) r

@[simp] theorem State.writeByte_byteAddr (s : State) (b : Nat) (v : Byte) (addr' : Word) (i : Nat) :
    (s.writeByte b v).byteAddr addr' i = s.byteAddr addr' i :=
  State.byteAddr_congr (by simp) addr' i

@[simp] theorem State.writeByte_capacity (s : State) (b : Nat) (v : Byte) : (s.writeByte b v).capacity = s.capacity :=
  State.capacity_congr (by simp)

@[simp] theorem State.store_readReg (s : State) (addr : Word) (n : Nat) (v : Word) (r : Reg) : (s.store addr n v).readReg r = s.readReg r :=
  State.readReg_congr (by simp) r

@[simp] theorem State.store_byteAddr (s : State) (addr : Word) (n : Nat) (v : Word) (addr' : Word) (i : Nat) :
    (s.store addr n v).byteAddr addr' i = s.byteAddr addr' i :=
  State.byteAddr_congr (by simp) addr' i

@[simp] theorem State.store_capacity (s : State) (addr : Word) (n : Nat) (v : Word) : (s.store addr n v).capacity = s.capacity :=
  State.capacity_congr (by simp)

@[simp] theorem State.copyIn_readReg (s : State) (start : Nat) (bs : List Byte) (r : Reg) : (s.copyIn start bs).readReg r = s.readReg r :=
  State.readReg_congr (by simp) r

@[simp] theorem State.copyIn_byteAddr (s : State) (start : Nat) (bs : List Byte) (addr' : Word) (i : Nat) :
    (s.copyIn start bs).byteAddr addr' i = s.byteAddr addr' i :=
  State.byteAddr_congr (by simp) addr' i

@[simp] theorem State.copyIn_capacity (s : State) (start : Nat) (bs : List Byte) : (s.copyIn start bs).capacity = s.capacity :=
  State.capacity_congr (by simp)

end Sys2Proof.Machine
end

