-- ==== Sys2Proof/Laws/Memory.lean ====
section
/-! SUPPORT. The memory as a list of cells: what a read gives after a write, for every list, and that every
operation keeps the canonical form. -/

namespace Sys2Proof.Machine

theorem Memory.read_erase (m : Memory) (a b : Nat) :
    Memory.read (Memory.erase m a) b = if b = a then Memory.unlisted else Memory.read m b := by
  induction m with
  | nil => simp [Memory.erase, Memory.read]
  | cons c m ih =>
    by_cases hc : c.1 = a
    · rw [Memory.erase, if_pos hc, ih, Memory.read]
      by_cases hb : b = a
      · rw [if_pos hb, if_pos hb]
      · rw [if_neg hb, if_neg hb, if_neg fun h => hb (h.symm.trans hc)]
    · rw [Memory.erase, if_neg hc, Memory.read, Memory.read, ih]
      by_cases hb : b = a
      · rw [if_neg fun h => hc (h.trans hb), if_pos hb, if_pos hb]
      · rw [if_neg hb, if_neg hb]

theorem Memory.read_insert (m : Memory) (a b : Nat) (v : Byte) (hn : ∀ c ∈ m, c.1 ≠ a) :
    Memory.read (Memory.insert m a v) b = if b = a then v else Memory.read m b := by
  induction m with
  | nil => simp only [Memory.insert, Memory.read, eq_comm]
  | cons c m ih =>
    have hca : c.1 ≠ a := hn c (by simp)
    have hm := fun d hd => hn d (List.mem_cons_of_mem c hd)
    rw [Memory.insert]
    by_cases hlt : a < c.1
    · rw [if_pos hlt, Memory.read]
      simp only [eq_comm]
    · rw [if_neg hlt, Memory.read, Memory.read, ih hm]
      by_cases hcb : c.1 = b
      · rw [if_pos hcb, if_pos hcb, if_neg fun e => hca (hcb.trans e)]
      · rw [if_neg hcb, if_neg hcb]

theorem Memory.mem_erase {m : Memory} {a : Nat} {c : Host.Cell} :
    c ∈ Memory.erase m a ↔ c ∈ m ∧ c.1 ≠ a := by
  induction m with
  | nil => simp [Memory.erase]
  | cons d m ih =>
    by_cases hd : d.1 = a
    · simp only [Memory.erase, hd, if_true, ih, List.mem_cons]
      constructor
      · rintro ⟨h1, h2⟩; exact ⟨.inr h1, h2⟩
      · rintro ⟨rfl | h1, h2⟩
        · exact absurd hd h2
        · exact ⟨h1, h2⟩
    · simp only [Memory.erase, hd, if_false, List.mem_cons, ih]
      constructor
      · rintro (rfl | ⟨h1, h2⟩)
        · exact ⟨.inl rfl, hd⟩
        · exact ⟨.inr h1, h2⟩
      · rintro ⟨rfl | h1, h2⟩
        · exact .inl rfl
        · exact .inr ⟨h1, h2⟩

theorem Memory.mem_insert {m : Memory} {a : Nat} {v : Byte} {c : Host.Cell} :
    c ∈ Memory.insert m a v ↔ c = (a, v) ∨ c ∈ m := by
  induction m with
  | nil => simp [Memory.insert]
  | cons d m ih =>
    by_cases h : a < d.1
    · simp [Memory.insert, h]
    · simp only [Memory.insert, h, if_false, List.mem_cons, ih]
      tauto

/-- A read after a write, for every list of cells and every pair of addresses. -/
theorem Memory.read_write (m : Memory) (a b : Nat) (v : Byte) :
    Memory.read (Memory.write m a v) b = if b = a then v else Memory.read m b := by
  unfold Memory.write
  split
  · rename_i hv
    rw [Memory.read_erase, hv]
  · rw [Memory.read_insert _ _ _ _ fun c hc => (Memory.mem_erase.mp hc).2]
    by_cases hb : b = a <;> simp [hb, Memory.read_erase]

theorem Memory.erase_sublist (m : Memory) (a : Nat) : (Memory.erase m a).Sublist m := by
  induction m with
  | nil => exact .slnil
  | cons c m ih =>
    by_cases h : c.1 = a
    · simpa [Memory.erase, h] using ih.cons c
    · simpa [Memory.erase, h] using ih.cons_cons c

theorem Memory.erase_wf {m : Memory} (h : Memory.wf m) (a : Nat) : Memory.wf (Memory.erase m a) :=
  ⟨h.1.sublist (Memory.erase_sublist m a), fun c hc => h.2 c (Memory.mem_erase.mp hc).1⟩

theorem Memory.insert_wf {m : Memory} (h : Memory.wf m) (a : Nat) (v : Byte) (hv : v ≠ Memory.unlisted)
    (hn : ∀ c ∈ m, c.1 ≠ a) : Memory.wf (Memory.insert m a v) := by
  refine ⟨?_, fun c hc => ?_⟩
  · induction m with
    | nil => simp [Memory.insert]
    | cons d m ih =>
      obtain ⟨hd, hm⟩ := List.pairwise_cons.mp h.1
      by_cases hlt : a < d.1
      · simp only [Memory.insert, hlt, if_true]
        refine List.pairwise_cons.mpr ⟨fun c hc => ?_, h.1⟩
        rcases List.mem_cons.mp hc with rfl | hc
        · exact hlt
        · exact hlt.trans (hd c hc)
      · simp only [Memory.insert, hlt, if_false]
        have hwm : Memory.wf m := ⟨hm, fun c hc => h.2 c (List.mem_cons_of_mem d hc)⟩
        have hlt' : d.1 < a := lt_of_le_of_ne (not_lt.mp hlt) (hn d (by simp))
        refine List.pairwise_cons.mpr
          ⟨fun c hc => ?_, ih hwm fun c hc => hn c (List.mem_cons_of_mem d hc)⟩
        rcases Memory.mem_insert.mp hc with rfl | hc
        · exact hlt'
        · exact hd c hc
  · rcases Memory.mem_insert.mp hc with rfl | hc
    · exact hv
    · exact h.2 c hc

/-- A write keeps the canonical form. -/
theorem Memory.write_wf {m : Memory} (h : Memory.wf m) (a : Nat) (v : Byte) :
    Memory.wf (Memory.write m a v) := by
  unfold Memory.write
  split
  · exact Memory.erase_wf h a
  · rename_i hv
    exact Memory.insert_wf (Memory.erase_wf h a) a v hv fun c hc => (Memory.mem_erase.mp hc).2

/-- A write lists no new address but its own. -/
theorem Memory.mem_write {m : Memory} {a : Nat} {v : Byte} {c : Host.Cell} (h : c ∈ Memory.write m a v) :
    c.1 = a ∨ c ∈ m := by
  unfold Memory.write at h
  split at h
  · exact .inr (Memory.mem_erase.mp h).1
  · rcases Memory.mem_insert.mp h with rfl | h
    · exact .inl rfl
    · exact .inr (Memory.mem_erase.mp h).1

/-- The memory right after reset is in the canonical form. -/
theorem Memory.reset_wf : Memory.wf State.reset.mem := ⟨List.Pairwise.nil, fun _ h => nomatch h⟩

end Sys2Proof.Machine
end

