-- ==== Sys2Proof/Laws/Ops.lean ====
section
/-! SUPPORT. What each shared operation does: one lemma per operation, cited instead of unfolding it. -/

namespace Sys2Proof.Machine

/-! ### Registers -/

@[simp] theorem State.readReg_zero (s : State) : s.readReg 0 = 0#32 := by simp [State.readReg]

theorem State.readReg_of_ne {s : State} {r : Reg} (h : r ≠ 0) : s.readReg r = s.regs[r] := by
  simp [State.readReg, h]

/-- A register read after a register write. -/
theorem State.readReg_writeReg (s : State) (rd r : Reg) (v : Word) :
    (s.writeReg rd v).readReg r = if r = rd ∧ r ≠ 0 then v else s.readReg r := by
  unfold State.writeReg State.readReg
  by_cases hr : r = 0
  · simp [hr]
  · by_cases hrd : rd = 0
    · have : ¬(r = rd ∧ r ≠ 0) := fun h => hr (h.1.trans hrd)
      simp [hr, hrd]
    · by_cases he : r = rd
      · subst he
        simp [hr]
      · have hv : rd.val ≠ r.val := fun h => he (Fin.ext h.symm)
        simp [hr, hrd, he, hv]

/-- A write to register 0 is discarded. -/
theorem State.writeReg_zero (s : State) (v : Word) : s.writeReg 0 v = s := by simp [State.writeReg]

/-- The x0 clear changes no readable register. -/
@[simp] theorem State.clearX0_readReg (s : State) (r : Reg) : s.clearX0.readReg r = s.readReg r := by
  unfold State.clearX0 State.readReg
  by_cases hr : r = 0
  · simp [hr]
  · have hv : (0 : Nat) ≠ r.val := fun h => hr (Fin.ext h.symm)
    simp [hr, hv]

/-- The slot of x0 after the clear. -/
theorem State.clearX0_slot (s : State) : s.clearX0.regs[0] = 0#32 := by simp

/-- A register write leaves the slot of x0. -/
theorem State.writeReg_slot (s : State) (r : Reg) (v : Word) : (s.writeReg r v).regs[0] = s.regs[0] := by
  unfold State.writeReg
  split
  · rfl
  · rename_i h
    have hv : r.val ≠ 0 := fun e => h (Fin.ext e)
    simp [hv]

/-! ### Memory -/

/-- Out of range, a read gives 0 (spec/20_memory.md R42). -/
theorem State.readByte_of_le {s : State} {a : Nat} (h : s.capacity ≤ a) : s.readByte a = 0x00#8 := by
  simp [State.readByte, Nat.not_lt.mpr h]

/-- A byte read after a byte write (R41 to R43). -/
theorem State.readByte_writeByte (s : State) (a b : Nat) (v : Byte) :
    (s.writeByte a v).readByte b = if b = a ∧ a < s.capacity then v else s.readByte b := by
  by_cases ha : a < s.capacity
  · have hw : s.writeByte a v = { s with mem := Memory.write s.mem a v } := by simp [State.writeByte, ha]
    have hr : (s.writeByte a v).readByte b =
        if b < s.capacity then Memory.read (Memory.write s.mem a v) b else 0x00#8 := by rw [hw]; rfl
    rw [hr, Memory.read_write]
    by_cases hb : b = a
    · simp [hb, ha]
    · simp [hb, State.readByte]
  · have hw : s.writeByte a v = s := by simp [State.writeByte, ha]
    simp [hw, ha]

/-- The byte addresses of one access are distinct (R47: `n <= 4 < 2^32`). -/
theorem byteAddrOf_inj (mode : AddrWrap) (addr : Word) {i j : Nat} (hi : i < 2 ^ 32) (hj : j < 2 ^ 32)
    (h : byteAddrOf mode addr i = byteAddrOf mode addr j) : i = j := by
  have := addr.isLt
  cases mode <;> simp only [byteAddrOf] at h <;> omega

/-- A byte outside an access is not changed by it (R47). -/
theorem State.readByte_store_of_ne (s : State) (addr : Word) (n : Nat) (v : Word) {a : Nat}
    (h : ∀ k, k < n → a ≠ s.byteAddr addr k) : (s.store addr n v).readByte a = s.readByte a := by
  induction n with
  | zero => rfl
  | succ k ih =>
    rw [State.store, State.readByte_writeByte, ih fun j hj => h j (by omega)]
    simp [h k (by omega)]

/-- An in-range byte of an access takes its byte of the value (R47). -/
theorem State.readByte_store (s : State) (addr : Word) {n k : Nat} (v : Word) (hn : n ≤ 4) (hk : k < n)
    (hc : s.byteAddr addr k < s.capacity) :
    (s.store addr n v).readByte (s.byteAddr addr k) = v.extractLsb' (8 * k) 8 := by
  induction n with
  | zero => omega
  | succ m ih =>
    rw [State.store, State.readByte_writeByte]
    by_cases hm : k = m
    · subst hm; simp [hc]
    · have hne : s.byteAddr addr k ≠ s.byteAddr addr m := fun e =>
        hm (byteAddrOf_inj _ addr (by omega) (by omega) e)
      simp [hne, ih (by omega) (by omega)]

/-! ### What a memory operation keeps -/

/-- Canonical, and nothing listed at or above MEM_CAPACITY. -/
def State.MemOk (s : State) : Prop := Memory.wf s.mem ∧ ∀ c ∈ s.mem, c.1 < s.capacity

theorem State.memOk_congr {s t : State} (hm : t.mem = s.mem) (hc : t.cfg = s.cfg) (h : s.MemOk) :
    t.MemOk := by
  unfold State.MemOk at *
  rwa [hm, State.capacity_congr hc]

theorem State.writeByte_memOk {s : State} (h : s.MemOk) (a : Nat) (v : Byte) : (s.writeByte a v).MemOk := by
  unfold State.writeByte
  split
  · rename_i ha
    refine ⟨Memory.write_wf h.1 a v, fun c hc => ?_⟩
    rcases Memory.mem_write hc with rfl | hc
    · exact ha
    · exact h.2 c hc
  · exact h

theorem State.store_memOk {s : State} (h : s.MemOk) (addr : Word) (n : Nat) (v : Word) :
    (s.store addr n v).MemOk := by
  induction n with
  | zero => exact h
  | succ k ih => exact State.writeByte_memOk ih _ _

theorem State.copyIn_memOk (bs : List Byte) {s : State} (h : s.MemOk) (start : Nat) :
    (s.copyIn start bs).MemOk := by
  induction bs generalizing s start with
  | nil => exact h
  | cons b bs ih => exact ih (State.writeByte_memOk h _ _) _

/-! ### Words read, as sums of bytes -/

theorem toNat_append_byte {n : Nat} (x : BitVec n) (b : Byte) :
    (x ++ b).toNat = 256 * x.toNat + b.toNat := by
  rw [BitVec.toNat_append, ← Nat.shiftLeft_add_eq_or_of_lt b.isLt, Nat.shiftLeft_eq, Nat.mul_comm]

/-- `MemRead(addr, 2)` as an unsigned number: little-endian (R46, R51). -/
theorem State.loadHalf_toNat (s : State) (addr : Word) :
    (s.loadHalf addr).toNat = (s.byteAt addr 0).toNat + 256 * (s.byteAt addr 1).toNat := by
  have h : (s.loadHalf addr).toNat = 256 * (s.byteAt addr 1).toNat + (s.byteAt addr 0).toNat :=
    toNat_append_byte _ _
  omega

/-- `MemRead(addr, 4)` as an unsigned number: little-endian (R44, R51). -/
theorem State.loadWord_toNat (s : State) (addr : Word) :
    (s.loadWord addr).toNat = (s.byteAt addr 0).toNat + 256 * (s.byteAt addr 1).toNat +
      65536 * (s.byteAt addr 2).toNat + 16777216 * (s.byteAt addr 3).toNat := by
  have h0 : (s.loadWord addr).toNat =
      256 * (s.byteAt addr 3 ++ s.byteAt addr 2 ++ s.byteAt addr 1).toNat + (s.byteAt addr 0).toNat :=
    toNat_append_byte _ _
  have h1 := toNat_append_byte (s.byteAt addr 3 ++ s.byteAt addr 2) (s.byteAt addr 1)
  have h2 := toNat_append_byte (s.byteAt addr 3) (s.byteAt addr 2)
  omega

/-- The bytes of a word, summed, are the word (R51). -/
theorem toNat_eq_bytes (v : Word) :
    v.toNat = (v.extractLsb' 0 8).toNat + 256 * (v.extractLsb' 8 8).toNat +
      65536 * (v.extractLsb' 16 8).toNat + 16777216 * (v.extractLsb' 24 8).toNat := by
  have := v.isLt
  simp only [BitVec.extractLsb'_toNat, Nat.shiftRight_eq_div_pow]
  omega

/-- Reads agree where the bytes agree. -/
theorem State.loadWord_congr {s t : State} {a b : Word} (h : ∀ k, k < 4 → s.byteAt a k = t.byteAt b k) :
    s.loadWord a = t.loadWord b := by
  unfold State.loadWord
  rw [h 0 (by omega), h 1 (by omega), h 2 (by omega), h 3 (by omega)]

theorem State.loadHalf_congr {s t : State} {a b : Word} (h : ∀ k, k < 2 → s.byteAt a k = t.byteAt b k) :
    s.loadHalf a = t.loadHalf b := by
  unfold State.loadHalf
  rw [h 0 (by omega), h 1 (by omega)]

/-! ### Completion -/

theorem State.finish_eq_next {r : Result} {t : State} :
    State.finish r = .next t ↔ ∃ u, r = .next u ∧ t = u.clearX0 := by
  cases r <;> simp [State.finish, eq_comm]

/-! ### Operands as integers -/

theorem immI_add (x : Word) (imm : BitVec 12) : x + immI imm = BitVec.ofInt 32 (x.toNat + imm.toInt) := by
  rw [BitVec.ofInt_add]; simp [immI, BitVec.signExtend]

theorem immS_add (x : Word) (imm : BitVec 12) : x + immS imm = BitVec.ofInt 32 (x.toNat + imm.toInt) :=
  immI_add x imm

theorem immB_add (x : Word) (off : BitVec 13) : x + immB off = BitVec.ofInt 32 (x.toNat + off.toInt) := by
  rw [BitVec.ofInt_add]; simp [immB, BitVec.signExtend]

theorem immJ_add (x : Word) (off : BitVec 21) : x + immJ off = BitVec.ofInt 32 (x.toNat + off.toInt) := by
  rw [BitVec.ofInt_add]; simp [immJ, BitVec.signExtend]

theorem immU_toNat (imm20 : BitVec 20) : (immU imm20).toNat = 4096 * imm20.toNat := by
  have h : (immU imm20).toNat = imm20.toNat <<< 12 ||| (0#12).toNat := BitVec.toNat_append imm20 0#12
  simpa [Nat.shiftLeft_eq, Nat.mul_comm] using h

theorem shamt_eq_mod (v : Word) : shamt v = v.toNat % 32 := by
  simp [shamt, BitVec.extractLsb'_toNat]

end Sys2Proof.Machine
end

