-- ==== Sys2Proof/Laws/Host.lean ====
section
/-! SUPPORT. What loading an image does, what each permitted action of the host gives, how a run unfolds, and
which words are flagged. -/

namespace Sys2Proof.Machine

/-- An image that fits (spec/20_memory.md R50). -/
theorem State.loadImage_of_le {s : State} {image : List Byte} (h : image.length ≤ s.capacity) :
    s.loadImage image = (.success, s.copyIn 0 image) := by simp [State.loadImage, h]

/-- An image that does not fit (R50). -/
theorem State.loadImage_of_lt {s : State} {image : List Byte} (h : s.capacity < image.length) :
    s.loadImage image = (.failure, s) := by simp [State.loadImage, Nat.not_le.mpr h]

@[simp] theorem hostAct_loadFailed (a : HostAction) (s : State) : hostAct .loadFailed a s = none := rfl

@[simp] theorem hostAct_memoryReady_step (s : State) : hostAct .memoryReady .step s = none := rfl

@[simp] theorem hostAct_stepped_loadImage (image : List Byte) (s : State) :
    hostAct .stepped (.loadImage image) s = none := rfl

/-- Loading, in a phase that permits it. -/
theorem hostAct_loadImage {p : HostPhase} (hp : p = .memoryReady ∨ p = .engineReady) (image : List Byte)
    (s : State) : hostAct p (.loadImage image) s =
      if image.length ≤ s.capacity then some (p, s.copyIn 0 image) else some (.loadFailed, s) := by
  rcases hp with rfl | rfl <;> by_cases h : image.length ≤ s.capacity <;> simp [hostAct, State.loadImage, h]

/-- Resetting, in a phase that permits it. -/
theorem hostAct_reset {p : HostPhase} (hp : p ≠ .loadFailed) (s : State) :
    hostAct p .reset s = some (.engineReady, s.engineReset) := by
  cases p <;> first | rfl | exact absurd rfl hp

/-- Stepping, in a phase that permits it. -/
theorem hostAct_step {p : HostPhase} (hp : p = .engineReady ∨ p = .stepped) {s t : State}
    (h : step s = .next t) : hostAct p .step s = some (.stepped, t) := by
  rcases hp with rfl | rfl <;> simp [hostAct, h]

/-- Writing a byte of memory, in a phase that permits it. -/
theorem hostAct_writeMemory {p : HostPhase} (hp : p ≠ .loadFailed) (a : Nat) (v : Byte) (s : State) :
    hostAct p (.writeMemory a v) s = some (p, s.writeByte a v) := by
  cases p <;> first | rfl | exact absurd rfl hp

/-- A run with budget left that is not at a zero word makes one step, which ends it or not. -/
theorem Driver.run_succ {policy : DecodeFaultPolicy} {n : Nat} {s t : State}
    (hz : Driver.atZeroWord s = false) (h : step s = .next t) :
    Driver.run policy (n + 1) s =
      match t.signal, policy with
      | .halted, _ => .next (.finished, t)
      | .decodeFault op, .abort => .next (.faulted op, t)
      | .decodeFault _, .continues => Driver.run policy n t
      | .continues, _ => Driver.run policy n t := by
  cases hs : t.signal <;> cases policy <;> simp [Driver.run, hz, h, hs]

/-- A run with budget left at a zero word stops there. -/
theorem Driver.run_zeroWord {policy : DecodeFaultPolicy} {n : Nat} {s : State}
    (hz : Driver.atZeroWord s = true) : Driver.run policy (n + 1) s = .next (.stoppedAtZeroWord, s) := by
  simp [Driver.run, hz]

/-- A step and then `k` more. -/
theorem core_run_succ {k : Nat} {s t : State} (h : step s = .next t) :
    Host.Core.run Sys2Proof.core (k + 1) s = Host.Core.run Sys2Proof.core k t := by
  have hc : Sys2Proof.core.step s = .next t := h
  simp only [Host.Core.run]
  rw [hc]

/-- Which words are flagged (spec/48_unimplemented_and_unknown.md R190). -/
theorem flaggedInstr_eq_some {w : Word} {i : Instr} :
    flaggedInstr w = some i ↔ decode w = .instr i ∧ unimplementedOpcode i ≠ none := by
  unfold flaggedInstr
  cases decode w with
  | unknownOpcode op => simp
  | instr j =>
    by_cases hj : (unimplementedOpcode j).isSome = true
    · simp only [hj, if_true, Option.some.injEq, Decoded.instr.injEq]
      exact ⟨fun h => ⟨h, h ▸ Option.isSome_iff_ne_none.mp hj⟩, fun h => h.1⟩
    · simp only [hj, Decoded.instr.injEq]
      exact ⟨nofun, fun h => absurd (Option.isSome_iff_ne_none.mpr (h.1 ▸ h.2)) hj⟩

end Sys2Proof.Machine
end

