-- ==== Sys2Proof/Laws/PerInstr.lean ====
section
/-! SUPPORT. Statements about every instruction as a term, one lemma per constructor. -/

namespace Sys2Proof.Laws

/-- The word of an instruction has one of the nine known opcodes (spec/30_encoding.md R81), and it is the
opcode of a recognised-unimplemented instruction where that is what the instruction is. -/
def EncodedOpcode.Statement (i : Instr) : Prop :=
  Decode.opcode (encode i) ∈ Machine.knownOpcodes ∧
    ∀ op, Machine.unimplementedOpcode i = some op → Decode.opcode (encode i) = op

theorem EncodedOpcode.add (rd rs1 rs2 : Reg) : EncodedOpcode.Statement (.add rd rs1 rs2) := by
  simp [EncodedOpcode.Statement, encode, Machine.knownOpcodes, Machine.unimplementedOpcode]

theorem EncodedOpcode.sub (rd rs1 rs2 : Reg) : EncodedOpcode.Statement (.sub rd rs1 rs2) := by
  simp [EncodedOpcode.Statement, encode, Machine.knownOpcodes, Machine.unimplementedOpcode]

theorem EncodedOpcode.sll (rd rs1 rs2 : Reg) : EncodedOpcode.Statement (.sll rd rs1 rs2) := by
  simp [EncodedOpcode.Statement, encode, Machine.knownOpcodes, Machine.unimplementedOpcode]

theorem EncodedOpcode.xor (rd rs1 rs2 : Reg) : EncodedOpcode.Statement (.xor rd rs1 rs2) := by
  simp [EncodedOpcode.Statement, encode, Machine.knownOpcodes, Machine.unimplementedOpcode]

theorem EncodedOpcode.srl (rd rs1 rs2 : Reg) : EncodedOpcode.Statement (.srl rd rs1 rs2) := by
  simp [EncodedOpcode.Statement, encode, Machine.knownOpcodes, Machine.unimplementedOpcode]

theorem EncodedOpcode.sra (rd rs1 rs2 : Reg) : EncodedOpcode.Statement (.sra rd rs1 rs2) := by
  simp [EncodedOpcode.Statement, encode, Machine.knownOpcodes, Machine.unimplementedOpcode]

theorem EncodedOpcode.or (rd rs1 rs2 : Reg) : EncodedOpcode.Statement (.or rd rs1 rs2) := by
  simp [EncodedOpcode.Statement, encode, Machine.knownOpcodes, Machine.unimplementedOpcode]

theorem EncodedOpcode.and (rd rs1 rs2 : Reg) : EncodedOpcode.Statement (.and rd rs1 rs2) := by
  simp [EncodedOpcode.Statement, encode, Machine.knownOpcodes, Machine.unimplementedOpcode]

theorem EncodedOpcode.addi (rd rs1 : Reg) (imm : BitVec 12) : EncodedOpcode.Statement (.addi rd rs1 imm) := by
  simp [EncodedOpcode.Statement, encode, Machine.knownOpcodes, Machine.unimplementedOpcode]

theorem EncodedOpcode.xori (rd rs1 : Reg) (imm : BitVec 12) : EncodedOpcode.Statement (.xori rd rs1 imm) := by
  simp [EncodedOpcode.Statement, encode, Machine.knownOpcodes, Machine.unimplementedOpcode]

theorem EncodedOpcode.ori (rd rs1 : Reg) (imm : BitVec 12) : EncodedOpcode.Statement (.ori rd rs1 imm) := by
  simp [EncodedOpcode.Statement, encode, Machine.knownOpcodes, Machine.unimplementedOpcode]

theorem EncodedOpcode.andi (rd rs1 : Reg) (imm : BitVec 12) : EncodedOpcode.Statement (.andi rd rs1 imm) := by
  simp [EncodedOpcode.Statement, encode, Machine.knownOpcodes, Machine.unimplementedOpcode]

theorem EncodedOpcode.lb (rd rs1 : Reg) (imm : BitVec 12) : EncodedOpcode.Statement (.lb rd rs1 imm) := by
  simp [EncodedOpcode.Statement, encode, Machine.knownOpcodes, Machine.unimplementedOpcode]

theorem EncodedOpcode.lh (rd rs1 : Reg) (imm : BitVec 12) : EncodedOpcode.Statement (.lh rd rs1 imm) := by
  simp [EncodedOpcode.Statement, encode, Machine.knownOpcodes, Machine.unimplementedOpcode]

theorem EncodedOpcode.lw (rd rs1 : Reg) (imm : BitVec 12) : EncodedOpcode.Statement (.lw rd rs1 imm) := by
  simp [EncodedOpcode.Statement, encode, Machine.knownOpcodes, Machine.unimplementedOpcode]

theorem EncodedOpcode.sb (rs1 rs2 : Reg) (imm : BitVec 12) : EncodedOpcode.Statement (.sb rs1 rs2 imm) := by
  simp [EncodedOpcode.Statement, encode, Machine.knownOpcodes, Machine.unimplementedOpcode]

theorem EncodedOpcode.sh (rs1 rs2 : Reg) (imm : BitVec 12) : EncodedOpcode.Statement (.sh rs1 rs2 imm) := by
  simp [EncodedOpcode.Statement, encode, Machine.knownOpcodes, Machine.unimplementedOpcode]

theorem EncodedOpcode.sw (rs1 rs2 : Reg) (imm : BitVec 12) : EncodedOpcode.Statement (.sw rs1 rs2 imm) := by
  simp [EncodedOpcode.Statement, encode, Machine.knownOpcodes, Machine.unimplementedOpcode]

theorem EncodedOpcode.beq (rs1 rs2 : Reg) (offset : BitVec 13) : EncodedOpcode.Statement (.beq rs1 rs2 offset) := by
  simp [EncodedOpcode.Statement, encode, Machine.knownOpcodes, Machine.unimplementedOpcode]

theorem EncodedOpcode.bne (rs1 rs2 : Reg) (offset : BitVec 13) : EncodedOpcode.Statement (.bne rs1 rs2 offset) := by
  simp [EncodedOpcode.Statement, encode, Machine.knownOpcodes, Machine.unimplementedOpcode]

theorem EncodedOpcode.blt (rs1 rs2 : Reg) (offset : BitVec 13) : EncodedOpcode.Statement (.blt rs1 rs2 offset) := by
  simp [EncodedOpcode.Statement, encode, Machine.knownOpcodes, Machine.unimplementedOpcode]

theorem EncodedOpcode.bge (rs1 rs2 : Reg) (offset : BitVec 13) : EncodedOpcode.Statement (.bge rs1 rs2 offset) := by
  simp [EncodedOpcode.Statement, encode, Machine.knownOpcodes, Machine.unimplementedOpcode]

theorem EncodedOpcode.bltu (rs1 rs2 : Reg) (offset : BitVec 13) : EncodedOpcode.Statement (.bltu rs1 rs2 offset) := by
  simp [EncodedOpcode.Statement, encode, Machine.knownOpcodes, Machine.unimplementedOpcode]

theorem EncodedOpcode.bgeu (rs1 rs2 : Reg) (offset : BitVec 13) : EncodedOpcode.Statement (.bgeu rs1 rs2 offset) := by
  simp [EncodedOpcode.Statement, encode, Machine.knownOpcodes, Machine.unimplementedOpcode]

theorem EncodedOpcode.lui (rd : Reg) (imm20 : BitVec 20) : EncodedOpcode.Statement (.lui rd imm20) := by
  simp [EncodedOpcode.Statement, encode, Machine.knownOpcodes, Machine.unimplementedOpcode]

theorem EncodedOpcode.auipc (rd : Reg) (imm20 : BitVec 20) : EncodedOpcode.Statement (.auipc rd imm20) := by
  simp [EncodedOpcode.Statement, encode, Machine.knownOpcodes, Machine.unimplementedOpcode]

theorem EncodedOpcode.jal (rd : Reg) (offset : BitVec 21) : EncodedOpcode.Statement (.jal rd offset) := by
  simp [EncodedOpcode.Statement, encode, Machine.knownOpcodes, Machine.unimplementedOpcode]

theorem EncodedOpcode.jalr (rd rs1 : Reg) (imm : BitVec 12) : EncodedOpcode.Statement (.jalr rd rs1 imm) := by
  simp [EncodedOpcode.Statement, encode, Machine.knownOpcodes, Machine.unimplementedOpcode]

theorem EncodedOpcode.unimplemented33 (bits : BitVec 25) : EncodedOpcode.Statement (.unimplemented33 bits) := by
  simp [EncodedOpcode.Statement, encode, Machine.knownOpcodes, Machine.unimplementedOpcode]

theorem EncodedOpcode.unimplemented13 (bits : BitVec 25) : EncodedOpcode.Statement (.unimplemented13 bits) := by
  simp [EncodedOpcode.Statement, encode, Machine.knownOpcodes, Machine.unimplementedOpcode]

theorem EncodedOpcode.unimplemented03 (bits : BitVec 25) : EncodedOpcode.Statement (.unimplemented03 bits) := by
  simp [EncodedOpcode.Statement, encode, Machine.knownOpcodes, Machine.unimplementedOpcode]

theorem EncodedOpcode.unimplemented23 (bits : BitVec 25) : EncodedOpcode.Statement (.unimplemented23 bits) := by
  simp [EncodedOpcode.Statement, encode, Machine.knownOpcodes, Machine.unimplementedOpcode]

theorem EncodedOpcode.unimplemented63 (bits : BitVec 25) : EncodedOpcode.Statement (.unimplemented63 bits) := by
  simp [EncodedOpcode.Statement, encode, Machine.knownOpcodes, Machine.unimplementedOpcode]

end Sys2Proof.Laws
end

