-- ==== Sys2Proof/Laws/Results.lean ====
section
/-! SUPPORT. What each way of ending an instruction gives, in the terms of Safety.lean: a register result, a
store, a branch, a jump, a recognised-unimplemented word; and the three cases of a step. -/

namespace Sys2Proof.Machine

/-- Writing one register and retiring. -/
theorem State.retire_writeReg (s : State) (rd : Reg) (v : Word) :
    ∃ t, (s.writeReg rd v).retire = .next t ∧ RegResult s t rd v :=
  ⟨_, rfl, fun r => by simp [State.readReg_writeReg], fun a => by simp, by simp, by simp, rfl⟩

/-- Storing `n` bytes, `n` at most 4, and retiring. -/
theorem State.retire_store (s : State) (addr : Word) {n : Nat} (hn : n ≤ 4) (v : Word) :
    ∃ t, (s.store addr n v).retire = .next t ∧ StoreResult s t addr n v := by
  refine ⟨_, rfl, fun k hk hc => ?_, fun a ha => ?_, fun a ha => ?_, fun r => by simp, by simp, by simp, rfl⟩
  · simpa using State.readByte_store s addr v hn hk hc
  · simpa using State.readByte_store_of_ne s addr n v ha
  · simpa using State.readByte_of_le (s := s.store addr n v) (by simpa using ha)

/-- Branching and retiring. -/
theorem State.branch_result (s : State) (cond : Word → Word → Bool) (rs1 rs2 : Reg) (offset : BitVec 13) :
    ∃ t, s.branch cond rs1 rs2 offset = .next t ∧
      BranchResult s t (cond (s.readReg rs1) (s.readReg rs2) = true) (s.branchTarget offset) := by
  unfold State.branch
  split
  · rename_i h
    exact ⟨_, rfl, fun _ => by simp, fun hn => absurd h hn, fun r => by simp, fun a => by simp, by simp, rfl⟩
  · rename_i h
    exact ⟨_, rfl, fun hc => absurd hc h, fun _ => by simp, fun r => by simp, fun a => by simp, by simp, rfl⟩

/-- Linking, jumping and retiring. -/
theorem State.retire_jump (s : State) (rd : Reg) (target : Word) :
    ∃ t, ((s.writeReg rd s.pc).setPc target).retire = .next t ∧ JumpResult s t rd target :=
  ⟨_, rfl, fun r => by simp [State.readReg_writeReg], by simp, fun a => by simp, by simp, rfl⟩

/-- A recognised-unimplemented word changes nothing but the signal. -/
theorem State.retireUnimplemented_eq (s : State) (op : BitVec 7) :
    s.retireUnimplemented op = .next (s.setSignal (match s.cfg.unimplSignal with
      | .continues => .continues
      | .decodeFault => .decodeFault op)) := by
  unfold State.retireUnimplemented State.retire State.raiseDecodeFault
  cases s.cfg.unimplSignal <;> rfl

/-- Everything a step can do (spec/40_step_cycle.md R100). -/
theorem step_cases {s t : State} (h : step s = .next t) :
    (s.atHaltVector = true ∧ t = s.raiseHalted) ∨
    (s.atHaltVector = false ∧ ∃ i u, decode s.fetch = .instr i ∧ exec i s.advance = .next u ∧ t = u.clearX0) ∨
    (s.atHaltVector = false ∧ ∃ op, decode s.fetch = .unknownOpcode op ∧
      t = (s.advance.raiseDecodeFault op).clearX0) := by
  unfold step at h
  split at h
  · rename_i hh
    exact .inl ⟨hh, by simpa using h.symm⟩
  · rename_i hh
    have hf : s.atHaltVector = false := by simpa using hh
    split at h
    · rename_i i hd
      obtain ⟨u, hu, rfl⟩ := State.finish_eq_next.mp h
      exact .inr (.inl ⟨hf, i, u, hd, hu, rfl⟩)
    · rename_i op hd
      exact .inr (.inr ⟨hf, op, hd, by simpa [State.finish] using h.symm⟩)

end Sys2Proof.Machine
end

