-- ==== Sys2Proof/Tests/Slice0.lean ====
section
/-! SUPPORT. Tests on fixed values: the decoder and the encoder against words of spec/95_test_vectors.md, single
steps against its vectors (named in each comment), ill-formed terms that WellFormed refuses, and for every
obligation that has hypotheses a state and operands that meet them. -/

namespace Sys2Proof.Tests

open Sys2Proof.Machine

/-! ### Helpers -/

/-- The vectors' machine (spec/95 section 1): registers 0 but those listed, the word at `ia`, memory 0 but the
cells listed, MEM_CAPACITY = 1 MiB. -/
def machine (ia w : Word) (regs : List (Reg × Word)) (cells : List (Nat × Byte)) : State :=
  let blank : State := { State.reset with regs := Vector.replicate 32 0#32, pc := ia }
  let loaded := blank.withFetchWord 32 w.toNat
  let withRegs := regs.foldl (fun s r => s.writeReg r.1 r.2) loaded
  cells.foldl (fun s c => s.writeByte c.1 c.2) withRegs

/-- The same machine with ADDR_WRAP = zero. -/
def noWrap (s : State) : State := { s with cfg := { s.cfg with addrWrap := .zero } }

/-- The same machine with UNIMPL_SIGNAL = DecodeFault. -/
def reporting (s : State) : State := { s with cfg := { s.cfg with unimplSignal := .decodeFault } }

/-- A memory of 16 bytes (spec/95 section 10.3), with bytes from `start`. -/
def tiny (start : Nat) (bytes : List Byte) : State :=
  (State.powerOn (Config.ofCapacity ⟨16, by decide⟩)).copyIn start bytes

/-- What one step answers. -/
def after (s : State) : Option State :=
  match step s with
  | .next t => some t
  | _ => none

/-- One register, the pc and the signal after one step. -/
def regPcSignal (s : State) (r : Reg) : Option (Word × Word × Signal) :=
  (after s).map fun t => (t.readReg r, t.pc, t.signal)

/-- Bytes from an address, the pc and the signal after one step. -/
def bytesPcSignal (s : State) (a n : Nat) : Option (List Byte × Word × Signal) :=
  (after s).map fun t => ((List.range n).map fun k => t.readByte (a + k), t.pc, t.signal)

/-- The pc and the signal after one step. -/
def pcSignal (s : State) : Option (Word × Signal) := (after s).map fun t => (t.pc, t.signal)

/-! ### Every constructor's decoding, from words the spec writes out (spec/95 sections 11 and 12) -/

/-- `ADD x3, x1, x2`; the encoder writes the same word. -/
theorem test_word_add : decode 0x002081B3#32 = .instr (.add 3 1 2) ∧ encode (.add 3 1 2) = 0x002081B3#32 := by
  decide

/-- `SUB x3, x1, x2`; the encoder writes the same word. -/
theorem test_word_sub : decode 0x402081B3#32 = .instr (.sub 3 1 2) ∧ encode (.sub 3 1 2) = 0x402081B3#32 := by
  decide

/-- `SLL x3, x1, x2`; the encoder writes the same word. -/
theorem test_word_sll : decode 0x002091B3#32 = .instr (.sll 3 1 2) ∧ encode (.sll 3 1 2) = 0x002091B3#32 := by
  decide

/-- `XOR x3, x1, x2`; the encoder writes the same word. -/
theorem test_word_xor : decode 0x0020C1B3#32 = .instr (.xor 3 1 2) ∧ encode (.xor 3 1 2) = 0x0020C1B3#32 := by
  decide

/-- `SRL x3, x1, x2`; the encoder writes the same word. -/
theorem test_word_srl : decode 0x0020D1B3#32 = .instr (.srl 3 1 2) ∧ encode (.srl 3 1 2) = 0x0020D1B3#32 := by
  decide

/-- `SRA x3, x1, x2`; the encoder writes the same word. -/
theorem test_word_sra : decode 0x4020D1B3#32 = .instr (.sra 3 1 2) ∧ encode (.sra 3 1 2) = 0x4020D1B3#32 := by
  decide

/-- `OR x3, x1, x2`; the encoder writes the same word. -/
theorem test_word_or : decode 0x0020E1B3#32 = .instr (.or 3 1 2) ∧ encode (.or 3 1 2) = 0x0020E1B3#32 := by
  decide

/-- `AND x3, x1, x2`; the encoder writes the same word. -/
theorem test_word_and : decode 0x0020F1B3#32 = .instr (.and 3 1 2) ∧ encode (.and 3 1 2) = 0x0020F1B3#32 := by
  decide

/-- `ADDI x3, x1, -2048`; the encoder writes the same word. -/
theorem test_word_addi : decode 0x80008193#32 = .instr (.addi 3 1 0x800#12) ∧ encode (.addi 3 1 0x800#12) = 0x80008193#32 := by
  decide

/-- `XORI x3, x1, 1365`; the encoder writes the same word. -/
theorem test_word_xori : decode 0x5550C193#32 = .instr (.xori 3 1 0x555#12) ∧ encode (.xori 3 1 0x555#12) = 0x5550C193#32 := by
  decide

/-- `ORI x3, x1, 1792`; the encoder writes the same word. -/
theorem test_word_ori : decode 0x7000E193#32 = .instr (.ori 3 1 0x700#12) ∧ encode (.ori 3 1 0x700#12) = 0x7000E193#32 := by
  decide

/-- `ANDI x3, x1, 255`; the encoder writes the same word. -/
theorem test_word_andi : decode 0x0FF0F193#32 = .instr (.andi 3 1 0x0FF#12) ∧ encode (.andi 3 1 0x0FF#12) = 0x0FF0F193#32 := by
  decide

/-- `LB x3, -4(x1)`; the encoder writes the same word. -/
theorem test_word_lb : decode 0xFFC08183#32 = .instr (.lb 3 1 0xFFC#12) ∧ encode (.lb 3 1 0xFFC#12) = 0xFFC08183#32 := by
  decide

/-- `LH x3, 8(x1)`; the encoder writes the same word. -/
theorem test_word_lh : decode 0x00809183#32 = .instr (.lh 3 1 0x008#12) ∧ encode (.lh 3 1 0x008#12) = 0x00809183#32 := by
  decide

/-- `LW x3, 2047(x1)`; the encoder writes the same word. -/
theorem test_word_lw : decode 0x7FF0A183#32 = .instr (.lw 3 1 0x7FF#12) ∧ encode (.lw 3 1 0x7FF#12) = 0x7FF0A183#32 := by
  decide

/-- `SB x2, 8(x1)`; the encoder writes the same word. -/
theorem test_word_sb : decode 0x00208423#32 = .instr (.sb 1 2 0x008#12) ∧ encode (.sb 1 2 0x008#12) = 0x00208423#32 := by
  decide

/-- `SH x2, 8(x1)`; the encoder writes the same word. -/
theorem test_word_sh : decode 0x00209423#32 = .instr (.sh 1 2 0x008#12) ∧ encode (.sh 1 2 0x008#12) = 0x00209423#32 := by
  decide

/-- `SW x2, 2047(x1)`; the encoder writes the same word. -/
theorem test_word_sw : decode 0x7E20AFA3#32 = .instr (.sw 1 2 0x7FF#12) ∧ encode (.sw 1 2 0x7FF#12) = 0x7E20AFA3#32 := by
  decide

/-- `BEQ x1, x2, -4`; the encoder writes the same word. -/
theorem test_word_beq : decode 0xFE208EE3#32 = .instr (.beq 1 2 0x1FFC#13) ∧ encode (.beq 1 2 0x1FFC#13) = 0xFE208EE3#32 := by
  decide

/-- `BNE x1, x2, +8`; the encoder writes the same word. -/
theorem test_word_bne : decode 0x00209463#32 = .instr (.bne 1 2 0x0008#13) ∧ encode (.bne 1 2 0x0008#13) = 0x00209463#32 := by
  decide

/-- `BLT x1, x2, +8`; the encoder writes the same word. -/
theorem test_word_blt : decode 0x0020C463#32 = .instr (.blt 1 2 0x0008#13) ∧ encode (.blt 1 2 0x0008#13) = 0x0020C463#32 := by
  decide

/-- `BGE x1, x2, +8`; the encoder writes the same word. -/
theorem test_word_bge : decode 0x0020D463#32 = .instr (.bge 1 2 0x0008#13) ∧ encode (.bge 1 2 0x0008#13) = 0x0020D463#32 := by
  decide

/-- `BLTU x1, x2, +8`; the encoder writes the same word. -/
theorem test_word_bltu : decode 0x0020E463#32 = .instr (.bltu 1 2 0x0008#13) ∧ encode (.bltu 1 2 0x0008#13) = 0x0020E463#32 := by
  decide

/-- `BGEU x1, x2, +8`; the encoder writes the same word. -/
theorem test_word_bgeu : decode 0x0020F463#32 = .instr (.bgeu 1 2 0x0008#13) ∧ encode (.bgeu 1 2 0x0008#13) = 0x0020F463#32 := by
  decide

/-- `LUI x5, 0x12345`; the encoder writes the same word. -/
theorem test_word_lui : decode 0x123452B7#32 = .instr (.lui 5 0x12345#20) ∧ encode (.lui 5 0x12345#20) = 0x123452B7#32 := by
  decide

/-- `AUIPC x6, 0x1`; the encoder writes the same word. -/
theorem test_word_auipc : decode 0x00001317#32 = .instr (.auipc 6 0x00001#20) ∧ encode (.auipc 6 0x00001#20) = 0x00001317#32 := by
  decide

/-- `JAL x1, +2046`; the encoder writes the same word. -/
theorem test_word_jal : decode 0x7FE000EF#32 = .instr (.jal 1 0x0007FE#21) ∧ encode (.jal 1 0x0007FE#21) = 0x7FE000EF#32 := by
  decide

/-- `JALR x1, -4(x2)`; the encoder writes the same word. -/
theorem test_word_jalr : decode 0xFFC100E7#32 = .instr (.jalr 1 2 0xFFC#12) ∧ encode (.jalr 1 2 0xFFC#12) = 0xFFC100E7#32 := by
  decide

/-- SLT x3, x1, x2: recognised-unimplemented, its bits 31:7 kept. -/
theorem test_word_unimplemented33 :
    decode 0x0020A1B3#32 = .instr (.unimplemented33 0x0004143#25) ∧ encode (.unimplemented33 0x0004143#25) = 0x0020A1B3#32 := by
  decide

/-- SRAI x3, x1, 4: recognised-unimplemented, its bits 31:7 kept. -/
theorem test_word_unimplemented13 :
    decode 0x4040D193#32 = .instr (.unimplemented13 0x08081A3#25) ∧ encode (.unimplemented13 0x08081A3#25) = 0x4040D193#32 := by
  decide

/-- LBU x3, 0(x1): recognised-unimplemented, its bits 31:7 kept. -/
theorem test_word_unimplemented03 :
    decode 0x0000C183#32 = .instr (.unimplemented03 0x0000183#25) ∧ encode (.unimplemented03 0x0000183#25) = 0x0000C183#32 := by
  decide

/-- opcode 0x23, funct3 3: recognised-unimplemented, its bits 31:7 kept. -/
theorem test_word_unimplemented23 :
    decode 0x0020B023#32 = .instr (.unimplemented23 0x0004160#25) ∧ encode (.unimplemented23 0x0004160#25) = 0x0020B023#32 := by
  decide

/-- opcode 0x63, funct3 2: recognised-unimplemented, its bits 31:7 kept. -/
theorem test_word_unimplemented63 :
    decode 0x0020A463#32 = .instr (.unimplemented63 0x0004148#25) ∧ encode (.unimplemented63 0x0004148#25) = 0x0020A463#32 := by
  decide

/-- funct7 is examined for funct3 0 and 5 of opcode 0x33 only (spec/95 section 12). -/
theorem test_funct7 :
    decode 0x022081B3#32 = .instr (.unimplemented33 0x0044103#25) ∧
    decode 0x0220D1B3#32 = .instr (.unimplemented33 0x00441A3#25) ∧
    decode 0x022091B3#32 = .instr (.sll 3 1 2) ∧ decode 0xFE20F1B3#32 = .instr (.and 3 1 2) := by
  decide

/-- funct3 of JALR is not examined (spec/95 section 12). -/
theorem test_jalr_funct3 :
    decode 0x00009067#32 = .instr (.jalr 0 1 0#12) ∧ decode 0x00007067#32 = .instr (.jalr 0 0 0#12) := by
  decide

/-- Unknown opcodes (spec/95 section 12). -/
theorem test_unknown_opcodes :
    decode 0x00000000#32 = .unknownOpcode 0x00#7 ∧ decode 0xFFFFFFFF#32 = .unknownOpcode 0x7F#7 ∧
    decode 0x00000073#32 = .unknownOpcode 0x73#7 ∧ decode 0x0000000F#32 = .unknownOpcode 0x0F#7 ∧
    decode 0x0000003B#32 = .unknownOpcode 0x3B#7 := by
  decide

/-- The register fields (spec/95 section 11: ADD with x31 in each place). -/
theorem test_register_fields :
    decode 0x00000FB3#32 = .instr (.add 31 0 0) ∧ decode 0x000F8033#32 = .instr (.add 0 31 0) ∧
    decode 0x01F00033#32 = .instr (.add 0 0 31) := by
  decide

/-- B offsets bit by bit (spec/95 section 11): +2, +30, +32, +2016, +2048, -4096. -/
theorem test_branch_offset_bits :
    decode 0x00000163#32 = .instr (.beq 0 0 0x0002#13) ∧ decode 0x00000F63#32 = .instr (.beq 0 0 0x001E#13) ∧
    decode 0x02000063#32 = .instr (.beq 0 0 0x0020#13) ∧ decode 0x7E000063#32 = .instr (.beq 0 0 0x07E0#13) ∧
    decode 0x000000E3#32 = .instr (.beq 0 0 0x0800#13) ∧ decode 0x80000063#32 = .instr (.beq 0 0 0x1000#13) := by
  decide

/-- J offsets bit by bit (spec/95 section 11): +2, +2048, +4096, +524288, +1044480, -1048576. -/
theorem test_jal_offset_bits :
    decode 0x002000EF#32 = .instr (.jal 1 0x000002#21) ∧ decode 0x001000EF#32 = .instr (.jal 1 0x000800#21) ∧
    decode 0x000010EF#32 = .instr (.jal 1 0x001000#21) ∧ decode 0x000800EF#32 = .instr (.jal 1 0x080000#21) ∧
    decode 0x000FF0EF#32 = .instr (.jal 1 0x0FF000#21) ∧ decode 0x800000EF#32 = .instr (.jal 1 0x100000#21) := by
  decide

/-- Immediates extended to 32 bits (spec/95 section 11, "the other way round"). -/
theorem test_extended_immediates :
    immI (Decode.immI 0x80008193#32) = 0xFFFFF800#32 ∧ immS (Decode.immS 0xFE20AE23#32) = 0xFFFFFFFC#32 ∧
    immB (Decode.immB 0x7E000FE3#32) = 0x00000FFE#32 ∧ immU (Decode.immU 0xFFFFF2B7#32) = 0xFFFFF000#32 ∧
    immJ (Decode.immJ 0x800000EF#32) = 0xFFF00000#32 := by
  decide

/-- The host's numbering is the word itself, and a row decodes through the bytes in memory order. -/
theorem test_decodeTableWord :
    decodeTableWord 32 0x402081B3 = some (.sub 3 1 2) ∧ decodeTableWord 32 0x00000073 = none := by
  decide

/-! ### WellFormed refuses an ill-formed term for each of its checks -/

/-- An odd offset is no branch's and no JAL's (spec/30 R76, R78). -/
theorem test_odd_offsets_refused :
    (Instr.beq 1 2 0x0001#13).WellFormed = false ∧ (Instr.bne 1 2 0x0001#13).WellFormed = false ∧
    (Instr.blt 1 2 0x0001#13).WellFormed = false ∧ (Instr.bge 1 2 0x0001#13).WellFormed = false ∧
    (Instr.bltu 1 2 0x0001#13).WellFormed = false ∧ (Instr.bgeu 1 2 0x1FFF#13).WellFormed = false ∧
    (Instr.jal 1 0x000001#21).WellFormed = false := by
  decide

/-- Bits that select an instruction are no recognised-unimplemented word: those of ADD, SUB, SRA, SLL, ADDI,
LW, SB, BEQ (spec/95 section 11). -/
theorem test_instruction_bits_refused :
    (Instr.unimplemented33 (Decode.upper 0x002081B3#32)).WellFormed = false ∧
    (Instr.unimplemented33 (Decode.upper 0x402081B3#32)).WellFormed = false ∧
    (Instr.unimplemented33 (Decode.upper 0x4020D1B3#32)).WellFormed = false ∧
    (Instr.unimplemented33 (Decode.upper 0x002091B3#32)).WellFormed = false ∧
    (Instr.unimplemented13 (Decode.upper 0x0FF08193#32)).WellFormed = false ∧
    (Instr.unimplemented03 (Decode.upper 0x0080A183#32)).WellFormed = false ∧
    (Instr.unimplemented23 (Decode.upper 0x00208423#32)).WellFormed = false ∧
    (Instr.unimplemented63 (Decode.upper 0x00208463#32)).WellFormed = false := by
  decide

/-! ### Single steps, from the vectors of spec/95 -/

/-- V41-05: rd = rs1 = rs2. -/
theorem test_add_same_register :
    regPcSignal (machine 0x00001000#32 0x001080B3#32 [(1, 0x40000000#32)] []) 1 =
      some (0x80000000#32, 0x00001004#32, .continues) := by
  decide

/-- V41-07: the borrow wraps. -/
theorem test_sub_wraps :
    regPcSignal (machine 0x00001000#32 0x402081B3#32 [(2, 0x00000001#32)] []) 3 =
      some (0xFFFFFFFF#32, 0x00001004#32, .continues) := by
  decide

/-- V41-10: the negation of 0x80000000 is itself. -/
theorem test_sub_negates :
    regPcSignal (machine 0x00001000#32 0x401001B3#32 [(1, 0x80000000#32)] []) 3 =
      some (0x80000000#32, 0x00001004#32, .continues) := by
  decide

/-- V41-13: 0xFFFFFFFF shifts by 31. -/
theorem test_sll_low_five_bits :
    regPcSignal (machine 0x00001000#32 0x002091B3#32 [(1, 0xDEADBEEF#32), (2, 0xFFFFFFFF#32)] []) 3 =
      some (0x80000000#32, 0x00001004#32, .continues) := by
  decide

/-- V41-27: funct7 not examined. -/
theorem test_sll_any_funct7 :
    regPcSignal (machine 0x00001000#32 0x022091B3#32 [(1, 0x00000001#32), (2, 0x00000004#32)] []) 3 =
      some (0x00000010#32, 0x00001004#32, .continues) := by
  decide

/-- V41-22: bitwise. -/
theorem test_xor :
    regPcSignal (machine 0x00001000#32 0x0020C1B3#32 [(1, 0xF0F0A5A5#32), (2, 0x0FF05A5A#32)] []) 3 =
      some (0xFF00FFFF#32, 0x00001004#32, .continues) := by
  decide

/-- V41-28: funct7 not examined. -/
theorem test_xor_any_funct7 :
    regPcSignal (machine 0x00001000#32 0x4020C1B3#32 [(1, 0xF0F0A5A5#32), (2, 0x0FF05A5A#32)] []) 3 =
      some (0xFF00FFFF#32, 0x00001004#32, .continues) := by
  decide

/-- V41-16: the sign is not kept. -/
theorem test_srl_is_logical :
    regPcSignal (machine 0x00001000#32 0x0020D1B3#32 [(1, 0xFFFFFFFF#32), (2, 0x00000004#32)] []) 3 =
      some (0x0FFFFFFF#32, 0x00001004#32, .continues) := by
  decide

/-- V41-17: 0x20 shifts by 0. -/
theorem test_srl_low_five_bits :
    regPcSignal (machine 0x00001000#32 0x0020D1B3#32 [(1, 0xDEADBEEF#32), (2, 0x00000020#32)] []) 3 =
      some (0xDEADBEEF#32, 0x00001004#32, .continues) := by
  decide

/-- V41-19: the sign bit fills. -/
theorem test_sra_fills_with_sign :
    regPcSignal (machine 0x00001000#32 0x4020D1B3#32 [(1, 0x80000000#32), (2, 0x00000004#32)] []) 3 =
      some (0xF8000000#32, 0x00001004#32, .continues) := by
  decide

/-- V41-21: 0x24 shifts by 4. -/
theorem test_sra_low_five_bits :
    regPcSignal (machine 0x00001000#32 0x4020D1B3#32 [(1, 0xF0000000#32), (2, 0x00000024#32)] []) 3 =
      some (0xFF000000#32, 0x00001004#32, .continues) := by
  decide

/-- V41-24: bitwise. -/
theorem test_or :
    regPcSignal (machine 0x00001000#32 0x0020E1B3#32 [(1, 0xF0F0A5A5#32), (2, 0x0FF05A5A#32)] []) 3 =
      some (0xFFF0FFFF#32, 0x00001004#32, .continues) := by
  decide

/-- V41-25: bitwise. -/
theorem test_and :
    regPcSignal (machine 0x00001000#32 0x0020F1B3#32 [(1, 0xF0F0A5A5#32), (2, 0x0FF05A5A#32)] []) 3 =
      some (0x00F00000#32, 0x00001004#32, .continues) := by
  decide

/-- V41-06: rd = x0, the result is discarded. -/
theorem test_add_to_x0 :
    regPcSignal (machine 0x00001000#32 0x00208033#32 [(1, 0x00000005#32), (2, 0x00000006#32)] []) 0 =
      some (0x00000000#32, 0x00001004#32, .continues) := by
  decide

/-- V41-29: funct7 0x01 at funct3 0 is a no-op. -/
theorem test_mul_does_nothing :
    regPcSignal (machine 0x00001000#32 0x022081B3#32 [(1, 0x00000003#32), (2, 0x00000004#32), (3, 0xAAAAAAAA#32)] []) 3 =
      some (0xAAAAAAAA#32, 0x00001004#32, .continues) := by
  decide

/-- V41-34: UNIMPL_SIGNAL = DecodeFault. -/
theorem test_slt_reported :
    regPcSignal (reporting (machine 0x00001000#32 0x0020A1B3#32 [(1, 0xFFFFFFFF#32), (2, 0x00000001#32), (3, 0xAAAAAAAA#32)] [])) 3 =
      some (0xAAAAAAAA#32, 0x00001004#32, .decodeFault 0x33#7) := by
  decide

/-- V42-02: largest immediate, overflow ignored. -/
theorem test_addi_largest :
    regPcSignal (machine 0x00001000#32 0x7FF08193#32 [(1, 0x7FFFF801#32)] []) 3 =
      some (0x80000000#32, 0x00001004#32, .continues) := by
  decide

/-- V42-07: rd = rs1, wraps. -/
theorem test_addi_same_register :
    regPcSignal (machine 0x00001000#32 0x00108093#32 [(1, 0xFFFFFFFF#32)] []) 1 =
      some (0x00000000#32, 0x00001004#32, .continues) := by
  decide

/-- V42-11: the immediate is sign-extended. -/
theorem test_xori_sign_extends :
    regPcSignal (machine 0x00001000#32 0x8000C193#32 [] []) 3 =
      some (0xFFFFF800#32, 0x00001004#32, .continues) := by
  decide

/-- V42-13: the immediate is sign-extended. -/
theorem test_ori_sign_extends :
    regPcSignal (machine 0x00001000#32 0x8000E193#32 [(1, 0x000007FF#32)] []) 3 =
      some (0xFFFFFFFF#32, 0x00001004#32, .continues) := by
  decide

/-- V42-17: the immediate is sign-extended. -/
theorem test_andi_sign_extends :
    regPcSignal (machine 0x00001000#32 0x8000F193#32 [(1, 0xFFFFFFFF#32)] []) 3 =
      some (0xFFFFF800#32, 0x00001004#32, .continues) := by
  decide

/-- V42-19: funct3 1 under 0x13 is a no-op. -/
theorem test_slli_does_nothing :
    regPcSignal (machine 0x00001000#32 0x00409193#32 [(1, 0x00000001#32), (3, 0xAAAAAAAA#32)] []) 3 =
      some (0xAAAAAAAA#32, 0x00001004#32, .continues) := by
  decide

/-- V43-01: byte 0x80 is sign-extended. -/
theorem test_lb_sign_extends :
    regPcSignal (machine 0x00001000#32 0x00008183#32 [(1, 0x00000100#32)] [(0x100, 0x80#8), (0x101, 0x7F#8), (0x102, 0xFF#8), (0x103, 0x01#8), (0x104, 0x78#8), (0x105, 0x56#8), (0x106, 0x34#8), (0x107, 0x92#8)]) 3 =
      some (0xFFFFFF80#32, 0x00001004#32, .continues) := by
  decide

/-- V43-23: the effective address wraps to 0. -/
theorem test_lb_address_wraps :
    regPcSignal (machine 0x00001000#32 0x00108183#32 [(1, 0xFFFFFFFF#32)] [(0, 0x33#8), (1, 0x44#8), (2, 0x55#8)]) 3 =
      some (0x00000033#32, 0x00001004#32, .continues) := by
  decide

/-- V43-06: odd address, no fault, sign-extended. -/
theorem test_lh_odd_address :
    regPcSignal (machine 0x00001000#32 0x00109183#32 [(1, 0x00000100#32)] [(0x100, 0x80#8), (0x101, 0x7F#8), (0x102, 0xFF#8), (0x103, 0x01#8), (0x104, 0x78#8), (0x105, 0x56#8), (0x106, 0x34#8), (0x107, 0x92#8)]) 3 =
      some (0xFFFFFF7F#32, 0x00001004#32, .continues) := by
  decide

/-- V43-15: the high byte is out of range and reads 0. -/
theorem test_lh_straddles_capacity :
    regPcSignal (machine 0x00001000#32 0x00009183#32 [(1, 0x000FFFFF#32)] [(0xFFFFF, 0x80#8)]) 3 =
      some (0x00000080#32, 0x00001004#32, .continues) := by
  decide

/-- V43-12: rd = rs1, the address from the old x1. -/
theorem test_lw_same_register :
    regPcSignal (machine 0x00001000#32 0x0000A083#32 [(1, 0x00000100#32)] [(0x100, 0x80#8), (0x101, 0x7F#8), (0x102, 0xFF#8), (0x103, 0x01#8), (0x104, 0x78#8), (0x105, 0x56#8), (0x106, 0x34#8), (0x107, 0x92#8)]) 1 =
      some (0x01FF7F80#32, 0x00001004#32, .continues) := by
  decide

/-- V43-18: ADDR_WRAP = wrap, bytes 2 and 3 from addresses 0 and 1. -/
theorem test_lw_wraps :
    regPcSignal (machine 0x00001000#32 0xFFE02183#32 [] [(0, 0x33#8), (1, 0x44#8), (2, 0x55#8)]) 3 =
      some (0x44330000#32, 0x00001004#32, .continues) := by
  decide

/-- V43-19: ADDR_WRAP = zero, all four bytes read 0. -/
theorem test_lw_does_not_wrap :
    regPcSignal (noWrap (machine 0x00001000#32 0xFFE02183#32 [(3, 0xAAAAAAAA#32)] [(0, 0x33#8), (1, 0x44#8), (2, 0x55#8)])) 3 =
      some (0x00000000#32, 0x00001004#32, .continues) := by
  decide

/-- V43-24: LBU is unimplemented. -/
theorem test_lbu_does_nothing :
    regPcSignal (machine 0x00001000#32 0x0000C183#32 [(1, 0x00000100#32), (3, 0xAAAAAAAA#32)] [(0x100, 0x80#8), (0x101, 0x7F#8), (0x102, 0xFF#8), (0x103, 0x01#8), (0x104, 0x78#8), (0x105, 0x56#8), (0x106, 0x34#8), (0x107, 0x92#8)]) 3 =
      some (0xAAAAAAAA#32, 0x00001004#32, .continues) := by
  decide

/-- V44-01: only the low byte, only one byte of memory. -/
theorem test_sb_low_byte :
    bytesPcSignal (machine 0x00001000#32 0x00208023#32 [(1, 0x00000100#32), (2, 0x12345678#32)] [(0x100, 0xFF#8), (0x101, 0xFF#8), (0x102, 0xFF#8), (0x103, 0xFF#8)]) 0x100 4 =
      some ([0x78#8, 0xFF#8, 0xFF#8, 0xFF#8], 0x00001004#32, .continues) := by
  decide

/-- V44-06: smallest offset. -/
theorem test_sb_smallest_offset :
    bytesPcSignal (machine 0x00001000#32 0x80208023#32 [(1, 0x00000900#32), (2, 0x000000A5#32)] []) 0x100 1 =
      some ([0xA5#8], 0x00001004#32, .continues) := by
  decide

/-- V44-02: low halfword, little-endian. -/
theorem test_sh_little_endian :
    bytesPcSignal (machine 0x00001000#32 0x00209023#32 [(1, 0x00000100#32), (2, 0x12345678#32)] [(0x100, 0xFF#8), (0x101, 0xFF#8), (0x102, 0xFF#8), (0x103, 0xFF#8)]) 0x100 4 =
      some ([0x78#8, 0x56#8, 0xFF#8, 0xFF#8], 0x00001004#32, .continues) := by
  decide

/-- V44-07: odd address, no fault. -/
theorem test_sh_odd_address :
    bytesPcSignal (machine 0x00001000#32 0x002090A3#32 [(1, 0x00000100#32), (2, 0x12345678#32)] []) 0x100 3 =
      some ([0x00#8, 0x78#8, 0x56#8], 0x00001004#32, .continues) := by
  decide

/-- V44-11: two bytes written, two dropped. -/
theorem test_sw_straddles_capacity :
    bytesPcSignal (machine 0x00001000#32 0x0020A023#32 [(1, 0x000FFFFE#32), (2, 0x12345678#32)] []) 0xFFFFE 4 =
      some ([0x78#8, 0x56#8, 0x00#8, 0x00#8], 0x00001004#32, .continues) := by
  decide

/-- V44-14: ADDR_WRAP = wrap, bytes 2 and 3 land at 0 and 1. -/
theorem test_sw_wraps :
    bytesPcSignal (machine 0x00001000#32 0xFE202F23#32 [(2, 0x12345678#32)] []) 0x0 3 =
      some ([0x34#8, 0x12#8, 0x00#8], 0x00001004#32, .continues) := by
  decide

/-- V44-15: ADDR_WRAP = zero, nothing written. -/
theorem test_sw_does_not_wrap :
    bytesPcSignal (noWrap (machine 0x00001000#32 0xFE202F23#32 [(2, 0x12345678#32)] [])) 0x0 3 =
      some ([0x00#8, 0x00#8, 0x00#8], 0x00001004#32, .continues) := by
  decide

/-- V44-17: funct3 3 under 0x23 is a no-op. -/
theorem test_sd_does_nothing :
    bytesPcSignal (machine 0x00001000#32 0x0020B023#32 [(1, 0x00000100#32), (2, 0x12345678#32)] [(0x100, 0xFF#8), (0x101, 0xFF#8), (0x102, 0xFF#8), (0x103, 0xFF#8)]) 0x100 4 =
      some ([0xFF#8, 0xFF#8, 0xFF#8, 0xFF#8], 0x00001004#32, .continues) := by
  decide

/-- V45-01: equal, taken. -/
theorem test_beq_taken :
    pcSignal (machine 0x00001000#32 0x00208463#32 [(1, 0x00000005#32), (2, 0x00000005#32)] []) = some (0x00001008#32, .continues) := by
  decide

/-- V45-02: not equal, not taken (conflict C2). -/
theorem test_beq_not_taken :
    pcSignal (machine 0x00001000#32 0x00208463#32 [(1, 0x00000005#32), (2, 0x00000006#32)] []) = some (0x00001004#32, .continues) := by
  decide

/-- V45-07: the loop branch, taken. -/
theorem test_bne_taken :
    pcSignal (machine 0x00001000#32 0xFE009EE3#32 [(1, 0x00000004#32)] []) = some (0x00000FFC#32, .continues) := by
  decide

/-- V45-08: the loop branch, not taken. -/
theorem test_bne_not_taken :
    pcSignal (machine 0x00001000#32 0xFE009EE3#32 [] []) = some (0x00001004#32, .continues) := by
  decide

/-- V45-11: most negative below most positive. -/
theorem test_blt_taken :
    pcSignal (machine 0x00001000#32 0x0020C463#32 [(1, 0x80000000#32), (2, 0x7FFFFFFF#32)] []) = some (0x00001008#32, .continues) := by
  decide

/-- V45-10: 0 is not below -1. -/
theorem test_blt_not_taken :
    pcSignal (machine 0x00001000#32 0x0020C463#32 [(2, 0xFFFFFFFF#32)] []) = some (0x00001004#32, .continues) := by
  decide

/-- V45-14: 0 is at least -1. -/
theorem test_bge_taken :
    pcSignal (machine 0x00001000#32 0x0020D463#32 [(2, 0xFFFFFFFF#32)] []) = some (0x00001008#32, .continues) := by
  decide

/-- V45-15: -1 is not at least 0. -/
theorem test_bge_not_taken :
    pcSignal (machine 0x00001000#32 0x0020D463#32 [(1, 0xFFFFFFFF#32)] []) = some (0x00001004#32, .continues) := by
  decide

/-- V45-17: unsigned, 0 below 0xFFFFFFFF. -/
theorem test_bltu_taken :
    pcSignal (machine 0x00001000#32 0x0020E463#32 [(2, 0xFFFFFFFF#32)] []) = some (0x00001008#32, .continues) := by
  decide

/-- V45-18: unsigned, 0xFFFFFFFF not below 0. -/
theorem test_bltu_not_taken :
    pcSignal (machine 0x00001000#32 0x0020E463#32 [(1, 0xFFFFFFFF#32)] []) = some (0x00001004#32, .continues) := by
  decide

/-- V45-23: equal, taken. -/
theorem test_bgeu_taken :
    pcSignal (machine 0x00001000#32 0x0020F463#32 [(1, 0x00000005#32), (2, 0x00000005#32)] []) = some (0x00001008#32, .continues) := by
  decide

/-- V45-22: unsigned, 0 not at least 0xFFFFFFFF. -/
theorem test_bgeu_not_taken :
    pcSignal (machine 0x00001000#32 0x0020F463#32 [(2, 0xFFFFFFFF#32)] []) = some (0x00001004#32, .continues) := by
  decide

/-- V45-30: funct3 2 under 0x63 is never taken. -/
theorem test_branch_funct3_2_does_nothing :
    pcSignal (machine 0x00001000#32 0x0020A463#32 [(1, 0x00000005#32), (2, 0x00000005#32)] []) = some (0x00001004#32, .continues) := by
  decide

/-- V45-28: the target wraps below zero. -/
theorem test_branch_target_wraps :
    pcSignal (machine 0x00000000#32 0xFE000EE3#32 [] []) = some (0xFFFFFFFC#32, .continues) := by
  decide

/-- V46-02: the field fills bits 31 to 12. -/
theorem test_lui :
    regPcSignal (machine 0x00001000#32 0xFFFFF2B7#32 [] []) 5 =
      some (0xFFFFF000#32, 0x00001004#32, .continues) := by
  decide

/-- V46-05: rd = x0, discarded. -/
theorem test_lui_to_x0 :
    regPcSignal (machine 0x00001000#32 0x00001037#32 [] []) 0 =
      some (0x00000000#32, 0x00001004#32, .continues) := by
  decide

/-- V46-07: the address of the instruction, not the advanced pc. -/
theorem test_auipc_own_address :
    regPcSignal (machine 0x00001000#32 0x00000317#32 [] []) 6 =
      some (0x00001000#32, 0x00001004#32, .continues) := by
  decide

/-- V46-08: wraps modulo 2^32. -/
theorem test_auipc_wraps :
    regPcSignal (machine 0x00001000#32 0xFFFFF317#32 [(6, 0xAAAAAAAA#32)] []) 6 =
      some (0x00000000#32, 0x00001004#32, .continues) := by
  decide

/-- V47-05: smallest offset, wraps below zero. -/
theorem test_jal_wraps :
    regPcSignal (machine 0x00001000#32 0x800000EF#32 [] []) 1 =
      some (0x00001004#32, 0xFFF01000#32, .continues) := by
  decide

/-- V47-03: backward jump, no link. -/
theorem test_jal_backward :
    regPcSignal (machine 0x00001000#32 0xFF9FF06F#32 [] []) 0 =
      some (0x00000000#32, 0x00000FF8#32, .continues) := by
  decide

/-- V47-11: target from the old x1, link into x1. -/
theorem test_jalr_same_register :
    regPcSignal (machine 0x00001000#32 0x000080E7#32 [(1, 0x00000200#32)] []) 1 =
      some (0x00001004#32, 0x00000200#32, .continues) := by
  decide

/-- V47-12: bit 0 of the sum is cleared, bit 1 kept. -/
theorem test_jalr_clears_bit_0 :
    regPcSignal (machine 0x00001000#32 0x003302E7#32 [(6, 0x00000200#32)] []) 5 =
      some (0x00001004#32, 0x00000202#32, .continues) := by
  decide

/-- V48-05: ECALL is an unknown opcode. -/
theorem test_ecall_is_unknown :
    pcSignal (machine 0x00001000#32 0x00000073#32 [(1, 0x00000100#32), (3, 0xAAAAAAAA#32)] []) = some (0x00001004#32, .decodeFault 0x73#7) := by
  decide

/-- V48-01: the all-zero word. -/
theorem test_zero_word :
    pcSignal (machine 0x00001000#32 0x00000000#32 [] []) = some (0x00001004#32, .decodeFault 0x00#7) := by
  decide

/-! ### The step's frame, memory, reset and driver (spec/95 sections 10.2 to 10.5) -/

/-- S-01, S-02: the halt vector, bit 0 masked; nothing changes but the signal. -/
theorem test_halted :
    after { State.reset with pc := 0xFFFFFFFE#32 } =
      some { State.reset with pc := 0xFFFFFFFE#32, signal := .halted } ∧
    after { State.reset with pc := 0xFFFFFFFF#32 } =
      some { State.reset with pc := 0xFFFFFFFF#32, signal := .halted } := by
  decide

/-- S-03: 0xFFFFFFFC is not the halt vector; the fetch is out of range and the pc wraps. -/
theorem test_pc_wraps :
    pcSignal { State.reset with pc := 0xFFFFFFFC#32 } = some (0x00000000#32, .decodeFault 0x00#7) := by
  decide

/-- S-05: a fetch that straddles MEM_CAPACITY. -/
theorem test_fetch_straddles_capacity :
    pcSignal ({ State.reset with pc := 0x000FFFFE#32 }.writeByte 0xFFFFE 0x13#8) =
      some (0x00100002#32, .continues) := by
  decide

/-- S-06: a fetch at 2 modulo 4. -/
theorem test_fetch_misaligned :
    regPcSignal ({ State.reset with pc := 0x00000002#32 }.copyIn 0 [0xFF#8, 0xFF#8, 0x93#8, 0#8, 0x50#8, 0#8]) 1 =
      some (0x00000005#32, 0x00000006#32, .continues) := by
  decide

/-- M-01 to M-03: a byte written at the last address, and writes out of range. -/
theorem test_byte_in_and_out_of_range :
    ((tiny 0 []).writeByte 15 0xAB#8).readByte 15 = 0xAB#8 ∧
    ((tiny 0 []).writeByte 16 0xCD#8) = tiny 0 [] ∧ (tiny 0 []).readByte 16 = 0x00#8 ∧
    ((tiny 0 []).writeByte 0xFFFFFFFF 0xCD#8) = tiny 0 [] := by
  decide

/-- M-04 to M-08: words read in range, straddling, out of range, and past the top of the address space. -/
theorem test_read_word :
    (tiny 12 [0x78#8, 0x56#8, 0x34#8, 0x12#8]).loadWord 12#32 = 0x12345678#32 ∧
    (tiny 12 [0x78#8, 0x56#8, 0x34#8, 0x12#8]).loadWord 14#32 = 0x00001234#32 ∧
    (tiny 12 [0x78#8, 0x56#8, 0x34#8, 0x12#8]).loadWord 16#32 = 0x00000000#32 ∧
    (tiny 0 [0x33#8, 0x44#8]).loadWord 0xFFFFFFFE#32 = 0x44330000#32 ∧
    (noWrap (tiny 0 [0x33#8, 0x44#8])).loadWord 0xFFFFFFFE#32 = 0x00000000#32 := by
  decide

/-- M-09 to M-11: an image one byte too long, one that fits exactly, one that is shorter. -/
theorem test_load_image :
    (tiny 0 [0x11#8, 0x22#8]).loadImage (List.replicate 17 0xEE#8) = (.failure, tiny 0 [0x11#8, 0x22#8]) ∧
    (tiny 0 [0x11#8, 0x22#8]).loadImage (List.replicate 16 0xEE#8) =
      (.success, tiny 0 (List.replicate 16 0xEE#8)) ∧
    (tiny 0 [0x11#8, 0x22#8, 0x33#8]).loadImage [0xAA#8, 0xBB#8] =
      (.success, tiny 0 [0xAA#8, 0xBB#8, 0x33#8]) := by
  decide

/-- M-14: a memory of no bytes. -/
theorem test_capacity_zero :
    let s := State.powerOn (Config.ofCapacity ⟨0, by decide⟩)
    s.readByte 0 = 0x00#8 ∧ s.writeByte 0 1#8 = s ∧ s.loadImage [1#8] = (.failure, s) := by
  decide

/-- Writing what an unlisted address reads as removes the cell: equal memories are equal data. -/
theorem test_memory_canonical : ((tiny 0 []).writeByte 7 0xAB#8).writeByte 7 0x00#8 = tiny 0 [] := by
  decide

/-- I-01 to I-03: reset at the default capacity, at 64 KiB and at 2^32. -/
theorem test_reset :
    (State.reset.readReg 0, State.reset.readReg 1, State.reset.readReg 2, State.reset.readReg 3,
      State.reset.readReg 31, State.reset.pc) =
      (0x00000000#32, 0xFFFFFFFE#32, 0x00100000#32, 0x00000000#32, 0x00000000#32, 0x00000000#32) ∧
    (State.powerOn (Config.ofCapacity ⟨0x10000, by decide⟩)).readReg 2 = 0x00010000#32 ∧
    (State.powerOn (Config.ofCapacity ⟨0x100000000, by decide⟩)).readReg 2 = 0x00000000#32 := by
  decide

/-- I-04: a reset against a used memory leaves its bytes. -/
theorem test_reset_keeps_memory :
    let s := (machine 0x00001000#32 0x00000013#32 [(1, 5#32), (9, 7#32)] [(0x100, 0x78#8)]).engineReset
    s.readByte 0x100 = 0x78#8 ∧ s.readReg 1 = 0xFFFFFFFE#32 ∧ s.readReg 9 = 0#32 ∧ s.pc = 0#32 := by
  decide

/-- H-01, H-03, H-04: the driver stops at the zero word; exhausts its budget on `JAL x0, +0`; finishes on
`JALR x0, 0(x1)`. -/
theorem test_driver :
    Driver.run .abort 5 State.reset = .next (.stoppedAtZeroWord, State.reset) ∧
    (match Driver.run .abort 5 (State.reset.withFetchWord 32 0x0000006F) with
      | .next (e, t) => some (e, t.pc)
      | _ => none) = some (.budgetExhausted, 0x00000000#32) ∧
    (match Driver.run .abort 5 (State.reset.withFetchWord 32 0x00008067) with
      | .next (e, t) => some (e, t.pc)
      | _ => none) = some (.finished, 0xFFFFFFFE#32) := by
  refine ⟨rfl, ?_, ?_⟩ <;> decide

/-- A word placed for the host runs as the first instruction after reset: `ADDI x1, x0, 5`. -/
theorem test_first_instruction :
    regPcSignal (State.reset.withFetchWord 32 0x00500093) 1 =
      some (0x00000005#32, 0x00000004#32, .continues) := by
  decide


/-- Program P4 from 0x14 to 0x23 (`LW`, SLT, LBU, `BLT`): SLT and LBU are flagged, and named. -/
theorem test_flagged_words :
    flaggedWords [0x03#8, 0x2E#8, 0xC1#8, 0xFF#8, 0xB3#8, 0xAE#8, 0x02#8, 0x00#8,
      0x03#8, 0x4F#8, 0x00#8, 0x00#8, 0x63#8, 0xC4#8, 0x02#8, 0x00#8] =
      [(4, .unimplemented33 (Decode.upper 0x0002AEB3#32)), (8, .unimplemented03 (Decode.upper 0x00004F03#32))] ∧
    absentInstruction (.unimplemented33 (Decode.upper 0x0002AEB3#32)) = some "SLT" ∧
    absentInstruction (.unimplemented03 (Decode.upper 0x00004F03#32)) = some "LBU" ∧
    absentInstruction (.unimplemented63 (Decode.upper 0x0020A463#32)) = none := by
  decide

/-- R262: a session whose image is too long (M-09) does not start, though a step would have been made. -/
theorem test_failed_load_does_not_start :
    Driver.session .abort 5 (List.replicate 17 0xEE#8) (tiny 0 [0x11#8, 0x22#8]) =
      .next (.notStarted, tiny 0 [0x11#8, 0x22#8]) ∧
    hostAct .loadFailed .step (tiny 0 []) = none ∧ hostAct .memoryReady .step (tiny 0 []) = none := by
  refine ⟨rfl, rfl, rfl⟩

/-- H-04 as a session: the image `JALR x0, 0(x1)` finishes, which is success. -/
theorem test_session_finishes :
    (match Driver.session .abort 5 [0x67#8, 0x80#8, 0x00#8, 0x00#8] State.reset with
      | .next (.ran e, t) => some (e.success, t.pc)
      | _ => none) = some (true, 0xFFFFFFFE#32) := by
  decide

/-! ### Witnesses: states and operands that meet an obligation's hypotheses

One theorem per obligation that has hypotheses, named after it; each clause at a boundary value. -/

/-- A step whose next state passes a test. -/
theorem exists_after {s : State} {p : State → Bool} (h : (after s).any p = true) :
    ∃ t, step s = .next t ∧ p t = true := by
  unfold after at h
  cases hs : step s with
  | next t => rw [hs] at h; exact ⟨t, rfl, h⟩
  | fault f => rw [hs] at h; cases h
  | refused r => rw [hs] at h; cases h

/-- A row of the table and a word that selects it. -/
theorem witness_InstructionRowsSelectTheirWords :
    ∃ row ∈ OpcodeTable.instructionRows, row.Matches 0x022091B3#32 ∧ DecodesAs 0x022091B3#32 row.mnemonic :=
  ⟨⟨"SLL", 0x00001033#32, 0x0000707F#32⟩, by decide, by unfold OpcodeRow.Matches; decide, .sll 3 1 2, by decide, rfl⟩

/-- A word that only a fallback row matches, and one that no row matches. -/
theorem witness_FallbackRowsApplyAfterInstructionRows :
    (∃ row ∈ OpcodeTable.fallbackRows, row.Matches 0x0020A1B3#32 ∧
      (∀ r ∈ OpcodeTable.instructionRows, ¬r.Matches 0x0020A1B3#32) ∧ DecodesAs 0x0020A1B3#32 row.mnemonic) ∧
    ∀ r ∈ OpcodeTable.instructionRows ++ OpcodeTable.fallbackRows, ¬r.Matches 0x00000073#32 := by
  refine ⟨⟨⟨"UNIMPLEMENTED_33", 0x00000033#32, 0x0000007F#32⟩, by decide, ?_, ?_, .unimplemented33 0x0004143#25,
    by decide, rfl⟩, ?_⟩ <;> unfold OpcodeRow.Matches <;> decide

/-- For each of the five rows a word inside its funct3 range and, for 0x33, one by funct7; and words at the
edges that are instructions. -/
theorem witness_UnimplementedWordsByFields :
    decode 0x0000B1B3#32 = .instr (.unimplemented33 (BitVec.extractLsb' 7 25 0x0000B1B3#32)) ∧
    decode 0x3E2081B3#32 = .instr (.unimplemented33 (BitVec.extractLsb' 7 25 0x3E2081B3#32)) ∧
    decode 0x422081B3#32 = .instr (.unimplemented33 (BitVec.extractLsb' 7 25 0x422081B3#32)) ∧
    decode 0x4220D1B3#32 = .instr (.unimplemented33 (BitVec.extractLsb' 7 25 0x4220D1B3#32)) ∧
    decode 0x00409193#32 = .instr (.unimplemented13 (BitVec.extractLsb' 7 25 0x00409193#32)) ∧
    decode 0x0000B183#32 = .instr (.unimplemented03 (BitVec.extractLsb' 7 25 0x0000B183#32)) ∧
    decode 0x0020F023#32 = .instr (.unimplemented23 (BitVec.extractLsb' 7 25 0x0020F023#32)) ∧
    decode 0x0020B463#32 = .instr (.unimplemented63 (BitVec.extractLsb' 7 25 0x0020B463#32)) ∧
    decode 0x402081B3#32 = .instr (.sub 3 1 2) ∧ decode 0x0000A183#32 = .instr (.lw 3 1 0#12) ∧
    decode 0x0020C463#32 = .instr (.blt 1 2 8#13) := by
  decide

/-- Opcodes on both sides of a known one. -/
theorem witness_UnknownOpcodeExactlyOutsideTheNine :
    decode 0x00000032#32 = .unknownOpcode 0x32#7 ∧ decode 0x00000034#32 = .unknownOpcode 0x34#7 ∧
    decode 0x0000007F#32 = .unknownOpcode 0x7F#7 ∧ decode 0x00000033#32 = .instr (.add 0 0 0) := by
  decide

/-- Well-formed instructions at the ends of the offset ranges, and a recognised-unimplemented word. -/
theorem witness_DecodeOfEncodeIsIdentity :
    (Instr.beq 31 31 0x1000#13).WellFormed = true ∧ (Instr.bgeu 0 31 0x0FFE#13).WellFormed = true ∧
    (Instr.jal 31 0x100000#21).WellFormed = true ∧ (Instr.jal 0 0x0FFFFE#21).WellFormed = true ∧
    (Instr.addi 31 31 0x800#12).WellFormed = true ∧ (Instr.unimplemented33 0x1FC4103#25).WellFormed = true ∧
    (Instr.unimplemented63 0x0004148#25).WellFormed = true := by
  decide

/-- Words with bits the decoder does not examine. -/
theorem witness_EncodeOfDecodeKeepsExaminedBits :
    decode 0x4020C1B3#32 = .instr (.xor 3 1 2) ∧ decode 0x0080F2E7#32 = .instr (.jalr 5 1 8#12) ∧
    encode (.xor 3 1 2) ≠ 0x4020C1B3#32 := by
  decide

/-- Words of the two kinds WellFormed says something about. -/
theorem witness_DecodedInstructionsAreWellFormed :
    decode 0xFE009EE3#32 = .instr (.bne 1 0 0x1FFC#13) ∧
    decode 0xFE2081B3#32 = .instr (.unimplemented33 0x1FC4103#25) := by
  decide

/-- The bit positions where the clauses of the S and U immediates meet, on words with single bits set. -/
theorem witness_StoreAndUpperImmediateBits :
    (4 < 32 ∧ (immS (Decode.immS 0x00000800#32)).getLsbD 4 = true) ∧
    (5 < 32 ∧ (immS (Decode.immS 0x02000000#32)).getLsbD 5 = true) ∧
    (10 < 32 ∧ (immS (Decode.immS 0x40000000#32)).getLsbD 10 = true) ∧
    (11 < 32 ∧ (immS (Decode.immS 0x80000000#32)).getLsbD 11 = true) ∧
    (11 < 32 ∧ (immU (Decode.immU 0xFFFFFFFF#32)).getLsbD 11 = false) ∧
    (12 < 32 ∧ (immU (Decode.immU 0x00001000#32)).getLsbD 12 = true) ∧
    (31 < 32 ∧ (immS (Decode.immS 0x80000000#32)).getLsbD 31 = true) := by
  decide

/-- The bit positions where the clauses of the I, B and J immediates meet, on words with single bits set. -/
theorem witness_ImmediateBitsOfFormatsIBJ :
    (11 < 32 ∧ (immI (Decode.immI 0x80000000#32)).getLsbD 11 = true) ∧
    (12 < 32 ∧ (immI (Decode.immI 0x80000000#32)).getLsbD 12 = true) ∧
    (0 < 32 ∧ (immB (Decode.immB 0xFFFFFFFF#32)).getLsbD 0 = false) ∧
    (4 < 32 ∧ (immB (Decode.immB 0x00000800#32)).getLsbD 4 = true) ∧
    (5 < 32 ∧ (immB (Decode.immB 0x02000000#32)).getLsbD 5 = true) ∧
    (11 < 32 ∧ (immB (Decode.immB 0x00000080#32)).getLsbD 11 = true) ∧
    (12 < 32 ∧ (immB (Decode.immB 0x80000000#32)).getLsbD 12 = true) ∧
    (10 < 32 ∧ (immJ (Decode.immJ 0x40000000#32)).getLsbD 10 = true) ∧
    (11 < 32 ∧ (immJ (Decode.immJ 0x00100000#32)).getLsbD 11 = true) ∧
    (12 < 32 ∧ (immJ (Decode.immJ 0x00001000#32)).getLsbD 12 = true) ∧
    (20 < 32 ∧ (immJ (Decode.immJ 0x80000000#32)).getLsbD 20 = true) := by
  decide

/-- The last address in range, the first out of range, a neighbour, and SW then LW on the last four bytes. -/
theorem witness_MemoryPropertiesOfTheSource :
    (15 < (tiny 0 []).capacity) ∧ ((tiny 0 []).capacity ≤ 16) ∧ ((14 : Nat) ≠ 15) ∧ ((3 : Reg) ≠ 0) ∧
    ∀ k, k < 4 → (tiny 0 []).byteAddr ((tiny 0 []).storeAddr 0 12#12) k < (tiny 0 []).capacity := by
  decide

/-- The first address out of range, a fetch and a load wholly out of range. -/
theorem witness_OutOfRangeReadsGiveZero :
    (tiny 0 []).capacity ≤ 16 ∧
    (∀ k, k < 4 → (tiny 0 []).capacity ≤
      State.byteAddr { tiny 0 [] with pc := 16#32 } (State.pc { tiny 0 [] with pc := 16#32 }) k) ∧
    ∀ k, k < 4 → (tiny 0 []).capacity ≤ (tiny 0 []).byteAddr ((tiny 0 []).loadAddr 0 16#12) k := by
  decide

/-- The last byte before the top, the first past it under both settings, and the last even pc. -/
theorem witness_AccessesAtTheTopOfTheAddressSpace :
    (0xFFFFFFFC#32).toNat + 3 < 2 ^ 32 ∧
    ((tiny 0 []).cfg.addrWrap = .wrap ∧ 2 ^ 32 ≤ (0xFFFFFFFD#32).toNat + 3) ∧
    ((noWrap (tiny 0 [])).cfg.addrWrap = .zero ∧ 2 ^ 32 ≤ (0xFFFFFFFF#32).toNat + 1) ∧
    State.PcEven { State.reset with pc := 0xFFFFFFFC#32 } ∧
    State.atHaltVector { State.reset with pc := 0xFFFFFFFC#32 } = false := by
  unfold State.PcEven
  decide

/-- An image of exactly the capacity and one of one byte more. -/
theorem witness_LoadImageCopiesOrRejects :
    (List.replicate 16 0xEE#8).length ≤ (tiny 0 []).capacity ∧
    (tiny 0 []).capacity < (List.replicate 17 0xEE#8).length ∧
    (15 < (List.replicate 16 0xEE#8).length ∧ (List.replicate 16 0xEE#8).length ≤ 16) := by
  decide

/-- A word whose last byte in range is byte 1: bytes 2 and 3 are out of range. -/
theorem witness_ReadWordIsLittleEndian :
    (tiny 0 []).byteAddr 14#32 1 < (tiny 0 []).capacity ∧
    (tiny 0 []).capacity ≤ (tiny 0 []).byteAddr 14#32 2 := by
  decide

/-- A state at the halt vector, one that fetches an instruction, one that fetches an unknown opcode. -/
theorem witness_StepRunsTheDecodedInstruction :
    (State.pc { State.reset with pc := 0xFFFFFFFF#32 } &&& 0xFFFFFFFE#32 = 0xFFFFFFFE#32) ∧
    (let s := machine 0x00001000#32 0x002081B3#32 [(1, 1#32), (2, 2#32)] []
     s.pc &&& 0xFFFFFFFE#32 ≠ 0xFFFFFFFE#32 ∧ decode (s.loadWord s.pc) = .instr (.add 3 1 2) ∧
      ∃ t, exec (.add 3 1 2) { s with pc := s.pc + 4#32 } = .next t) ∧
    (let s := machine 0x00001000#32 0x00000073#32 [] []
     s.pc &&& 0xFFFFFFFE#32 ≠ 0xFFFFFFFE#32 ∧ decode (s.loadWord s.pc) = .unknownOpcode 0x73#7) :=
  ⟨by decide, ⟨by decide, by decide, _, rfl⟩, by decide⟩

/-- Both pcs that halt. -/
theorem witness_HaltedEngineIsAFixedPoint :
    State.pc { State.reset with pc := 0xFFFFFFFE#32 } = 0xFFFFFFFE#32 ∧
    State.pc { State.reset with pc := 0xFFFFFFFF#32 } = 0xFFFFFFFF#32 :=
  ⟨rfl, rfl⟩

/-- A state whose next word is FENCE (V48-03). -/
theorem witness_UnknownOpcodeAdvancesAndReports :
    let s := machine 0x00001000#32 0x0FF0000F#32 [] []
    s.atHaltVector = false ∧ s.fetch.extractLsb' 0 7 ∉ knownOpcodes := by
  decide

/-- Reset itself: its memory is zero. -/
theorem witness_ZeroWordFaultsAndStopsTheDriver :
    State.reset.atHaltVector = false ∧ State.reset.fetch = 0x00000000#32 := by
  decide

/-- A step of each kind: halted, unknown opcode, instruction, recognised-unimplemented under both settings. -/
theorem witness_SignalSaysWhatTheStepDid :
    (∃ t, step { State.reset with pc := 0xFFFFFFFE#32 } = .next t ∧ decide (t.signal = .halted) = true) ∧
    (∃ t, step State.reset = .next t ∧ decide (t.signal = .decodeFault 0x00#7) = true) ∧
    (∃ t, step (machine 0#32 0x00000013#32 [] []) = .next t ∧ decide (t.signal = .continues) = true) ∧
    (∃ t, step (machine 0#32 0x0020A1B3#32 [] []) = .next t ∧ decide (t.signal = .continues) = true) ∧
    ∃ t, step (reporting (machine 0#32 0x0020A1B3#32 [] [])) = .next t ∧
      decide (t.signal = .decodeFault 0x33#7) = true :=
  ⟨exists_after (by decide), exists_after (by decide), exists_after (by decide), exists_after (by decide),
    exists_after (by decide)⟩

/-- A step of each kind of pc outcome: halted, unknown opcode, plain, branch taken and not, JAL, JALR. -/
theorem witness_PcAfterEachStep :
    (∃ t, step { State.reset with pc := 0xFFFFFFFF#32 } = .next t ∧ (t.pc == 0xFFFFFFFF#32) = true) ∧
    (∃ t, step { State.reset with pc := 0xFFFFFFFC#32 } = .next t ∧ (t.pc == 0x00000000#32) = true) ∧
    (∃ t, step (machine 0#32 0x00000013#32 [] []) = .next t ∧ (t.pc == 0x00000004#32) = true) ∧
    (∃ t, step (machine 0#32 0xFE000EE3#32 [] []) = .next t ∧ (t.pc == 0xFFFFFFFC#32) = true) ∧
    (∃ t, step (machine 12#32 0xFE009EE3#32 [] []) = .next t ∧ (t.pc == 0x00000010#32) = true) ∧
    (∃ t, step (machine 8#32 0x00C000EF#32 [] []) = .next t ∧ (t.pc == 0x00000014#32) = true) ∧
    ∃ t, step (machine 8#32 0xFFF00067#32 [] []) = .next t ∧ (t.pc == 0xFFFFFFFE#32) = true :=
  ⟨exists_after (by decide), exists_after (by decide), exists_after (by decide), exists_after (by decide),
    exists_after (by decide), exists_after (by decide), exists_after (by decide)⟩

/-- ADD from two states that differ in x9 only: x9 is neither destination nor source. -/
theorem witness_RegistersReadAndWritten :
    let s := machine 0x00001000#32 0x002081B3#32 [(1, 5#32), (2, 6#32)] []
    let s' := s.writeReg 9 7#32
    (∃ t, exec (.add 3 1 2) s = .next t) ∧ destination (.add 3 1 2) ≠ some 9 ∧
    s.pc = s'.pc ∧ s.cfg = s'.cfg ∧ (∀ a, s.readByte a = s'.readByte a) ∧
    (∀ r ∈ sources (.add 3 1 2), s.readReg r = s'.readReg r) ∧ (∃ t, exec (.add 3 1 2) s' = .next t) ∧
    destination (.add 3 1 2) = some 3 :=
  ⟨⟨_, rfl⟩, by decide, rfl, rfl, fun _ => rfl, by decide, ⟨_, rfl⟩, rfl⟩

/-- `ADD x0, x1, x2` (V41-06). -/
theorem witness_WriteToX0IsDiscarded :
    let s := machine 0x00001000#32 0x00208033#32 [(1, 5#32), (2, 6#32)] []
    destination (.add 0 1 2) = some 0 ∧ (∃ t, exec (.add 0 1 2) s = .next t) ∧ s.X0Clear ∧
    s.atHaltVector = false ∧ decode s.fetch = .instr (.add 0 1 2) ∧
    ∃ t, step s = .next t ∧ (t.readReg 0 == 0#32) = true := by
  refine ⟨rfl, ⟨_, rfl⟩, ?_, by decide, by decide, exists_after (by decide)⟩
  unfold State.X0Clear
  decide

/-- A step that changes a byte: `SB x2, 0(x1)` at the last address in range. -/
theorem witness_MemoryChangesOnlyByStores :
    ∃ t, step (machine 0x00001000#32 0x00208023#32 [(1, 0xFFFFF#32), (2, 0x78#32)] []) = .next t ∧
      (t.readByte 0xFFFFF != (machine 0x00001000#32 0x00208023#32 [(1, 0xFFFFF#32), (2, 0x78#32)] []).readByte
        0xFFFFF) = true :=
  exists_after (by decide)

/-- A state with a byte in memory has the invariant and steps. -/
theorem witness_EveryStepKeepsTheInvariant :
    (machine 0x00001000#32 0x00208023#32 [(1, 0xFFFFF#32), (2, 0x78#32)] []).Inv ∧
    ∃ t, step (machine 0x00001000#32 0x00208023#32 [(1, 0xFFFFF#32), (2, 0x78#32)] []) = .next t ∧
      (t.readByte 0xFFFFF == 0x78#8) = true := by
  refine ⟨?_, exists_after (by decide)⟩
  unfold State.Inv State.X0Clear State.MemWithinCapacity
  decide

/-- A used machine: the invariant holds, the memory is canonical and within its capacity. -/
theorem witness_InvariantHoldsWhereARunStarts :
    (tiny 14 [0x01#8, 0x02#8]).Inv ∧ Memory.wf (tiny 14 [0x01#8, 0x02#8]).mem ∧
    (tiny 14 [0x01#8, 0x02#8]).MemWithinCapacity := by
  unfold State.Inv State.X0Clear State.MemWithinCapacity
  decide

/-- An even pc that steps, and an even RESET_PC from which two steps run. -/
theorem witness_PcStaysEven :
    State.reset.PcEven ∧ (∃ t, step State.reset = .next t ∧ (t.pc == 4#32) = true) ∧
    State.reset.cfg.resetPc.toNat % 2 = 0 ∧
    ∃ t, Host.Core.run Sys2Proof.core 2 State.reset.engineReset = .next t :=
  ⟨by unfold State.PcEven; decide, exists_after (by decide), by decide, _, rfl⟩

/-- A step, for the clause about steps. -/
theorem witness_CapacityNeverChanges :
    ∃ t, step State.reset = .next t ∧ (t.capacity == 0x100000) = true :=
  exists_after (by decide)

/-- The first and the last of x3 to x31. -/
theorem witness_ResetRegisterValues : 3 ≤ (3 : Reg).val ∧ 3 ≤ (31 : Reg).val := by decide

/-- Two states that look alike and are not the same state. -/
theorem witness_OnlyVisibleStateIsCarried :
    LookAlike State.reset (State.reset.setSignal .halted) ∧ State.reset ≠ State.reset.setSignal .halted ∧
    (∃ t, step State.reset = .next t ∧ (t.pc == 4#32) = true) ∧
    ∃ t, step (State.reset.setSignal .halted) = .next t ∧ (t.pc == 4#32) = true :=
  ⟨⟨fun _ => rfl, rfl, fun _ => rfl, rfl⟩, by decide, exists_after (by decide), exists_after (by decide)⟩

/-- `SW x2, 4(x1)` at 0x1000 with x1 = 0x1000, over the next word; and a pc whose four bytes end at the last
address in range. -/
theorem witness_StoredWordIsFetchedNext :
    (let s := machine 0x00001000#32 0x0020A223#32 [(1, 0x1000#32), (2, 0x00500093#32)] []
     s.atHaltVector = false ∧ decode s.fetch = .instr (.sw 1 2 4#12) ∧ s.storeAddr 1 4#12 = s.pc + 4#32 ∧
      ∀ k, k < 4 → s.byteAddr (s.pc + 4#32) k < s.capacity) ∧
    ∀ k, k < 4 → State.byteAddr { State.reset with pc := 0x000FFFFC#32 } 0x000FFFFC#32 k < State.reset.capacity := by
  decide

/-- `JALR x0, 0(x1)` with the reset value of x1, and a branch that reaches the halt vector (V45-29). -/
theorem witness_ReturnToTheHaltVectorHalts :
    (let s := State.reset.withFetchWord 32 0x00008067
     s.atHaltVector = false ∧ decode s.fetch = .instr (.jalr 0 1 0#12) ∧ s.readReg 1 = 0xFFFFFFFE#32) ∧
    ∃ t, step (machine 8#32 0xFE000BE3#32 [] []) = .next t ∧ (t.pc == 0xFFFFFFFE#32) = true :=
  ⟨by decide, exists_after (by decide)⟩

/-- A run for each of the four endings. -/
theorem witness_EveryRunEndsInOneOfFourWays :
    (∃ t, Driver.run .abort 2 (State.reset.withFetchWord 32 0x00008067) = .next (.finished, t)) ∧
    (∃ t, Driver.run .abort 1 State.reset = .next (.stoppedAtZeroWord, t)) ∧
    (∃ t, Driver.run .abort 1 (State.reset.withFetchWord 32 0x00000073) = .next (.faulted 0x73#7, t)) ∧
    ∃ t, Driver.run .abort 1 (State.reset.withFetchWord 32 0x0000006F) = .next (.budgetExhausted, t) :=
  ⟨⟨_, rfl⟩, ⟨_, rfl⟩, ⟨_, rfl⟩, ⟨_, rfl⟩⟩

/-- A state whose next word is FENCE (program P6), one whose next word is SLT under UNIMPL_SIGNAL = DecodeFault,
and a step that returns `DecodeFault`. -/
theorem witness_HostChoosesAfterADecodeFault :
    (let s := State.reset.withFetchWord 32 0x0FF0000F
     s.atHaltVector = false ∧ s.fetch ≠ 0x00000000#32 ∧ s.fetch.extractLsb' 0 7 ∉ knownOpcodes) ∧
    (let s := reporting (State.reset.withFetchWord 32 0x0020A1B3)
     s.atHaltVector = false ∧ s.fetch ≠ 0x00000000#32 ∧ s.cfg.unimplSignal = .decodeFault ∧
      (flaggedInstr s.fetch).isSome = true) ∧
    Driver.atZeroWord (reporting (State.reset.withFetchWord 32 0x0020A1B3)) = false ∧
    ∃ t, step (reporting (State.reset.withFetchWord 32 0x0020A1B3)) = .next t ∧
      decide (t.signal = .decodeFault 0x33#7) = true :=
  ⟨by decide, by decide, by decide, exists_after (by decide)⟩

/-- An image of the capacity, one of a byte more, and a power-on that is not at the halt vector. -/
theorem witness_SessionStartsOnlyAfterALoadThatSucceeded :
    (List.replicate 16 0xEE#8).length ≤ (tiny 0 []).capacity ∧
    (tiny 0 []).capacity < (List.replicate 17 0xEE#8).length ∧
    (State.powerOn Config.default).atHaltVector = false := by
  decide

/-- A permitted action of each kind, a load of exactly the capacity before and after a reset, one of a byte more,
and the phases a step and a load need. -/
theorem witness_HostActsOnlyWherePermitted :
    (∃ q t, hostAct .engineReady .step (tiny 0 []) = some (q, t)) ∧
    (∃ q t, hostAct .stepped .reset (tiny 0 []) = some (q, t)) ∧
    (∃ q t, hostAct .memoryReady (.writeMemory 15 0xAB#8) (tiny 0 []) = some (q, t)) ∧
    (∃ t, hostAct .memoryReady (.loadImage (List.replicate 16 0xEE#8)) (tiny 0 []) = some (.memoryReady, t)) ∧
    (∃ t, hostAct .engineReady (.loadImage (List.replicate 16 0xEE#8)) (tiny 0 []) = some (.engineReady, t)) ∧
    (List.replicate 16 0xEE#8 : List Byte).length = (tiny 0 []).capacity ∧
    (∃ t, hostAct .engineReady (.loadImage (List.replicate 17 0xEE#8)) (tiny 0 []) = some (.loadFailed, t)) ∧
    HostPhase.stepped ≠ .memoryReady ∧ HostPhase.memoryReady ≠ .stepped :=
  ⟨⟨_, _, rfl⟩, ⟨_, _, rfl⟩, ⟨_, _, rfl⟩, ⟨_, rfl⟩, ⟨_, rfl⟩, rfl, ⟨_, rfl⟩, by decide, by decide⟩

/-- SLT as the second word of an image that fits. -/
theorem witness_FlaggedWordsAreRecognisedUnimplemented :
    (4, Instr.unimplemented33 0x0004143#25) ∈
      flaggedWords [0x13#8, 0x00#8, 0x00#8, 0x00#8, 0xB3#8, 0xA1#8, 0x20#8, 0x00#8] ∧
    [0x13#8, 0x00#8, 0x00#8, 0x00#8, 0xB3#8, 0xA1#8, 0x20#8, 0x00#8].length ≤ Config.default.memCapacity.val := by
  decide

/-- Words that the masks and patterns of every family select, with all other bits set. -/
theorem witness_Selects :
    0x01FF8FB3#32 &&& 0xFE00707F#32 = 0x00000033#32 ∧ 0x41FF8FB3#32 &&& 0xFE00707F#32 = 0x40000033#32 ∧
    0xFFFF9FB3#32 &&& 0x0000707F#32 = 0x00001033#32 ∧ 0x01FFDFB3#32 &&& 0xFE00707F#32 = 0x00005033#32 ∧
    0x41FFDFB3#32 &&& 0xFE00707F#32 = 0x40005033#32 ∧ 0xFFFFCFB3#32 &&& 0x0000707F#32 = 0x00004033#32 ∧
    0xFFFFEFB3#32 &&& 0x0000707F#32 = 0x00006033#32 ∧ 0xFFFFFFB3#32 &&& 0x0000707F#32 = 0x00007033#32 ∧
    0xFFFF8F93#32 &&& 0x0000707F#32 = 0x00000013#32 ∧ 0xFFFF8F83#32 &&& 0x0000707F#32 = 0x00000003#32 ∧
    0xFFFF8FA3#32 &&& 0x0000707F#32 = 0x00000023#32 ∧ 0xFFFF8FE3#32 &&& 0x0000707F#32 = 0x00000063#32 ∧
    0xFFFFFFB7#32 &&& 0x0000007F#32 = 0x00000037#32 ∧ 0xFFFFFF97#32 &&& 0x0000007F#32 = 0x00000017#32 ∧
    0xFFFFFFEF#32 &&& 0x0000007F#32 = 0x0000006F#32 ∧ 0xFFFFFFE7#32 &&& 0x0000007F#32 = 0x00000067#32 := by
  decide

/-- The logical operations' bit positions: 11, the last of the immediate's own, and 31, its copy. -/
theorem witness_LogicalImmediatesWorkBitByBit :
    (11 < 32 ∧ (immI 0x800#12).getLsbD 11 = true) ∧ 31 < 32 ∧ (immI 0x800#12).getLsbD 31 = true := by
  decide

/-- LB at the last address in range. -/
theorem witness_LbLoadsASignedByte :
    0x0000000F#32 = BitVec.ofInt 32 (((tiny 15 [0x80#8]).readReg 0).toNat + (15#12).toInt) := by
  decide

/-- LH on both sides of the sign: 0x7FFF and 0x8000, in the last two bytes in range. -/
theorem witness_LhLoadsASignedHalfword :
    0x0000000E#32 = BitVec.ofInt 32 (((tiny 14 [0xFF#8, 0x7F#8]).readReg 0).toNat + (14#12).toInt) ∧
    (32767 : Nat) = ((tiny 14 [0xFF#8, 0x7F#8]).readByte ((tiny 14 []).byteAddr 14#32 0)).toNat +
      256 * ((tiny 14 [0xFF#8, 0x7F#8]).readByte ((tiny 14 []).byteAddr 14#32 1)).toNat ∧
    (32768 : Nat) = ((tiny 14 [0x00#8, 0x80#8]).readByte ((tiny 14 []).byteAddr 14#32 0)).toNat +
      256 * ((tiny 14 [0x00#8, 0x80#8]).readByte ((tiny 14 []).byteAddr 14#32 1)).toNat := by
  decide

/-- LW at the address that ends with the last byte in range. -/
theorem witness_LwLoadsTheWord :
    0x0000000C#32 = BitVec.ofInt 32 (((tiny 12 [0x78#8]).readReg 0).toNat + (12#12).toInt) ∧ 3 < 4 := by
  decide

/-- A word store at the end of memory: byte 1 in range, byte 2 out of range, and an address outside it. -/
theorem witness_StoresWriteTheLowBytes :
    (1 < 4 ∧ (tiny 0 []).byteAddr ((tiny 0 []).storeAddr 0 14#12) 1 < (tiny 0 []).capacity) ∧
    (tiny 0 []).capacity ≤ (tiny 0 []).byteAddr ((tiny 0 []).storeAddr 0 14#12) 2 ∧
    ∀ k, k < 4 → 13 ≠ (tiny 0 []).byteAddr ((tiny 0 []).storeAddr 0 14#12) k := by
  decide

/-- BEQ and BNE, taken and not. -/
theorem witness_EqualityBranches :
    let s := machine 0x00001000#32 0x00208463#32 [(1, 5#32), (2, 5#32), (3, 6#32)] []
    s.readReg 1 = s.readReg 2 ∧ ¬s.readReg 1 = s.readReg 3 ∧ s.readReg 1 ≠ s.readReg 3 ∧
    ¬s.readReg 1 ≠ s.readReg 2 := by
  decide

/-- BLT and BGE, taken and not, at the most negative and the most positive value and at equality. -/
theorem witness_SignedBranches :
    let s := machine 0x00001000#32 0x0020C463#32 [(1, 0x80000000#32), (2, 0x7FFFFFFF#32)] []
    (s.readReg 1).toInt < (s.readReg 2).toInt ∧ ¬(s.readReg 2).toInt < (s.readReg 1).toInt ∧
    (s.readReg 1).toInt ≥ (s.readReg 1).toInt ∧ ¬(s.readReg 1).toInt ≥ (s.readReg 2).toInt := by
  decide

/-- BLTU and BGEU, taken and not, at 0 and the largest value and at equality. -/
theorem witness_UnsignedBranches :
    let s := machine 0x00001000#32 0x0020E463#32 [(2, 0xFFFFFFFF#32)] []
    (s.readReg 1).toNat < (s.readReg 2).toNat ∧ ¬(s.readReg 2).toNat < (s.readReg 1).toNat ∧
    (s.readReg 1).toNat ≥ (s.readReg 1).toNat ∧ ¬(s.readReg 1).toNat ≥ (s.readReg 2).toNat := by
  decide

/-- A pair of the list, and both settings of UNIMPL_SIGNAL. -/
theorem witness_UnimplementedWordsDoNothing :
    (Instr.unimplemented63 0x0004148#25, 0x63#7) ∈
      [(Instr.unimplemented33 0x0004148#25, 0x33#7), (Instr.unimplemented13 0x0004148#25, 0x13#7),
        (Instr.unimplemented03 0x0004148#25, 0x03#7), (Instr.unimplemented23 0x0004148#25, 0x23#7),
        (Instr.unimplemented63 0x0004148#25, 0x63#7)] ∧
    State.reset.cfg.unimplSignal = .continues ∧ (reporting State.reset).cfg.unimplSignal = .decodeFault := by
  decide

end Sys2Proof.Tests
end

/-! O31: a step depends on the visible state only. Every shared operation sends states that look alike to states
that look alike, so every instruction, and so every step, does; and the completion signal is the same. -/

namespace Sys2Proof.Machine

/-! ### What states that look alike share -/

section
variable {s₁ s₂ : State} (h : LookAlike s₁ s₂)
include h

theorem LookAlike.readReg_eq (r : Reg) : s₁.readReg r = s₂.readReg r := by
  obtain ⟨hreg, -, -, -⟩ := h
  exact hreg r

theorem LookAlike.pc_eq : s₁.pc = s₂.pc := by
  obtain ⟨-, hpc, -, -⟩ := h
  exact hpc

theorem LookAlike.readByte_eq (a : Nat) : s₁.readByte a = s₂.readByte a := by
  obtain ⟨-, -, hbyte, -⟩ := h
  exact hbyte a

theorem LookAlike.cfg_eq : s₁.cfg = s₂.cfg := by
  obtain ⟨-, -, -, hcfg⟩ := h
  exact hcfg

theorem LookAlike.capacity_eq : s₁.capacity = s₂.capacity := State.capacity_congr h.cfg_eq

theorem LookAlike.byteAddr_eq (addr : Word) (i : Nat) : s₁.byteAddr addr i = s₂.byteAddr addr i :=
  State.byteAddr_congr h.cfg_eq addr i

theorem LookAlike.byteAt_eq (addr : Word) (i : Nat) : s₁.byteAt addr i = s₂.byteAt addr i := by
  unfold State.byteAt
  rw [h.byteAddr_eq, h.readByte_eq]

theorem LookAlike.loadByte_eq (addr : Word) : s₁.loadByte addr = s₂.loadByte addr := h.byteAt_eq addr 0

theorem LookAlike.loadHalf_eq (addr : Word) : s₁.loadHalf addr = s₂.loadHalf addr :=
  State.loadHalf_congr fun k _ => h.byteAt_eq addr k

theorem LookAlike.loadWord_eq (addr : Word) : s₁.loadWord addr = s₂.loadWord addr :=
  State.loadWord_congr fun k _ => h.byteAt_eq addr k

theorem LookAlike.fetch_eq : s₁.fetch = s₂.fetch := by
  unfold State.fetch
  rw [h.pc_eq, h.loadWord_eq]

theorem LookAlike.atHaltVector_eq : s₁.atHaltVector = s₂.atHaltVector := by
  unfold State.atHaltVector
  rw [h.pc_eq]

theorem LookAlike.ia_eq : s₁.ia = s₂.ia := by
  unfold State.ia
  rw [h.pc_eq]

theorem LookAlike.loadAddr_eq (rs1 : Reg) (imm : BitVec 12) : s₁.loadAddr rs1 imm = s₂.loadAddr rs1 imm := by
  unfold State.loadAddr
  rw [h.readReg_eq]

theorem LookAlike.storeAddr_eq (rs1 : Reg) (imm : BitVec 12) : s₁.storeAddr rs1 imm = s₂.storeAddr rs1 imm := by
  unfold State.storeAddr
  rw [h.readReg_eq]

theorem LookAlike.branchTarget_eq (offset : BitVec 13) : s₁.branchTarget offset = s₂.branchTarget offset := by
  unfold State.branchTarget
  rw [h.ia_eq]

theorem LookAlike.jalTarget_eq (offset : BitVec 21) : s₁.jalTarget offset = s₂.jalTarget offset := by
  unfold State.jalTarget
  rw [h.ia_eq]

theorem LookAlike.jalrTarget_eq (rs1 : Reg) (imm : BitVec 12) :
    s₁.jalrTarget rs1 imm = s₂.jalrTarget rs1 imm := by
  unfold State.jalrTarget
  rw [h.readReg_eq]

/-! ### Updates keep the likeness -/

theorem LookAlike.setPc (t : Word) : LookAlike (s₁.setPc t) (s₂.setPc t) :=
  ⟨fun r => by simpa using h.readReg_eq r, rfl, fun a => by simpa using h.readByte_eq a, h.cfg_eq⟩

/-- The signal is not visible, so the two states may even record different ones. -/
theorem LookAlike.setSignal (g₁ g₂ : Signal) : LookAlike (s₁.setSignal g₁) (s₂.setSignal g₂) :=
  ⟨fun r => by simpa using h.readReg_eq r, h.pc_eq, fun a => by simpa using h.readByte_eq a, h.cfg_eq⟩

theorem LookAlike.clearX0 : LookAlike s₁.clearX0 s₂.clearX0 :=
  ⟨fun r => by simpa using h.readReg_eq r, h.pc_eq, fun a => by simpa using h.readByte_eq a, h.cfg_eq⟩

theorem LookAlike.writeReg (rd : Reg) (v : Word) : LookAlike (s₁.writeReg rd v) (s₂.writeReg rd v) :=
  ⟨fun r => by rw [State.readReg_writeReg, State.readReg_writeReg, h.readReg_eq r],
    by simpa using h.pc_eq, fun a => by simpa using h.readByte_eq a, by simpa using h.cfg_eq⟩

theorem LookAlike.writeByte (a : Nat) (v : Byte) : LookAlike (s₁.writeByte a v) (s₂.writeByte a v) :=
  ⟨fun r => by simpa using h.readReg_eq r, by simpa using h.pc_eq,
    fun b => by rw [State.readByte_writeByte, State.readByte_writeByte, h.capacity_eq, h.readByte_eq b],
    by simpa using h.cfg_eq⟩

theorem LookAlike.store (addr : Word) (n : Nat) (v : Word) :
    LookAlike (s₁.store addr n v) (s₂.store addr n v) := by
  induction n with
  | zero => exact h
  | succ k ih =>
    unfold State.store
    rw [h.byteAddr_eq]
    exact ih.writeByte _ _

theorem LookAlike.advance : LookAlike s₁.advance s₂.advance := by
  unfold State.advance
  rw [h.pc_eq]
  exact h.setPc _

end

/-! ### The ways an instruction ends -/

/-- Both answer a next state; these look alike and return the same signal. -/
def ResultsAlike (r₁ r₂ : Result) : Prop :=
  ∃ t₁ t₂, r₁ = .next t₁ ∧ r₂ = .next t₂ ∧ LookAlike t₁ t₂ ∧ t₁.signal = t₂.signal

/-- Two next states that are known already. -/
theorem resultsAlike_next {t₁ t₂ : State} :
    ResultsAlike (.next t₁) (.next t₂) ↔ LookAlike t₁ t₂ ∧ t₁.signal = t₂.signal := by
  constructor
  · rintro ⟨_, _, ⟨⟩, ⟨⟩, h⟩
    exact h
  · exact fun h => ⟨t₁, t₂, rfl, rfl, h⟩

theorem ResultsAlike.finish {r₁ r₂ : Result} (h : ResultsAlike r₁ r₂) :
    ResultsAlike (State.finish r₁) (State.finish r₂) := by
  obtain ⟨t₁, t₂, rfl, rfl, ht, hg⟩ := h
  exact resultsAlike_next.mpr ⟨ht.clearX0, hg⟩

section
variable {s₁ s₂ : State} (h : LookAlike s₁ s₂)
include h

theorem LookAlike.next_setSignal (g : Signal) : ResultsAlike (.next (s₁.setSignal g)) (.next (s₂.setSignal g)) :=
  resultsAlike_next.mpr ⟨h.setSignal g g, rfl⟩

theorem LookAlike.retire : ResultsAlike s₁.retire s₂.retire := h.next_setSignal .continues

theorem LookAlike.retireUnimplemented (op : BitVec 7) :
    ResultsAlike (s₁.retireUnimplemented op) (s₂.retireUnimplemented op) := by
  rw [State.retireUnimplemented_eq, State.retireUnimplemented_eq, h.cfg_eq]
  exact h.next_setSignal _

theorem LookAlike.retire_writeReg (rd : Reg) {v₁ v₂ : Word} (hv : v₁ = v₂) :
    ResultsAlike (s₁.writeReg rd v₁).retire (s₂.writeReg rd v₂).retire := by
  subst hv
  exact (h.writeReg rd v₁).retire

theorem LookAlike.regReg (f : Word → Word → Word) (rd rs1 rs2 : Reg) :
    ResultsAlike (s₁.regReg f rd rs1 rs2) (s₂.regReg f rd rs1 rs2) :=
  h.retire_writeReg rd (by rw [h.readReg_eq rs1, h.readReg_eq rs2])

theorem LookAlike.regImm (f : Word → Word → Word) (rd rs1 : Reg) (imm : BitVec 12) :
    ResultsAlike (s₁.regImm f rd rs1 imm) (s₂.regImm f rd rs1 imm) :=
  h.retire_writeReg rd (by rw [h.readReg_eq rs1])

theorem LookAlike.retire_store (rs1 rs2 : Reg) (imm : BitVec 12) (n : Nat) :
    ResultsAlike (s₁.store (s₁.storeAddr rs1 imm) n (s₁.readReg rs2)).retire
      (s₂.store (s₂.storeAddr rs1 imm) n (s₂.readReg rs2)).retire := by
  rw [h.storeAddr_eq, h.readReg_eq rs2]
  exact (h.store _ n _).retire

theorem LookAlike.branch (cond : Word → Word → Bool) (rs1 rs2 : Reg) (offset : BitVec 13) :
    ResultsAlike (s₁.branch cond rs1 rs2 offset) (s₂.branch cond rs1 rs2 offset) := by
  unfold State.branch
  rw [h.readReg_eq rs1, h.readReg_eq rs2, h.branchTarget_eq]
  split
  · exact (h.setPc _).retire
  · exact h.retire

theorem LookAlike.retire_jump (rd : Reg) {target₁ target₂ : Word} (ht : target₁ = target₂) :
    ResultsAlike ((s₁.writeReg rd s₁.pc).setPc target₁).retire
      ((s₂.writeReg rd s₂.pc).setPc target₂).retire := by
  subst ht
  rw [h.pc_eq]
  exact ((h.writeReg rd _).setPc target₁).retire

/-! ### Every instruction, every step -/

theorem LookAlike.exec (i : Instr) : ResultsAlike (exec i s₁) (exec i s₂) := by
  cases i with
  | add | sub | xor | or | and => exact h.regReg _ _ _ _
  | sll rd rs1 rs2 => exact h.regReg (fun a b => a <<< shamt b) rd rs1 rs2
  | srl rd rs1 rs2 => exact h.regReg (fun a b => a >>> shamt b) rd rs1 rs2
  | sra rd rs1 rs2 => exact h.regReg (fun a b => a.sshiftRight (shamt b)) rd rs1 rs2
  | addi | xori | ori | andi => exact h.regImm _ _ _ _
  | lb rd rs1 imm => exact h.retire_writeReg rd (by rw [h.loadAddr_eq, h.loadByte_eq])
  | lh rd rs1 imm => exact h.retire_writeReg rd (by rw [h.loadAddr_eq, h.loadHalf_eq])
  | lw rd rs1 imm => exact h.retire_writeReg rd (by rw [h.loadAddr_eq, h.loadWord_eq])
  | sb rs1 rs2 imm => exact h.retire_store rs1 rs2 imm 1
  | sh rs1 rs2 imm => exact h.retire_store rs1 rs2 imm 2
  | sw rs1 rs2 imm => exact h.retire_store rs1 rs2 imm 4
  | beq | bne | blt | bge | bltu | bgeu => exact h.branch _ _ _ _
  | lui rd imm20 => exact h.retire_writeReg rd rfl
  | auipc rd imm20 => exact h.retire_writeReg rd (by rw [h.ia_eq])
  | jal rd offset => exact h.retire_jump rd (h.jalTarget_eq offset)
  | jalr rd rs1 imm => exact h.retire_jump rd (h.jalrTarget_eq rs1 imm)
  | unimplemented33 | unimplemented13 | unimplemented03 | unimplemented23 | unimplemented63 =>
    exact h.retireUnimplemented _

theorem LookAlike.step : ResultsAlike (step s₁) (step s₂) := by
  unfold Machine.step
  rw [h.atHaltVector_eq, h.fetch_eq]
  split
  · exact h.next_setSignal .halted
  · split
    · exact (h.advance.exec _).finish
    · exact (h.advance.next_setSignal _).finish

end

/-- Settles O31: the halt test and the fetched word are the same in both states, and the instruction sends states
that look alike to states that look alike. -/
theorem onlyVisibleStateIsCarried : Obligations.OnlyVisibleStateIsCarried := by
  intro s₁ s₂ t₁ t₂ h h₁ h₂
  have hstep := h.step
  rw [h₁, h₂] at hstep
  exact resultsAlike_next.mp hstep

end Sys2Proof.Machine

/-! O22: the pc at the end of a step. One lemma per way of ending an instruction says which pc it leaves, from the
advanced state on which instructions execute; each instruction of the table of R28 then cites its family's lemma. -/

namespace Sys2Proof.Machine

/-! ### The branch comparisons as propositions -/

theorem condEq_iff {a b : Word} : condEq a b = true ↔ a = b := beq_iff_eq

theorem condNe_iff {a b : Word} : condNe a b = true ↔ a ≠ b := bne_iff_ne

theorem condLt_iff {a b : Word} : condLt a b = true ↔ a.toInt < b.toInt := BitVec.slt_iff_toInt_lt

theorem condGe_iff {a b : Word} : condGe a b = true ↔ a.toInt ≥ b.toInt := BitVec.sle_iff_toInt_le

theorem condLtu_iff {a b : Word} : condLtu a b = true ↔ a.toNat < b.toNat := BitVec.ult_iff_lt

theorem condGeu_iff {a b : Word} : condGeu a b = true ↔ a.toNat ≥ b.toNat := BitVec.ule_iff_le

/-! ### Targets seen from the address of the instruction -/

/-- After the advance, `ia` is the pc the step began with (spec/10_state.md R26). -/
@[simp] theorem State.advance_ia (s : State) : s.advance.ia = s.pc := BitVec.add_sub_cancel s.pc 4#32

@[simp] theorem State.advance_branchTarget (s : State) (offset : BitVec 13) :
    s.advance.branchTarget offset = s.pc + offset.signExtend 32 :=
  congrArg (· + immB offset) s.advance_ia

@[simp] theorem State.advance_jalTarget (s : State) (offset : BitVec 21) :
    s.advance.jalTarget offset = s.pc + offset.signExtend 32 :=
  congrArg (· + immJ offset) s.advance_ia

@[simp] theorem State.advance_jalrTarget (s : State) (rs1 : Reg) (imm : BitVec 12) :
    s.advance.jalrTarget rs1 imm = (s.readReg rs1 + imm.signExtend 32) &&& 0xFFFFFFFE#32 := rfl

/-! ### The pc each way of ending leaves -/

section
variable {s t : State}

theorem State.pc_of_retire_writeReg {rd : Reg} {v : Word} (h : (s.writeReg rd v).retire = .next t) :
    t.pc = s.pc := by
  cases h
  simp

theorem State.pc_of_retire_store {addr v : Word} {n : Nat} (h : (s.store addr n v).retire = .next t) :
    t.pc = s.pc := by
  cases h
  simp

theorem State.pc_of_retireUnimplemented {op : BitVec 7} (h : s.retireUnimplemented op = .next t) :
    t.pc = s.pc := by
  rw [State.retireUnimplemented_eq] at h
  cases h
  simp

theorem State.pc_of_retire_jump {target : Word} (h : (s.setPc target).retire = .next t) : t.pc = target := by
  cases h
  simp

/-- A branch whose comparison decides `p`, from the address of the branch. -/
theorem State.pc_of_advance_branch {cond : Word → Word → Bool} {rs1 rs2 : Reg} {offset : BitVec 13} {p : Prop}
    [Decidable p] (hp : cond (s.readReg rs1) (s.readReg rs2) = true ↔ p)
    (h : s.advance.branch cond rs1 rs2 offset = .next t) :
    t.pc = if p then s.pc + offset.signExtend 32 else s.pc + 4#32 := by
  obtain ⟨t', ht', htaken, hnot, -⟩ := s.advance.branch_result cond rs1 rs2 offset
  obtain rfl : t' = t := Host.Outcome.next.inj (ht'.symm.trans h)
  simp only [State.advance_readReg, State.advance_branchTarget, State.advance_pc, hp] at htaken hnot
  split
  · exact htaken ‹p›
  · exact hnot ‹¬p›

end

/-- Settles O22: a step is the halt, an instruction or an unknown opcode, and an instruction leaves the pc of its
family: a branch, a jump, or one of those that leave it advanced. -/
theorem pcAfterEachStep : Obligations.PcAfterEachStep := by
  intro s t h
  rcases step_cases h with ⟨hh, rfl⟩ | ⟨hf, i, u, hd, hu, rfl⟩ | ⟨hf, op, hd, rfl⟩
  · exact ⟨fun _ => s.raiseHalted_pc, fun hf => by simp [hh] at hf⟩
  · refine ⟨fun hh => by simp [hf] at hh, fun _ => ⟨fun op hop => by simp [hd] at hop, fun j hj => ?_⟩⟩
    obtain rfl : i = j := Decoded.instr.inj (hd.symm.trans hj)
    rw [State.clearX0_pc]
    cases i with
    | beq => exact State.pc_of_advance_branch condEq_iff hu
    | bne => exact State.pc_of_advance_branch condNe_iff hu
    | blt => exact State.pc_of_advance_branch condLt_iff hu
    | bge => exact State.pc_of_advance_branch condGe_iff hu
    | bltu => exact State.pc_of_advance_branch condLtu_iff hu
    | bgeu => exact State.pc_of_advance_branch condGeu_iff hu
    | jal rd offset => exact (State.pc_of_retire_jump hu).trans (s.advance_jalTarget offset)
    | jalr rd rs1 imm => exact (State.pc_of_retire_jump hu).trans (s.advance_jalrTarget rs1 imm)
    | sb | sh | sw => exact State.pc_of_retire_store hu
    | unimplemented33 | unimplemented13 | unimplemented03 | unimplemented23 | unimplemented63 =>
      exact State.pc_of_retireUnimplemented hu
    | add | sub | sll | xor | srl | sra | or | and | addi | xori | ori | andi | lb | lh | lw | lui | auipc =>
      exact State.pc_of_retire_writeReg hu
  · refine ⟨fun hh => by simp [hf] at hh, fun _ => ⟨fun _ _ => ?_, fun i hi => by simp [hd] at hi⟩⟩
    simp only [State.clearX0_pc, State.raiseDecodeFault_pc, State.advance_pc]

end Sys2Proof.Machine

/-! Family 20_memory (O11, O12, O14, O15, O29): words and halfwords read from bytes that are known, an image read
back after it is copied in, and the parameters under every instruction and every step. -/

namespace Sys2Proof.Machine

/-! ### Words and halfwords from known bytes -/

/-- A word read is the value whose bytes stand at its four addresses (spec/20_memory.md R44, R51). -/
theorem State.loadWord_eq_of_bytes {s : State} {addr v : Word}
    (h : ∀ k, k < 4 → s.byteAt addr k = v.extractLsb' (8 * k) 8) : s.loadWord addr = v := by
  apply BitVec.eq_of_toNat_eq
  rw [State.loadWord_toNat, toNat_eq_bytes v, h 0 (by omega), h 1 (by omega), h 2 (by omega), h 3 (by omega)]

/-- Out of range, a byte of an access is 0 (R42). -/
theorem State.byteAt_of_le {s : State} {addr : Word} {k : Nat} (h : s.capacity ≤ s.byteAddr addr k) :
    s.byteAt addr k = 0#8 :=
  State.readByte_of_le h

section
variable {s : State} {addr : Word} (h : ∀ k, k < 4 → s.capacity ≤ s.byteAddr addr k)
include h

theorem State.loadByte_eq_zero : s.loadByte addr = 0#8 := State.byteAt_of_le (h 0 (by omega))

theorem State.loadHalf_eq_zero : s.loadHalf addr = 0#16 := by
  unfold State.loadHalf
  rw [State.byteAt_of_le (h 0 (by omega)), State.byteAt_of_le (h 1 (by omega))]
  rfl

theorem State.loadWord_eq_zero : s.loadWord addr = 0#32 :=
  State.loadWord_eq_of_bytes fun k hk => by rw [State.byteAt_of_le (h k hk), BitVec.extractLsb'_zero]

end

/-! ### Stores and loads at one address -/

/-- The effective addresses of a load and a store agree where the base registers do: both displacements are
12 bits sign-extended (spec/30_encoding.md R74, R75). -/
theorem State.loadAddr_eq_storeAddr {s t : State} (h : SameRegs s t) (rs1 : Reg) (imm : BitVec 12) :
    t.loadAddr rs1 imm = s.storeAddr rs1 imm :=
  congrArg (· + immI imm) (h rs1)

/-- A word wholly in range reads as it was stored (spec/20_memory.md R49). -/
theorem StoreResult.loadWord {s t : State} {addr v : Word} (h : StoreResult s t addr 4 v)
    (hc : ∀ k, k < 4 → s.byteAddr addr k < s.capacity) : t.loadWord addr = v := by
  obtain ⟨hbytes, -, -, -, -, hcfg, -⟩ := h
  refine State.loadWord_eq_of_bytes fun k hk => ?_
  unfold State.byteAt
  rw [State.byteAddr_congr hcfg]
  exact hbytes k hk (hc k hk)

/-- A register result shows the value in its register, if that is not x0. -/
theorem RegResult.readReg {s t : State} {rd : Reg} {v : Word} (h : RegResult s t rd v) (hrd : rd ≠ 0) :
    t.readReg rd = v := by
  obtain ⟨hreg, -⟩ := h
  rw [hreg rd, if_pos ⟨rfl, hrd⟩]

/-- SW then LW at the same address, wholly in range (R49). -/
theorem exec_sw_then_lw (s : State) (rs1 rs2 : Reg) {rd : Reg} (imm : BitVec 12) (hrd : rd ≠ 0)
    (hc : ∀ k, k < 4 → s.byteAddr (s.storeAddr rs1 imm) k < s.capacity) :
    ∃ t u, exec (.sw rs1 rs2 imm) s = .next t ∧ exec (.lw rd rs1 imm) t = .next u ∧
      u.readReg rd = s.readReg rs2 := by
  obtain ⟨t, ht, hstore⟩ := s.retire_store (s.storeAddr rs1 imm) (le_refl 4) (s.readReg rs2)
  obtain ⟨u, hu, hload⟩ := t.retire_writeReg rd (t.loadWord (t.loadAddr rs1 imm))
  have ⟨_, _, _, hregs, _⟩ := hstore
  refine ⟨t, u, ht, hu, ?_⟩
  rw [hload.readReg hrd, State.loadAddr_eq_storeAddr hregs, hstore.loadWord hc]

/-- Settles O11: a read after a write, by the two addresses and the capacity, and SW then LW. -/
theorem memoryPropertiesOfTheSource : Obligations.MemoryPropertiesOfTheSource := by
  refine ⟨fun s a v ha => ?inRange, fun s a v b ha => ⟨State.readByte_of_le ha, ?outOfRange⟩,
    fun s a v b hb => ?otherByte, fun s rs1 rs2 rd imm hrd hc => exec_sw_then_lw s rs1 rs2 imm hrd hc⟩
  case inRange => rw [State.readByte_writeByte, if_pos ⟨rfl, ha⟩]
  case outOfRange => rw [State.readByte_writeByte, if_neg fun h => absurd h.2 (Nat.not_lt.mpr ha)]
  case otherByte => rw [State.readByte_writeByte, if_neg fun h => hb h.1]

/-- Writing one register with a value known to be `w`, and retiring. -/
theorem State.retire_writeReg_of_eq (s : State) (rd : Reg) {v w : Word} (hv : v = w) :
    ∃ t, (s.writeReg rd v).retire = .next t ∧ RegResult s t rd w :=
  hv ▸ s.retire_writeReg rd v

/-- Settles O12: every byte out of range is 0, so is every value made of such bytes, and a sign extension of 0
is 0. -/
theorem outOfRangeReadsGiveZero : Obligations.OutOfRangeReadsGiveZero := by
  refine ⟨fun s a ha => State.readByte_of_le ha, fun s h => State.loadWord_eq_zero h,
    fun s rd rs1 imm h => ⟨?lb, ?lh, ?lw⟩⟩
  case lb => exact s.retire_writeReg_of_eq rd (by simp [State.loadByte_eq_zero h])
  case lh => exact s.retire_writeReg_of_eq rd (by simp [State.loadHalf_eq_zero h])
  case lw => exact s.retire_writeReg_of_eq rd (State.loadWord_eq_zero h)

/-! ### An image copied in -/

/-- A byte before or after the copied ones is not changed. -/
theorem State.readByte_copyIn_of_outside (bs : List Byte) (s : State) {start a : Nat}
    (ha : a < start ∨ start + bs.length ≤ a) : (s.copyIn start bs).readByte a = s.readByte a := by
  induction bs generalizing s start with
  | nil => rfl
  | cons b bs ih =>
    rw [List.length_cons] at ha
    rw [State.copyIn, ih _ (by omega), State.readByte_writeByte, if_neg (by omega)]

/-- Byte `i` of the copied ones is read back at `start + i`, if it lies in range. -/
theorem State.readByte_copyIn (bs : List Byte) (s : State) {start i : Nat} (hi : i < bs.length)
    (hc : start + i < s.capacity) : (s.copyIn start bs).readByte (start + i) = bs[i] := by
  induction bs generalizing s start i with
  | nil => exact absurd hi (Nat.not_lt_zero i)
  | cons b bs ih =>
    rw [State.copyIn]
    cases i with
    | zero =>
      rw [Nat.add_zero] at hc ⊢
      rw [State.readByte_copyIn_of_outside bs _ (by omega), State.readByte_writeByte, if_pos ⟨rfl, hc⟩]
      rfl
    | succ i =>
      have hshift : start + (i + 1) = start + 1 + i := by omega
      rw [hshift] at hc ⊢
      exact ih (s.writeByte start b) (Nat.lt_of_succ_lt_succ hi) (by rwa [State.writeByte_capacity])

/-- Settles O14: an image that fits is the bytes copied in from 0; one that does not changes nothing. -/
theorem loadImageCopiesOrRejects : Obligations.LoadImageCopiesOrRejects := by
  intro s bytes
  refine ⟨State.loadImage_of_lt, fun hfit => ⟨_, State.loadImage_of_le hfit, fun i hi => ?_, fun a ha => ?_,
    s.copyIn_regs bytes 0, s.copyIn_pc bytes 0, s.copyIn_cfg bytes 0⟩⟩
  · simpa using State.readByte_copyIn bytes s (start := 0) hi (by omega)
  · exact State.readByte_copyIn_of_outside bytes s (by omega)

/-- Settles O15: the word is the weighted sum of its bytes, and a byte out of range is 0. -/
theorem readWordIsLittleEndian : Obligations.ReadWordIsLittleEndian :=
  fun s addr => ⟨s.loadWord_toNat addr, fun _ hk => State.readByte_of_le hk⟩

/-! ### The parameters -/

theorem State.cfg_of_retire {s t : State} (h : s.retire = .next t) : t.cfg = s.cfg := by
  cases h
  rfl

theorem State.cfg_of_retireUnimplemented {s t : State} {op : BitVec 7}
    (h : s.retireUnimplemented op = .next t) : t.cfg = s.cfg := by
  rw [State.retireUnimplemented_eq] at h
  cases h
  rfl

theorem State.cfg_of_branch {s t : State} {cond : Word → Word → Bool} {rs1 rs2 : Reg} {offset : BitVec 13}
    (h : s.branch cond rs1 rs2 offset = .next t) : t.cfg = s.cfg := by
  unfold State.branch at h
  split at h
  · exact (State.cfg_of_retire h).trans (s.setPc_cfg _)
  · exact State.cfg_of_retire h

/-- No instruction changes a parameter: each ends by retiring after a register write, a store or a jump, by a
branch, or as a recognised-unimplemented word. -/
theorem exec_cfg {i : Instr} {s t : State} (h : exec i s = .next t) : t.cfg = s.cfg := by
  cases i with
  | add | sub | sll | xor | srl | sra | or | and | addi | xori | ori | andi | lb | lh | lw | lui | auipc =>
    exact (State.cfg_of_retire h).trans (s.writeReg_cfg _ _)
  | jal | jalr => exact (State.cfg_of_retire h).trans (s.writeReg_cfg _ _)
  | sb | sh | sw => exact (State.cfg_of_retire h).trans (s.store_cfg _ _ _)
  | beq | bne | blt | bge | bltu | bgeu => exact State.cfg_of_branch h
  | unimplemented33 | unimplemented13 | unimplemented03 | unimplemented23 | unimplemented63 =>
    exact State.cfg_of_retireUnimplemented h

/-- No step changes a parameter (spec/10_state.md R21). -/
theorem step_cfg {s t : State} (h : step s = .next t) : t.cfg = s.cfg := by
  rcases step_cases h with ⟨-, rfl⟩ | ⟨-, i, u, -, hu, rfl⟩ | ⟨-, op, -, rfl⟩
  · exact s.raiseHalted_cfg
  · exact (exec_cfg hu).trans s.advance_cfg
  · rfl

/-- Loading an image, accepted or rejected, leaves the capacity. -/
theorem State.loadImage_capacity (s : State) (bytes : List Byte) :
    (s.loadImage bytes).2.capacity = s.capacity := by
  rcases Nat.lt_or_ge s.capacity bytes.length with hlong | hfit
  · rw [State.loadImage_of_lt hlong]
  · rw [State.loadImage_of_le hfit, State.copyIn_capacity]

/-- Settles O29: the capacity is one of the parameters, which no step changes, and writing, loading and resetting
leave it. -/
theorem capacityNeverChanges : Obligations.CapacityNeverChanges :=
  ⟨fun _ _ h => ⟨State.capacity_congr (step_cfg h), step_cfg h⟩, State.loadImage_capacity,
    State.writeByte_capacity, State.engineReset_capacity⟩

end Sys2Proof.Machine

/-! Family 30_encoding (O9): the bits of a sign extension, of the two fields that a word holds for the S and U
formats, and of the immediates made from them. -/

namespace Sys2Proof

/-- Sign extension repeats the top bit: past it, every position reads it again. -/
theorem getLsbD_signExtend_eq_min {n m k : Nat} (x : BitVec n) (hk : k < m) :
    (x.signExtend m).getLsbD k = x.getLsbD (min k (n - 1)) := by
  rw [BitVec.getLsbD_signExtend, decide_eq_true hk, Bool.true_and]
  split
  case isTrue hn => rw [Nat.min_eq_left (by omega)]
  case isFalse hn => rw [Nat.min_eq_right (by omega), BitVec.msb_eq_getLsbD_last]

/-- The S field is `inst[31:25]` over `inst[11:7]` (spec/30_encoding.md R75). -/
theorem Decode.immS_getLsbD (w : Word) {k : Nat} (hk : k < 12) :
    (Decode.immS w).getLsbD k = if k < 5 then w.getLsbD (7 + k) else w.getLsbD (20 + k) := by
  rw [Decode.immS, BitVec.getLsbD_append]
  split
  case isTrue hlow => simp [hlow]
  case isFalse hhigh =>
    have hpos : 25 + (k - 5) = 20 + k := by omega
    have hlen : k - 5 < 7 := by omega
    simp [hpos, hlen]

/-- The U field is `inst[31:12]` (R77). -/
theorem Decode.immU_getLsbD (w : Word) {k : Nat} (hk : k < 20) :
    (Decode.immU w).getLsbD k = w.getLsbD (12 + k) := by
  simp [Decode.immU, hk]

end Sys2Proof

namespace Sys2Proof.Machine

theorem immS_getLsbD (imm : BitVec 12) {k : Nat} (hk : k < 32) :
    (immS imm).getLsbD k = imm.getLsbD (min k 11) :=
  getLsbD_signExtend_eq_min imm hk

theorem immU_getLsbD (imm20 : BitVec 20) (k : Nat) :
    (immU imm20).getLsbD k = if k < 12 then false else imm20.getLsbD (k - 12) := by
  rw [immU, BitVec.getLsbD_append, BitVec.getLsbD_zero]

/-- Bits 31:11 of the S immediate are the top bit of the field, which is bit 31 of the word. -/
theorem immS_decode_getLsbD (w : Word) {k : Nat} (hk : k < 32) :
    (immS (Decode.immS w)).getLsbD k =
      if k < 5 then w.getLsbD (7 + k) else if k < 11 then w.getLsbD (20 + k) else w.getLsbD 31 := by
  rw [immS_getLsbD _ hk, Decode.immS_getLsbD w (by omega)]
  rcases Nat.lt_or_ge k 11 with hfield | hsign
  · rw [Nat.min_eq_left (by omega), if_pos hfield]
  · rw [Nat.min_eq_right hsign, if_neg (by omega), if_neg (by omega), if_neg (by omega)]

/-- The U field stands in the immediate where it stands in the word. -/
theorem immU_decode_getLsbD (w : Word) {k : Nat} (hk : k < 32) :
    (immU (Decode.immU w)).getLsbD k = if k < 12 then false else w.getLsbD k := by
  rw [immU_getLsbD]
  split
  case isTrue => rfl
  case isFalse hfield => rw [Decode.immU_getLsbD w (by omega), Nat.add_sub_cancel' (by omega)]

/-- Settles O9: the sign-extended S field, and the U field over its twelve zeros. -/
theorem storeAndUpperImmediateBits : Obligations.StoreAndUpperImmediateBits :=
  fun w _ hk => ⟨immS_decode_getLsbD w hk, immU_decode_getLsbD w hk⟩

end Sys2Proof.Machine

/-! Family 40_step_cycle (O16, O20): what a step answers on each of its three ways, the halt, a decoded instruction
and an unknown opcode, and that no instruction and no step fails to answer. -/

namespace Sys2Proof.Machine

/-! ### The three ways of a step -/

/-- The halt compare is that of the pc with bit 0 masked (spec/40_step_cycle.md R101). -/
theorem State.atHaltVector_eq_true_iff (s : State) :
    s.atHaltVector = true ↔ s.pc &&& 0xFFFFFFFE#32 = 0xFFFFFFFE#32 := beq_iff_eq

theorem State.atHaltVector_eq_false_iff (s : State) :
    s.atHaltVector = false ↔ s.pc &&& 0xFFFFFFFE#32 ≠ 0xFFFFFFFE#32 := beq_eq_false_iff_ne

section
variable {s : State}

theorem step_of_atHaltVector (hh : s.atHaltVector = true) : step s = .next s.raiseHalted := if_pos hh

theorem step_of_instr {i : Instr} (hf : s.atHaltVector = false) (hd : decode s.fetch = .instr i) :
    step s = State.finish (exec i s.advance) := by
  simp [step, hf, hd]

theorem step_of_unknownOpcode {op : BitVec 7} (hf : s.atHaltVector = false)
    (hd : decode s.fetch = .unknownOpcode op) : step s = .next (s.advance.raiseDecodeFault op).clearX0 := by
  simp [step, State.finish, hf, hd]

end

/-- Settles O16: at the halt vector only the signal changes; otherwise the instruction runs on the advanced state
and slot 0 is cleared, or the unknown opcode is signalled there. -/
theorem stepRunsTheDecodedInstruction : Obligations.StepRunsTheDecodedInstruction := by
  intro s
  refine ⟨fun hpc => step_of_atHaltVector (s.atHaltVector_eq_true_iff.mpr hpc), fun hpc => ?_⟩
  have hf : s.atHaltVector = false := s.atHaltVector_eq_false_iff.mpr hpc
  refine ⟨fun i t hd ht => ?instr, fun op hd => step_of_unknownOpcode hf hd⟩
  case instr =>
    have hexec : exec i s.advance = .next t := ht
    exact (step_of_instr hf hd).trans (State.finish_eq_next.mpr ⟨t, hexec, rfl⟩)

/-! ### Totality -/

theorem LookAlike.refl (s : State) : LookAlike s s := ⟨fun _ => rfl, rfl, fun _ => rfl, rfl⟩

/-- Every instruction answers a next state: it sends any two states that look alike to next states, and so a state
paired with itself. -/
theorem exec_next (i : Instr) (s : State) : ∃ t, exec i s = .next t := by
  obtain ⟨t, -, ht, -⟩ := (LookAlike.refl s).exec i
  exact ⟨t, ht⟩

/-- Every step answers a next state, on each of its three ways (R111). -/
theorem step_next (s : State) : ∃ t, step s = .next t := by
  cases hh : s.atHaltVector with
  | true => exact ⟨_, step_of_atHaltVector hh⟩
  | false =>
    cases hd : decode s.fetch with
    | instr i =>
      obtain ⟨u, hu⟩ := exec_next i s.advance
      exact ⟨_, (step_of_instr hh hd).trans (State.finish_eq_next.mpr ⟨u, hu, rfl⟩)⟩
    | unknownOpcode op => exact ⟨_, step_of_unknownOpcode hh hd⟩

/-- Settles O20: no step and no instruction fails to answer a next state. -/
theorem stepIsTotal : Obligations.StepIsTotal := ⟨step_next, exec_next⟩

end Sys2Proof.Machine

/-! Family 41_register_register (O39 to O44): the words that select an instruction, from the fields its mask
examines; the rows of opcode 0x33; and the value of each operation as arithmetic on numbers. -/

namespace Sys2Proof.Machine

/-! ### Words selected by their fields -/

section
variable {p : Word} {op f7 : BitVec 7} {f3 : BitVec 3} {mk : Word → Instr}

/-- A pattern under the mask 0x0000707F selects by opcode and funct3 (spec/30_encoding.md R80). -/
theorem selects_of_funct3
    (hp : p &&& 0x0000707F#32 = p ∧ Decode.opcode p = op ∧ Decode.funct3 p = f3)
    (h : ∀ w, Decode.opcode w = op → Decode.funct3 w = f3 → decode w = .instr (mk w)) :
    Selects 0x0000707F#32 p mk := by
  intro w hw
  obtain ⟨hmask, rfl, rfl⟩ := hp
  obtain ⟨hop, hf3⟩ := (mask707F_iff hmask).mp hw
  exact h w hop hf3

/-- A pattern under the mask 0xFE00707F selects by opcode, funct3 and funct7 (R80). -/
theorem selects_of_funct7
    (hp : p &&& 0xFE00707F#32 = p ∧ Decode.opcode p = op ∧ Decode.funct3 p = f3 ∧ Decode.funct7 p = f7)
    (h : ∀ w, Decode.opcode w = op → Decode.funct3 w = f3 → Decode.funct7 w = f7 →
      decode w = .instr (mk w)) :
    Selects 0xFE00707F#32 p mk := by
  intro w hw
  obtain ⟨hmask, rfl, rfl, rfl⟩ := hp
  obtain ⟨hop, hf3, hf7⟩ := (maskFE00707F_iff hmask).mp hw
  exact h w hop hf3 hf7

end

/-! ### The rows of opcode 0x33 (spec/30_encoding.md R83) -/

section
variable {w : Word}

theorem decode_of_opcode_33 {i : Instr} (hop : Decode.opcode w = 0x33#7) (hi : Decode.regReg w = i) :
    decode w = .instr i := by
  rw [decode, hop, hi]; rfl

theorem regReg_eq_add (h3 : Decode.funct3 w = 0#3) (h7 : Decode.funct7 w = 0x00#7) :
    Decode.regReg w = asR .add w := by
  rw [Decode.regReg, h3, h7]; rfl

theorem regReg_eq_sub (h3 : Decode.funct3 w = 0#3) (h7 : Decode.funct7 w = 0x20#7) :
    Decode.regReg w = asR .sub w := by
  rw [Decode.regReg, h3, h7]; rfl

theorem regReg_eq_sll (h3 : Decode.funct3 w = 1#3) : Decode.regReg w = asR .sll w := by
  rw [Decode.regReg, h3]; rfl

theorem regReg_eq_xor (h3 : Decode.funct3 w = 4#3) : Decode.regReg w = asR .xor w := by
  rw [Decode.regReg, h3]; rfl

theorem regReg_eq_srl (h3 : Decode.funct3 w = 5#3) (h7 : Decode.funct7 w = 0x00#7) :
    Decode.regReg w = asR .srl w := by
  rw [Decode.regReg, h3, h7]; rfl

theorem regReg_eq_sra (h3 : Decode.funct3 w = 5#3) (h7 : Decode.funct7 w = 0x20#7) :
    Decode.regReg w = asR .sra w := by
  rw [Decode.regReg, h3, h7]; rfl

theorem regReg_eq_or (h3 : Decode.funct3 w = 6#3) : Decode.regReg w = asR .or w := by
  rw [Decode.regReg, h3]; rfl

theorem regReg_eq_and (h3 : Decode.funct3 w = 7#3) : Decode.regReg w = asR .and w := by
  rw [Decode.regReg, h3]; rfl

end

/-! ### The results (spec/41_register_register.md R120) -/

/-- A register-register instruction whose value is known to be `v`. -/
theorem State.regReg_result (s : State) (f : Word → Word → Word) (rd rs1 rs2 : Reg) {v : Word}
    (hv : f (s.readReg rs1) (s.readReg rs2) = v) :
    ∃ t, s.regReg f rd rs1 rs2 = .next t ∧ RegResult s t rd v :=
  s.retire_writeReg_of_eq rd hv

/-- A register-register instruction that combines its operands bit by bit. -/
theorem State.regReg_bitwise (s : State) {f : Word → Word → Word} {g : Bool → Bool → Bool} (rd rs1 rs2 : Reg)
    (hf : ∀ a b k, (f a b).getLsbD k = g (a.getLsbD k) (b.getLsbD k)) :
    ∃ t v, s.regReg f rd rs1 rs2 = .next t ∧ RegResult s t rd v ∧
      ∀ k, v.getLsbD k = g ((s.readReg rs1).getLsbD k) ((s.readReg rs2).getLsbD k) := by
  obtain ⟨t, ht, hres⟩ := s.regReg_result f rd rs1 rs2 rfl
  exact ⟨t, _, ht, hres, hf _ _⟩

/-! ### The values as numbers -/

section
variable (a b : Word)

theorem add_eq_ofNat : a + b = BitVec.ofNat 32 (a.toNat + b.toNat) := by
  simp [BitVec.ofNat_add]

theorem sub_eq_ofInt : a - b = BitVec.ofInt 32 (a.toNat - b.toNat) := by
  rw [Int.sub_eq_add_neg, BitVec.ofInt_add, BitVec.ofInt_neg]
  simp [BitVec.sub_eq_add_neg]

/-- Bits shifted past bit 31 are lost (R123). -/
theorem shiftLeft_shamt_eq_ofNat : a <<< shamt b = BitVec.ofNat 32 (a.toNat * 2 ^ (b.toNat % 32)) := by
  apply BitVec.eq_of_toNat_eq
  rw [shamt_eq_mod, BitVec.toNat_shiftLeft, Nat.shiftLeft_eq, BitVec.toNat_ofNat]

theorem ushiftRight_shamt_eq_ofNat : a >>> shamt b = BitVec.ofNat 32 (a.toNat / 2 ^ (b.toNat % 32)) := by
  have hlt := Nat.lt_of_le_of_lt (Nat.div_le_self a.toNat (2 ^ (b.toNat % 32))) a.isLt
  apply BitVec.eq_of_toNat_eq
  rw [shamt_eq_mod, BitVec.toNat_ushiftRight, Nat.shiftRight_eq_div_pow, BitVec.toNat_ofNat, Nat.mod_eq_of_lt hlt]

/-- `Int` division by a positive number rounds toward minus infinity, as the shift does (R126). -/
theorem sshiftRight_shamt_eq_ofInt :
    a.sshiftRight (shamt b) = BitVec.ofInt 32 (a.toInt / 2 ^ (b.toNat % 32)) := by
  rw [shamt_eq_mod, BitVec.sshiftRight, Int.shiftRight_eq_div_pow, Nat.cast_pow, Nat.cast_ofNat]

end

/-! ### The obligations -/

/-- Settles O39: the row of opcode 0x33 with funct3 0 and funct7 0x00, and the sum modulo 2^32. -/
theorem addWritesTheSum : Obligations.AddWritesTheSum :=
  ⟨selects_of_funct7 (by decide) fun _ hop h3 h7 => decode_of_opcode_33 hop (regReg_eq_add h3 h7),
    fun s rd rs1 rs2 => s.regReg_result (fun a b => a + b) rd rs1 rs2 (add_eq_ofNat _ _)⟩

/-- Settles O40: the row with funct3 0 and funct7 0x20, and the difference modulo 2^32. -/
theorem subWritesTheDifference : Obligations.SubWritesTheDifference :=
  ⟨selects_of_funct7 (by decide) fun _ hop h3 h7 => decode_of_opcode_33 hop (regReg_eq_sub h3 h7),
    fun s rd rs1 rs2 => s.regReg_result (fun a b => a - b) rd rs1 rs2 (sub_eq_ofInt _ _)⟩

/-- Settles O41: the row with funct3 1, any funct7, and the product with a power of two modulo 2^32. -/
theorem sllShiftsLeft : Obligations.SllShiftsLeft :=
  ⟨selects_of_funct3 (by decide) fun _ hop h3 => decode_of_opcode_33 hop (regReg_eq_sll h3),
    fun s rd rs1 rs2 => s.regReg_result (fun a b => a <<< shamt b) rd rs1 rs2 (shiftLeft_shamt_eq_ofNat _ _)⟩

/-- Settles O42: the row with funct3 5 and funct7 0x00, and the unsigned quotient by a power of two. -/
theorem srlShiftsRightLogically : Obligations.SrlShiftsRightLogically :=
  ⟨selects_of_funct7 (by decide) fun _ hop h3 h7 => decode_of_opcode_33 hop (regReg_eq_srl h3 h7),
    fun s rd rs1 rs2 => s.regReg_result (fun a b => a >>> shamt b) rd rs1 rs2 (ushiftRight_shamt_eq_ofNat _ _)⟩

/-- Settles O43: the row with funct3 5 and funct7 0x20, and the floor of the signed quotient. -/
theorem sraShiftsRightArithmetically : Obligations.SraShiftsRightArithmetically :=
  ⟨selects_of_funct7 (by decide) fun _ hop h3 h7 => decode_of_opcode_33 hop (regReg_eq_sra h3 h7),
    fun s rd rs1 rs2 =>
      s.regReg_result (fun a b => a.sshiftRight (shamt b)) rd rs1 rs2 (sshiftRight_shamt_eq_ofInt _ _)⟩

/-- Settles O44: the rows with funct3 4, 6 and 7, any funct7, and each operation on one bit. -/
theorem xorOrAndWorkBitByBit : Obligations.XorOrAndWorkBitByBit := by
  refine ⟨selects_of_funct3 (by decide) fun _ hop h3 => decode_of_opcode_33 hop (regReg_eq_xor h3),
    selects_of_funct3 (by decide) fun _ hop h3 => decode_of_opcode_33 hop (regReg_eq_or h3),
    selects_of_funct3 (by decide) fun _ hop h3 => decode_of_opcode_33 hop (regReg_eq_and h3),
    fun s rd rs1 rs2 => ⟨?xor, ?or, ?and⟩⟩
  case xor => exact s.regReg_bitwise (g := bne) rd rs1 rs2 fun _ _ _ => BitVec.getLsbD_xor
  case or => exact s.regReg_bitwise (g := or) rd rs1 rs2 fun _ _ _ => BitVec.getLsbD_or
  case and => exact s.regReg_bitwise (g := and) rd rs1 rs2 fun _ _ _ => BitVec.getLsbD_and

end Sys2Proof.Machine

/-! Family 42_register_immediate (O45, O46): the rows of opcode 0x13, the bits of the I immediate, and what a
register-immediate instruction writes. -/

namespace Sys2Proof.Machine

/-! ### The rows of opcode 0x13 (spec/30_encoding.md R80, R82) -/

section
variable {w : Word}

theorem decode_of_opcode_13 {i : Instr} (hop : Decode.opcode w = 0x13#7) (hi : Decode.regImm w = i) :
    decode w = .instr i := by
  rw [decode, hop, hi]; rfl

theorem regImm_eq_addi (h3 : Decode.funct3 w = 0#3) : Decode.regImm w = asI .addi w := by
  rw [Decode.regImm, h3]; rfl

theorem regImm_eq_xori (h3 : Decode.funct3 w = 4#3) : Decode.regImm w = asI .xori w := by
  rw [Decode.regImm, h3]; rfl

theorem regImm_eq_ori (h3 : Decode.funct3 w = 6#3) : Decode.regImm w = asI .ori w := by
  rw [Decode.regImm, h3]; rfl

theorem regImm_eq_andi (h3 : Decode.funct3 w = 7#3) : Decode.regImm w = asI .andi w := by
  rw [Decode.regImm, h3]; rfl

end

/-! ### The results (spec/42_register_immediate.md R130) -/

/-- Bits 31:11 of the I immediate are its bit 11 (R74). -/
theorem immI_getLsbD (imm : BitVec 12) {k : Nat} (hk : k < 32) :
    (immI imm).getLsbD k = imm.getLsbD (min k 11) :=
  getLsbD_signExtend_eq_min imm hk

/-- A register-immediate instruction whose value is known to be `v`. -/
theorem State.regImm_result (s : State) (f : Word → Word → Word) (rd rs1 : Reg) (imm : BitVec 12) {v : Word}
    (hv : f (s.readReg rs1) (immI imm) = v) :
    ∃ t, s.regImm f rd rs1 imm = .next t ∧ RegResult s t rd v :=
  s.retire_writeReg_of_eq rd hv

/-- A register-immediate instruction that combines its operands bit by bit. -/
theorem State.regImm_bitwise (s : State) {f : Word → Word → Word} {g : Bool → Bool → Bool} (rd rs1 : Reg)
    (imm : BitVec 12) (hf : ∀ a b k, (f a b).getLsbD k = g (a.getLsbD k) (b.getLsbD k)) :
    ∃ t v, s.regImm f rd rs1 imm = .next t ∧ RegResult s t rd v ∧
      ∀ k, k < 32 → v.getLsbD k = g ((s.readReg rs1).getLsbD k) (imm.getLsbD (min k 11)) := by
  obtain ⟨t, ht, hres⟩ := s.regImm_result f rd rs1 imm rfl
  refine ⟨t, _, ht, hres, fun k hk => ?_⟩
  rw [hf, immI_getLsbD imm hk]

/-! ### The obligations -/

/-- Settles O45: the row of opcode 0x13 with funct3 0, and the sum with the signed immediate modulo 2^32. -/
theorem addiAddsTheSignedImmediate : Obligations.AddiAddsTheSignedImmediate :=
  ⟨selects_of_funct3 (by decide) fun _ hop h3 => decode_of_opcode_13 hop (regImm_eq_addi h3),
    fun s rd rs1 imm => s.regImm_result (fun a b => a + b) rd rs1 imm (immI_add _ _)⟩

/-- Settles O46: the rows with funct3 4, 6 and 7, and each operation on one bit of the register and of the
sign-extended immediate. -/
theorem logicalImmediatesWorkBitByBit : Obligations.LogicalImmediatesWorkBitByBit := by
  refine ⟨selects_of_funct3 (by decide) fun _ hop h3 => decode_of_opcode_13 hop (regImm_eq_xori h3),
    selects_of_funct3 (by decide) fun _ hop h3 => decode_of_opcode_13 hop (regImm_eq_ori h3),
    selects_of_funct3 (by decide) fun _ hop h3 => decode_of_opcode_13 hop (regImm_eq_andi h3),
    fun s rd rs1 imm => ⟨?xori, ?ori, ?andi⟩⟩
  case xori => exact s.regImm_bitwise (g := bne) rd rs1 imm fun _ _ _ => BitVec.getLsbD_xor
  case ori => exact s.regImm_bitwise (g := or) rd rs1 imm fun _ _ _ => BitVec.getLsbD_or
  case andi => exact s.regImm_bitwise (g := and) rd rs1 imm fun _ _ _ => BitVec.getLsbD_and

end Sys2Proof.Machine

/-! Family 43_loads (O47 to O49): the rows of opcode 0x03, the effective address as a sum of integers, and the
values loaded, a signed byte, a signed halfword and a word byte by byte. -/

namespace Sys2Proof.Machine

/-! ### The rows of opcode 0x03 (spec/30_encoding.md R80) -/

section
variable {w : Word}

theorem decode_of_opcode_03 {i : Instr} (hop : Decode.opcode w = 0x03#7) (hi : Decode.load w = i) :
    decode w = .instr i := by
  rw [decode, hop, hi]; rfl

theorem load_eq_lb (h3 : Decode.funct3 w = 0#3) : Decode.load w = asI .lb w := by
  rw [Decode.load, h3]; rfl

theorem load_eq_lh (h3 : Decode.funct3 w = 1#3) : Decode.load w = asI .lh w := by
  rw [Decode.load, h3]; rfl

theorem load_eq_lw (h3 : Decode.funct3 w = 2#3) : Decode.load w = asI .lw w := by
  rw [Decode.load, h3]; rfl

end

/-! ### The effective address and the values (spec/43_loads.md R140) -/

/-- The effective address of a load is the sum with the signed displacement, modulo 2^32 (R140). -/
theorem State.loadAddr_eq_ofInt (s : State) (rs1 : Reg) (imm : BitVec 12) :
    s.loadAddr rs1 imm = BitVec.ofInt 32 ((s.readReg rs1).toNat + imm.toInt) :=
  immI_add _ _

/-- A halfword of `h` is the signed number `h` below 2^15 and `h - 2^16` from there on (R143). -/
theorem toInt_eq_of_toNat_half {x : BitVec 16} {h : Nat} (hx : x.toNat = h) :
    x.toInt = if h < 32768 then (h : Int) else h - 65536 := by
  rw [BitVec.toInt_eq_toNat_cond, hx]
  omega

/-- Byte `k` of a word read is byte `k` of the access (spec/20_memory.md R44, R51). -/
theorem State.loadWord_extractLsb' (s : State) (addr : Word) {k : Nat} (hk : k < 4) :
    (s.loadWord addr).extractLsb' (8 * k) 8 = s.byteAt addr k := by
  apply BitVec.eq_of_toNat_eq
  rw [extractLsb'_toNat_eq, State.loadWord_toNat]
  have h0 := (s.byteAt addr 0).isLt
  have h1 := (s.byteAt addr 1).isLt
  have h2 := (s.byteAt addr 2).isLt
  have h3 := (s.byteAt addr 3).isLt
  match k, hk with
  | 0, _ | 1, _ | 2, _ | 3, _ => omega

/-! ### The obligations -/

/-- Settles O47: the row of opcode 0x03 with funct3 0, and the sign extension of one byte. -/
theorem lbLoadsASignedByte : Obligations.LbLoadsASignedByte := by
  refine ⟨selects_of_funct3 (by decide) fun _ hop h3 => decode_of_opcode_03 hop (load_eq_lb h3), ?_⟩
  rintro s rd rs1 imm _ rfl
  rw [← s.loadAddr_eq_ofInt]
  exact s.retire_writeReg rd ((s.loadByte (s.loadAddr rs1 imm)).signExtend 32)

/-- Settles O48: the row with funct3 1, and the sign extension of the little-endian halfword. -/
theorem lhLoadsASignedHalfword : Obligations.LhLoadsASignedHalfword := by
  refine ⟨selects_of_funct3 (by decide) fun _ hop h3 => decode_of_opcode_03 hop (load_eq_lh h3), ?_⟩
  rintro s rd rs1 imm _ h rfl hh
  rw [← s.loadAddr_eq_ofInt] at hh
  have hhalf : (s.loadHalf (s.loadAddr rs1 imm)).toNat = h := (s.loadHalf_toNat _).trans hh.symm
  exact s.retire_writeReg_of_eq rd (congrArg (BitVec.ofInt 32) (toInt_eq_of_toNat_half hhalf))

/-- Settles O49: the row with funct3 2, and each byte of the word read. -/
theorem lwLoadsTheWord : Obligations.LwLoadsTheWord := by
  refine ⟨selects_of_funct3 (by decide) fun _ hop h3 => decode_of_opcode_03 hop (load_eq_lw h3), ?_⟩
  rintro s rd rs1 imm _ rfl
  rw [← s.loadAddr_eq_ofInt]
  obtain ⟨t, ht, hres⟩ := s.retire_writeReg rd (s.loadWord (s.loadAddr rs1 imm))
  exact ⟨t, _, ht, hres, fun _ hk => s.loadWord_extractLsb' _ hk⟩

end Sys2Proof.Machine

/-! Family 44_stores (O50): the rows of opcode 0x23; the effective address is that of `immS_add`, and the bytes
written are those of `State.retire_store`. -/

namespace Sys2Proof.Machine

/-! ### The rows of opcode 0x23 (spec/30_encoding.md R80) -/

section
variable {w : Word}

theorem decode_of_opcode_23 {i : Instr} (hop : Decode.opcode w = 0x23#7) (hi : Decode.store w = i) :
    decode w = .instr i := by
  rw [decode, hop, hi]; rfl

theorem store_eq_sb (h3 : Decode.funct3 w = 0#3) : Decode.store w = asS .sb w := by
  rw [Decode.store, h3]; rfl

theorem store_eq_sh (h3 : Decode.funct3 w = 1#3) : Decode.store w = asS .sh w := by
  rw [Decode.store, h3]; rfl

theorem store_eq_sw (h3 : Decode.funct3 w = 2#3) : Decode.store w = asS .sw w := by
  rw [Decode.store, h3]; rfl

end

/-! ### The obligation -/

/-- Settles O50: the rows of opcode 0x23 with funct3 0, 1 and 2, the effective address, and one rule for the
bytes written, at 1, 2 and 4 bytes. -/
theorem storesWriteTheLowBytes : Obligations.StoresWriteTheLowBytes := by
  refine ⟨selects_of_funct3 (by decide) fun _ hop h3 => decode_of_opcode_23 hop (store_eq_sb h3),
    selects_of_funct3 (by decide) fun _ hop h3 => decode_of_opcode_23 hop (store_eq_sh h3),
    selects_of_funct3 (by decide) fun _ hop h3 => decode_of_opcode_23 hop (store_eq_sw h3),
    fun s rs1 rs2 imm => ⟨immS_add (s.readReg rs1) imm, ?sb, ?sh, ?sw⟩⟩
  case sb => exact s.retire_store (s.storeAddr rs1 imm) (n := 1) (by omega) (s.readReg rs2)
  case sh => exact s.retire_store (s.storeAddr rs1 imm) (n := 2) (by omega) (s.readReg rs2)
  case sw => exact s.retire_store (s.storeAddr rs1 imm) (n := 4) (by omega) (s.readReg rs2)

end Sys2Proof.Machine

/-! Family 45_branches (O51 to O53): the rows of opcode 0x63, the target as a sum of integers, and the result of a
branch whose comparison decides a proposition; the six comparisons are those of O22. -/

namespace Sys2Proof.Machine

/-! ### The rows of opcode 0x63 (spec/30_encoding.md R80) -/

section
variable {w : Word}

theorem decode_of_opcode_63 {i : Instr} (hop : Decode.opcode w = 0x63#7) (hi : Decode.branch w = i) :
    decode w = .instr i := by
  rw [decode, hop, hi]; rfl

theorem branch_eq_beq (h3 : Decode.funct3 w = 0#3) : Decode.branch w = asB .beq w := by
  rw [Decode.branch, h3]; rfl

theorem branch_eq_bne (h3 : Decode.funct3 w = 1#3) : Decode.branch w = asB .bne w := by
  rw [Decode.branch, h3]; rfl

theorem branch_eq_blt (h3 : Decode.funct3 w = 4#3) : Decode.branch w = asB .blt w := by
  rw [Decode.branch, h3]; rfl

theorem branch_eq_bge (h3 : Decode.funct3 w = 5#3) : Decode.branch w = asB .bge w := by
  rw [Decode.branch, h3]; rfl

theorem branch_eq_bltu (h3 : Decode.funct3 w = 6#3) : Decode.branch w = asB .bltu w := by
  rw [Decode.branch, h3]; rfl

theorem branch_eq_bgeu (h3 : Decode.funct3 w = 7#3) : Decode.branch w = asB .bgeu w := by
  rw [Decode.branch, h3]; rfl

end

/-! ### The target and the result (spec/45_branches.md R160) -/

section
variable (s : State)

/-- The instruction's own address is `npc - 4`, modulo 2^32 (spec/10_state.md R26). -/
theorem State.ia_eq_ofInt : s.ia = BitVec.ofInt 32 (s.pc.toNat - 4) := sub_eq_ofInt s.pc 4#32

theorem State.branchTarget_eq_ofInt (offset : BitVec 13) :
    s.branchTarget offset = BitVec.ofInt 32 (s.pc.toNat - 4 + offset.toInt) := by
  rw [State.branchTarget, s.ia_eq_ofInt, BitVec.ofInt_add]; rfl

/-- A branch whose comparison decides `p`. -/
theorem State.branch_result_of_iff {cond : Word → Word → Bool} {rs1 rs2 : Reg} (offset : BitVec 13) {p : Prop}
    (hp : cond (s.readReg rs1) (s.readReg rs2) = true ↔ p) :
    ∃ t, s.branch cond rs1 rs2 offset = .next t ∧
      BranchResult s t p (BitVec.ofInt 32 (s.pc.toNat - 4 + offset.toInt)) := by
  rw [← hp, ← s.branchTarget_eq_ofInt]
  exact s.branch_result cond rs1 rs2 offset

end

/-! ### The obligations -/

/-- Settles O51: the rows of opcode 0x63 with funct3 0 and 1, and the comparison of all 32 bits. -/
theorem equalityBranches : Obligations.EqualityBranches :=
  ⟨selects_of_funct3 (by decide) fun _ hop h3 => decode_of_opcode_63 hop (branch_eq_beq h3),
    selects_of_funct3 (by decide) fun _ hop h3 => decode_of_opcode_63 hop (branch_eq_bne h3),
    fun s _ _ off => ⟨s.branch_result_of_iff off condEq_iff, s.branch_result_of_iff off condNe_iff⟩⟩

/-- Settles O52: the rows with funct3 4 and 5, and the comparison of the signed values. -/
theorem signedBranches : Obligations.SignedBranches :=
  ⟨selects_of_funct3 (by decide) fun _ hop h3 => decode_of_opcode_63 hop (branch_eq_blt h3),
    selects_of_funct3 (by decide) fun _ hop h3 => decode_of_opcode_63 hop (branch_eq_bge h3),
    fun s _ _ off => ⟨s.branch_result_of_iff off condLt_iff, s.branch_result_of_iff off condGe_iff⟩⟩

/-- Settles O53: the rows with funct3 6 and 7, and the comparison of the unsigned values. -/
theorem unsignedBranches : Obligations.UnsignedBranches :=
  ⟨selects_of_funct3 (by decide) fun _ hop h3 => decode_of_opcode_63 hop (branch_eq_bltu h3),
    selects_of_funct3 (by decide) fun _ hop h3 => decode_of_opcode_63 hop (branch_eq_bgeu h3),
    fun s _ _ off => ⟨s.branch_result_of_iff off condLtu_iff, s.branch_result_of_iff off condGeu_iff⟩⟩

end Sys2Proof.Machine

/-! Family 46_upper_immediate (O54, O55): the words that the opcode alone selects, the rows of opcodes 0x37 and
0x17, and the U immediate as a number. -/

namespace Sys2Proof.Machine

/-- A pattern under the mask 0x0000007F selects by the opcode alone (spec/30_encoding.md R84). -/
theorem selects_of_opcode {p : Word} {op : BitVec 7} {mk : Word → Instr}
    (hp : p &&& 0x0000007F#32 = p ∧ Decode.opcode p = op)
    (h : ∀ w, Decode.opcode w = op → decode w = .instr (mk w)) :
    Selects 0x0000007F#32 p mk := by
  intro w hw
  obtain ⟨hmask, rfl⟩ := hp
  exact h w ((mask7F_iff hmask).mp hw)

/-! ### The rows of opcodes 0x37 and 0x17 (R80) -/

theorem decode_of_opcode_37 {w : Word} (hop : Decode.opcode w = 0x37#7) : decode w = .instr (asU .lui w) := by
  rw [decode, hop]; rfl

theorem decode_of_opcode_17 {w : Word} (hop : Decode.opcode w = 0x17#7) : decode w = .instr (asU .auipc w) := by
  rw [decode, hop]; rfl

/-! ### The immediate as a number (R77) -/

theorem immU_eq_ofNat (imm20 : BitVec 20) : immU imm20 = BitVec.ofNat 32 (imm20.toNat * 4096) := by
  rw [Nat.mul_comm, ← immU_toNat, BitVec.ofNat_toNat, BitVec.setWidth_eq]

/-- The base is the instruction's own address `npc - 4`, and the sum wraps (spec/46_upper_immediate.md R172). -/
theorem State.ia_add_immU_eq_ofInt (s : State) (imm20 : BitVec 20) :
    s.ia + immU imm20 = BitVec.ofInt 32 (s.pc.toNat - 4 + imm20.toNat * 4096) := by
  have himm : immU imm20 = BitVec.ofInt 32 (imm20.toNat * 4096) := immU_eq_ofNat imm20
  rw [BitVec.ofInt_add, ← himm, ← s.ia_eq_ofInt]

/-! ### The obligations -/

/-- Settles O54: the row of opcode 0x37, and the field over 12 zeros as the field times 4096. -/
theorem luiLoadsTheUpperImmediate : Obligations.LuiLoadsTheUpperImmediate :=
  ⟨selects_of_opcode (by decide) fun _ => decode_of_opcode_37,
    fun s rd imm20 => s.retire_writeReg_of_eq rd (immU_eq_ofNat imm20)⟩

/-- Settles O55: the row of opcode 0x17, and the sum of the own address and the immediate as integers. -/
theorem auipcAddsToItsOwnAddress : Obligations.AuipcAddsToItsOwnAddress :=
  ⟨selects_of_opcode (by decide) fun _ => decode_of_opcode_17,
    fun s rd imm20 => s.retire_writeReg_of_eq rd (s.ia_add_immU_eq_ofInt imm20)⟩

end Sys2Proof.Machine

/-! Family 30_encoding (O1 to O8, O10): what the decoder can answer, row by row; the operands read back from a
packed word, and a word packed again from its fields. -/

namespace Sys2Proof.Machine

/-! ### The recognised-unimplemented words of each opcode (spec/30_encoding.md R85) -/

section
variable {w : Word}

theorem wellFormed_unimplemented33_upper : (Instr.unimplemented33 (Decode.upper w)).WellFormed = true ↔
    Decode.funct3 w = 2#3 ∨ Decode.funct3 w = 3#3 ∨ ((Decode.funct3 w = 0#3 ∨ Decode.funct3 w = 5#3) ∧
      Decode.funct7 w ≠ 0x00#7 ∧ Decode.funct7 w ≠ 0x20#7) := by
  simp [Instr.WellFormed, upperFunct3_upper, upperFunct7_upper, or_assoc, and_assoc]

theorem wellFormed_unimplemented13_upper : (Instr.unimplemented13 (Decode.upper w)).WellFormed = true ↔
    Decode.funct3 w ∈ [1#3, 2#3, 3#3, 5#3] := by
  simp [Instr.WellFormed, upperFunct3_upper, or_assoc]

theorem wellFormed_unimplemented03_upper : (Instr.unimplemented03 (Decode.upper w)).WellFormed = true ↔
    Decode.funct3 w ∈ [3#3, 4#3, 5#3, 6#3, 7#3] := by
  simp [Instr.WellFormed, upperFunct3_upper, or_assoc]

theorem wellFormed_unimplemented23_upper : (Instr.unimplemented23 (Decode.upper w)).WellFormed = true ↔
    Decode.funct3 w ∈ [3#3, 4#3, 5#3, 6#3, 7#3] := wellFormed_unimplemented03_upper

theorem wellFormed_unimplemented63_upper : (Instr.unimplemented63 (Decode.upper w)).WellFormed = true ↔
    Decode.funct3 w ∈ [2#3, 3#3] := by
  simp [Instr.WellFormed, upperFunct3_upper]

end

/-! ### Everything the decoder can answer -/

/-- The rows of the decoder (R79 to R85): what is known of a word's fields where it decodes to an instruction. -/
inductive DecodeRow (w : Word) : Instr → Prop
  | add : Decode.opcode w = 0x33#7 → Decode.funct3 w = 0#3 → Decode.funct7 w = 0x00#7 → DecodeRow w (asR .add w)
  | sub : Decode.opcode w = 0x33#7 → Decode.funct3 w = 0#3 → Decode.funct7 w = 0x20#7 → DecodeRow w (asR .sub w)
  | sll : Decode.opcode w = 0x33#7 → Decode.funct3 w = 1#3 → DecodeRow w (asR .sll w)
  | xor : Decode.opcode w = 0x33#7 → Decode.funct3 w = 4#3 → DecodeRow w (asR .xor w)
  | srl : Decode.opcode w = 0x33#7 → Decode.funct3 w = 5#3 → Decode.funct7 w = 0x00#7 → DecodeRow w (asR .srl w)
  | sra : Decode.opcode w = 0x33#7 → Decode.funct3 w = 5#3 → Decode.funct7 w = 0x20#7 → DecodeRow w (asR .sra w)
  | or : Decode.opcode w = 0x33#7 → Decode.funct3 w = 6#3 → DecodeRow w (asR .or w)
  | and : Decode.opcode w = 0x33#7 → Decode.funct3 w = 7#3 → DecodeRow w (asR .and w)
  | addi : Decode.opcode w = 0x13#7 → Decode.funct3 w = 0#3 → DecodeRow w (asI .addi w)
  | xori : Decode.opcode w = 0x13#7 → Decode.funct3 w = 4#3 → DecodeRow w (asI .xori w)
  | ori : Decode.opcode w = 0x13#7 → Decode.funct3 w = 6#3 → DecodeRow w (asI .ori w)
  | andi : Decode.opcode w = 0x13#7 → Decode.funct3 w = 7#3 → DecodeRow w (asI .andi w)
  | lb : Decode.opcode w = 0x03#7 → Decode.funct3 w = 0#3 → DecodeRow w (asI .lb w)
  | lh : Decode.opcode w = 0x03#7 → Decode.funct3 w = 1#3 → DecodeRow w (asI .lh w)
  | lw : Decode.opcode w = 0x03#7 → Decode.funct3 w = 2#3 → DecodeRow w (asI .lw w)
  | sb : Decode.opcode w = 0x23#7 → Decode.funct3 w = 0#3 → DecodeRow w (asS .sb w)
  | sh : Decode.opcode w = 0x23#7 → Decode.funct3 w = 1#3 → DecodeRow w (asS .sh w)
  | sw : Decode.opcode w = 0x23#7 → Decode.funct3 w = 2#3 → DecodeRow w (asS .sw w)
  | beq : Decode.opcode w = 0x63#7 → Decode.funct3 w = 0#3 → DecodeRow w (asB .beq w)
  | bne : Decode.opcode w = 0x63#7 → Decode.funct3 w = 1#3 → DecodeRow w (asB .bne w)
  | blt : Decode.opcode w = 0x63#7 → Decode.funct3 w = 4#3 → DecodeRow w (asB .blt w)
  | bge : Decode.opcode w = 0x63#7 → Decode.funct3 w = 5#3 → DecodeRow w (asB .bge w)
  | bltu : Decode.opcode w = 0x63#7 → Decode.funct3 w = 6#3 → DecodeRow w (asB .bltu w)
  | bgeu : Decode.opcode w = 0x63#7 → Decode.funct3 w = 7#3 → DecodeRow w (asB .bgeu w)
  | lui : Decode.opcode w = 0x37#7 → DecodeRow w (asU .lui w)
  | auipc : Decode.opcode w = 0x17#7 → DecodeRow w (asU .auipc w)
  | jal : Decode.opcode w = 0x6F#7 → DecodeRow w (asJ .jal w)
  | jalr : Decode.opcode w = 0x67#7 → DecodeRow w (asI .jalr w)
  | unimplemented33 : Decode.opcode w = 0x33#7 → (Instr.unimplemented33 (Decode.upper w)).WellFormed = true →
      DecodeRow w (.unimplemented33 (Decode.upper w))
  | unimplemented13 : Decode.opcode w = 0x13#7 → (Instr.unimplemented13 (Decode.upper w)).WellFormed = true →
      DecodeRow w (.unimplemented13 (Decode.upper w))
  | unimplemented03 : Decode.opcode w = 0x03#7 → (Instr.unimplemented03 (Decode.upper w)).WellFormed = true →
      DecodeRow w (.unimplemented03 (Decode.upper w))
  | unimplemented23 : Decode.opcode w = 0x23#7 → (Instr.unimplemented23 (Decode.upper w)).WellFormed = true →
      DecodeRow w (.unimplemented23 (Decode.upper w))
  | unimplemented63 : Decode.opcode w = 0x63#7 → (Instr.unimplemented63 (Decode.upper w)).WellFormed = true →
      DecodeRow w (.unimplemented63 (Decode.upper w))

section
variable {w : Word}

/-- funct3 takes eight values. -/
theorem funct3_cases (f : BitVec 3) :
    f = 0#3 ∨ f = 1#3 ∨ f = 2#3 ∨ f = 3#3 ∨ f = 4#3 ∨ f = 5#3 ∨ f = 6#3 ∨ f = 7#3 := by
  revert f; decide

theorem regReg_eq_unimplemented33 (h : (Instr.unimplemented33 (Decode.upper w)).WellFormed = true) :
    Decode.regReg w = .unimplemented33 (Decode.upper w) := by
  obtain h3 | h3 | ⟨h3 | h3, h00, h20⟩ := wellFormed_unimplemented33_upper.mp h
  · rw [Decode.regReg, h3]; rfl
  · rw [Decode.regReg, h3]; rfl
  · simp [Decode.regReg, h3, h00, h20]
  · simp [Decode.regReg, h3, h00, h20]

theorem regImm_eq_unimplemented13 (h : (Instr.unimplemented13 (Decode.upper w)).WellFormed = true) :
    Decode.regImm w = .unimplemented13 (Decode.upper w) := by
  have h3 := wellFormed_unimplemented13_upper.mp h
  simp only [List.mem_cons, List.not_mem_nil, or_false] at h3
  rcases h3 with h3 | h3 | h3 | h3 <;> rw [Decode.regImm, h3] <;> rfl

theorem load_eq_unimplemented03 (h : (Instr.unimplemented03 (Decode.upper w)).WellFormed = true) :
    Decode.load w = .unimplemented03 (Decode.upper w) := by
  have h3 := wellFormed_unimplemented03_upper.mp h
  simp only [List.mem_cons, List.not_mem_nil, or_false] at h3
  rcases h3 with h3 | h3 | h3 | h3 | h3 <;> rw [Decode.load, h3] <;> rfl

theorem store_eq_unimplemented23 (h : (Instr.unimplemented23 (Decode.upper w)).WellFormed = true) :
    Decode.store w = .unimplemented23 (Decode.upper w) := by
  have h3 := wellFormed_unimplemented23_upper.mp h
  simp only [List.mem_cons, List.not_mem_nil, or_false] at h3
  rcases h3 with h3 | h3 | h3 | h3 | h3 <;> rw [Decode.store, h3] <;> rfl

theorem branch_eq_unimplemented63 (h : (Instr.unimplemented63 (Decode.upper w)).WellFormed = true) :
    Decode.branch w = .unimplemented63 (Decode.upper w) := by
  have h3 := wellFormed_unimplemented63_upper.mp h
  simp only [List.mem_cons, List.not_mem_nil, or_false] at h3
  rcases h3 with h3 | h3 <;> rw [Decode.branch, h3] <;> rfl

theorem decode_of_opcode_6F (hop : Decode.opcode w = 0x6F#7) : decode w = .instr (asJ .jal w) := by
  rw [decode, hop]; rfl

theorem decode_of_opcode_67 (hop : Decode.opcode w = 0x67#7) : decode w = .instr (asI .jalr w) := by
  rw [decode, hop]; rfl

theorem decodeRow_regReg (hop : Decode.opcode w = 0x33#7) : DecodeRow w (Decode.regReg w) := by
  have hun (h : (Instr.unimplemented33 (Decode.upper w)).WellFormed = true) : DecodeRow w (Decode.regReg w) :=
    regReg_eq_unimplemented33 h ▸ .unimplemented33 hop h
  rcases funct3_cases (Decode.funct3 w) with h3 | h3 | h3 | h3 | h3 | h3 | h3 | h3
  · by_cases h00 : Decode.funct7 w = 0x00#7
    · exact regReg_eq_add h3 h00 ▸ .add hop h3 h00
    by_cases h20 : Decode.funct7 w = 0x20#7
    · exact regReg_eq_sub h3 h20 ▸ .sub hop h3 h20
    · exact hun (wellFormed_unimplemented33_upper.mpr (.inr (.inr ⟨.inl h3, h00, h20⟩)))
  · exact regReg_eq_sll h3 ▸ .sll hop h3
  · exact hun (wellFormed_unimplemented33_upper.mpr (.inl h3))
  · exact hun (wellFormed_unimplemented33_upper.mpr (.inr (.inl h3)))
  · exact regReg_eq_xor h3 ▸ .xor hop h3
  · by_cases h00 : Decode.funct7 w = 0x00#7
    · exact regReg_eq_srl h3 h00 ▸ .srl hop h3 h00
    by_cases h20 : Decode.funct7 w = 0x20#7
    · exact regReg_eq_sra h3 h20 ▸ .sra hop h3 h20
    · exact hun (wellFormed_unimplemented33_upper.mpr (.inr (.inr ⟨.inr h3, h00, h20⟩)))
  · exact regReg_eq_or h3 ▸ .or hop h3
  · exact regReg_eq_and h3 ▸ .and hop h3

theorem decodeRow_regImm (hop : Decode.opcode w = 0x13#7) : DecodeRow w (Decode.regImm w) := by
  have hun (h3 : Decode.funct3 w ∈ [1#3, 2#3, 3#3, 5#3]) : DecodeRow w (Decode.regImm w) :=
    have hwf := wellFormed_unimplemented13_upper.mpr h3
    regImm_eq_unimplemented13 hwf ▸ .unimplemented13 hop hwf
  rcases funct3_cases (Decode.funct3 w) with h3 | h3 | h3 | h3 | h3 | h3 | h3 | h3
  · exact regImm_eq_addi h3 ▸ .addi hop h3
  · exact hun (by simp [h3])
  · exact hun (by simp [h3])
  · exact hun (by simp [h3])
  · exact regImm_eq_xori h3 ▸ .xori hop h3
  · exact hun (by simp [h3])
  · exact regImm_eq_ori h3 ▸ .ori hop h3
  · exact regImm_eq_andi h3 ▸ .andi hop h3

theorem decodeRow_load (hop : Decode.opcode w = 0x03#7) : DecodeRow w (Decode.load w) := by
  rcases funct3_cases (Decode.funct3 w) with h3 | h3 | h3 | hrest
  · exact load_eq_lb h3 ▸ .lb hop h3
  · exact load_eq_lh h3 ▸ .lh hop h3
  · exact load_eq_lw h3 ▸ .lw hop h3
  · have hwf := wellFormed_unimplemented03_upper.mpr (by simpa using hrest)
    exact load_eq_unimplemented03 hwf ▸ .unimplemented03 hop hwf

theorem decodeRow_store (hop : Decode.opcode w = 0x23#7) : DecodeRow w (Decode.store w) := by
  rcases funct3_cases (Decode.funct3 w) with h3 | h3 | h3 | hrest
  · exact store_eq_sb h3 ▸ .sb hop h3
  · exact store_eq_sh h3 ▸ .sh hop h3
  · exact store_eq_sw h3 ▸ .sw hop h3
  · have hwf := wellFormed_unimplemented23_upper.mpr (by simpa using hrest)
    exact store_eq_unimplemented23 hwf ▸ .unimplemented23 hop hwf

theorem decodeRow_branch (hop : Decode.opcode w = 0x63#7) : DecodeRow w (Decode.branch w) := by
  have hun (h3 : Decode.funct3 w ∈ [2#3, 3#3]) : DecodeRow w (Decode.branch w) :=
    have hwf := wellFormed_unimplemented63_upper.mpr h3
    branch_eq_unimplemented63 hwf ▸ .unimplemented63 hop hwf
  rcases funct3_cases (Decode.funct3 w) with h3 | h3 | h3 | h3 | h3 | h3 | h3 | h3
  · exact branch_eq_beq h3 ▸ .beq hop h3
  · exact branch_eq_bne h3 ▸ .bne hop h3
  · exact hun (by simp [h3])
  · exact hun (by simp [h3])
  · exact branch_eq_blt h3 ▸ .blt hop h3
  · exact branch_eq_bge h3 ▸ .bge hop h3
  · exact branch_eq_bltu h3 ▸ .bltu hop h3
  · exact branch_eq_bgeu h3 ▸ .bgeu hop h3

/-- A word with a known opcode decodes to an instruction, and one with another opcode does not (R81). -/
theorem decode_cases (w : Word) :
    (Decode.opcode w ∈ knownOpcodes ∧ ∃ i, decode w = .instr i ∧ DecodeRow w i) ∨
    (Decode.opcode w ∉ knownOpcodes ∧ decode w = .unknownOpcode (Decode.opcode w)) := by
  by_cases hmem : Decode.opcode w ∈ knownOpcodes
  · refine .inl ⟨hmem, ?_⟩
    simp only [knownOpcodes, List.mem_cons, List.not_mem_nil, or_false] at hmem
    rcases hmem with hop | hop | hop | hop | hop | hop | hop | hop | hop
    · exact ⟨_, decode_of_opcode_33 hop rfl, decodeRow_regReg hop⟩
    · exact ⟨_, decode_of_opcode_13 hop rfl, decodeRow_regImm hop⟩
    · exact ⟨_, decode_of_opcode_03 hop rfl, decodeRow_load hop⟩
    · exact ⟨_, decode_of_opcode_23 hop rfl, decodeRow_store hop⟩
    · exact ⟨_, decode_of_opcode_63 hop rfl, decodeRow_branch hop⟩
    · exact ⟨_, decode_of_opcode_37 hop, .lui hop⟩
    · exact ⟨_, decode_of_opcode_17 hop, .auipc hop⟩
    · exact ⟨_, decode_of_opcode_6F hop, .jal hop⟩
    · exact ⟨_, decode_of_opcode_67 hop, .jalr hop⟩
  · refine .inr ⟨hmem, ?_⟩
    unfold decode
    split
    case h_10 => rfl
    all_goals exact absurd (by simp [knownOpcodes, *]) hmem

/-- What is known of a word that decodes to an instruction. -/
theorem decodeRow_of_decode {i : Instr} (h : decode w = .instr i) : DecodeRow w i := by
  obtain ⟨-, j, hj, hrow⟩ | ⟨-, hu⟩ := decode_cases w
  · exact Decoded.instr.inj (hj.symm.trans h) ▸ hrow
  · simp [hu] at h

theorem decode_eq_unknownOpcode_iff {op : BitVec 7} :
    decode w = .unknownOpcode op ↔ op = Decode.opcode w ∧ op ∉ knownOpcodes := by
  obtain ⟨hmem, i, hi, -⟩ | ⟨hmem, hu⟩ := decode_cases w
  · simp only [hi, reduceCtorEq, false_iff]
    rintro ⟨rfl, hn⟩
    exact hn hmem
  · rw [hu, Decoded.unknownOpcode.injEq]
    constructor
    · rintro rfl
      exact ⟨rfl, hmem⟩
    · rintro ⟨rfl, -⟩
      rfl

end

end Sys2Proof.Machine

namespace Sys2Proof

/-! ### The operands of a packed word

The formats S, B and J split an immediate: the digits of the packed word are those of the immediate, in another
order. -/

section
variable (f7 op : BitVec 7) (rs2 rs1 rd : Reg) (f3 : BitVec 3) (imm : BitVec 12) (off : BitVec 13)
  (imm20 : BitVec 20) (joff : BitVec 21)

theorem formatS_digits : ∃ hi lo, hi < 128 ∧ lo < 32 ∧ imm.toNat = 32 * hi + lo ∧
    (Encode.formatS imm rs2 rs1 f3 op).toNat = 33554432 * hi + 1048576 * rs2.val + 32768 * rs1.val +
      4096 * f3.toNat + 128 * lo + op.toNat :=
  ⟨_, _, Nat.mod_lt _ (by omega), Nat.mod_lt _ (by omega), by omega, Encode.formatS_toNat imm rs2 rs1 f3 op⟩

theorem formatB_digits (heven : off.toNat % 2 = 0) :
    ∃ d12 d11 d5 d1, d12 < 2 ∧ d11 < 2 ∧ d5 < 64 ∧ d1 < 16 ∧
    off.toNat = 4096 * d12 + 2048 * d11 + 32 * d5 + 2 * d1 ∧
    (Encode.formatB off rs2 rs1 f3 op).toNat = 2147483648 * d12 + 33554432 * d5 + 1048576 * rs2.val +
      32768 * rs1.val + 4096 * f3.toNat + 256 * d1 + 128 * d11 + op.toNat :=
  ⟨_, _, _, _, Nat.mod_lt _ (by omega), Nat.mod_lt _ (by omega), Nat.mod_lt _ (by omega),
    Nat.mod_lt _ (by omega), by omega, Encode.formatB_toNat off rs2 rs1 f3 op⟩

theorem formatJ_digits (heven : joff.toNat % 2 = 0) :
    ∃ d20 d12 d11 d1, d20 < 2 ∧ d12 < 256 ∧ d11 < 2 ∧ d1 < 1024 ∧
    joff.toNat = 1048576 * d20 + 4096 * d12 + 2048 * d11 + 2 * d1 ∧
    (Encode.formatJ joff rd op).toNat = 2147483648 * d20 + 2097152 * d1 + 1048576 * d11 + 4096 * d12 +
      128 * rd.val + op.toNat :=
  ⟨_, _, _, _, Nat.mod_lt _ (by omega), Nat.mod_lt _ (by omega), Nat.mod_lt _ (by omega),
    Nat.mod_lt _ (by omega), by omega, Encode.formatJ_toNat joff rd op⟩

theorem rd_formatI : Decode.rd (Encode.formatI imm rs1 f3 rd op) = rd := by
  apply Fin.ext; rw [Decode.rd_val, Encode.formatI_toNat]; omega

theorem rs1_formatI : Decode.rs1 (Encode.formatI imm rs1 f3 rd op) = rs1 := by
  apply Fin.ext; rw [Decode.rs1_val, Encode.formatI_toNat]; omega

theorem immI_formatI : Decode.immI (Encode.formatI imm rs1 f3 rd op) = imm := by
  apply BitVec.eq_of_toNat_eq; rw [Decode.immI_toNat, Encode.formatI_toNat]; omega

theorem rs1_formatS : Decode.rs1 (Encode.formatS imm rs2 rs1 f3 op) = rs1 := by
  obtain ⟨hi, lo, hhi, hlo, -, hw⟩ := formatS_digits op rs2 rs1 f3 imm
  apply Fin.ext; rw [Decode.rs1_val, hw]; omega

theorem rs2_formatS : Decode.rs2 (Encode.formatS imm rs2 rs1 f3 op) = rs2 := by
  obtain ⟨hi, lo, hhi, hlo, -, hw⟩ := formatS_digits op rs2 rs1 f3 imm
  apply Fin.ext; rw [Decode.rs2_val, hw]; omega

theorem immS_formatS : Decode.immS (Encode.formatS imm rs2 rs1 f3 op) = imm := by
  obtain ⟨hi, lo, hhi, hlo, himm, hw⟩ := formatS_digits op rs2 rs1 f3 imm
  apply BitVec.eq_of_toNat_eq; rw [Decode.immS_toNat, hw, himm]
  clear himm
  exact congrArg₂ (32 * · + ·) (by omega) (by omega)

theorem rs1_formatB (heven : off.toNat % 2 = 0) : Decode.rs1 (Encode.formatB off rs2 rs1 f3 op) = rs1 := by
  obtain ⟨d12, d11, d5, d1, h12, h11, h5, h1, -, hw⟩ := formatB_digits op rs2 rs1 f3 off heven
  apply Fin.ext; rw [Decode.rs1_val, hw]; omega

theorem rs2_formatB (heven : off.toNat % 2 = 0) : Decode.rs2 (Encode.formatB off rs2 rs1 f3 op) = rs2 := by
  obtain ⟨d12, d11, d5, d1, h12, h11, h5, h1, -, hw⟩ := formatB_digits op rs2 rs1 f3 off heven
  apply Fin.ext; rw [Decode.rs2_val, hw]; omega

theorem immB_formatB (heven : off.toNat % 2 = 0) : Decode.immB (Encode.formatB off rs2 rs1 f3 op) = off := by
  obtain ⟨d12, d11, d5, d1, h12, h11, h5, h1, hoff, hw⟩ := formatB_digits op rs2 rs1 f3 off heven
  apply BitVec.eq_of_toNat_eq
  rw [hoff]
  clear hoff
  generalize Encode.formatB off rs2 rs1 f3 op = w at hw
  have e12 : w.toNat / 2147483648 % 2 = d12 := by omega
  have e11 : w.toNat / 128 % 2 = d11 := by omega
  have e5 : w.toNat / 33554432 % 64 = d5 := by omega
  have e1 : w.toNat / 256 % 16 = d1 := by omega
  rw [Decode.immB_toNat, e12, e11, e5, e1]

theorem rd_formatU : Decode.rd (Encode.formatU imm20 rd op) = rd := by
  apply Fin.ext; rw [Decode.rd_val, Encode.formatU_toNat]; omega

theorem immU_formatU : Decode.immU (Encode.formatU imm20 rd op) = imm20 := by
  apply BitVec.eq_of_toNat_eq; rw [Decode.immU_toNat, Encode.formatU_toNat]; omega

theorem rd_formatJ (heven : joff.toNat % 2 = 0) : Decode.rd (Encode.formatJ joff rd op) = rd := by
  obtain ⟨d20, d12, d11, d1, h20, h12, h11, h1, -, hw⟩ := formatJ_digits op rd joff heven
  apply Fin.ext; rw [Decode.rd_val, hw]; omega

theorem immJ_formatJ (heven : joff.toNat % 2 = 0) : Decode.immJ (Encode.formatJ joff rd op) = joff := by
  obtain ⟨d20, d12, d11, d1, h20, h12, h11, h1, hoff, hw⟩ := formatJ_digits op rd joff heven
  apply BitVec.eq_of_toNat_eq
  rw [hoff]
  clear hoff
  generalize Encode.formatJ joff rd op = w at hw
  have e20 : w.toNat / 2147483648 % 2 = d20 := by omega
  have e12 : w.toNat / 4096 % 256 = d12 := by omega
  have e11 : w.toNat / 1048576 % 2 = d11 := by omega
  have e1 : w.toNat / 2097152 % 1024 = d1 := by omega
  rw [Decode.immJ_toNat, e20, e12, e11, e1]

theorem asR_formatR (mk : Reg → Reg → Reg → Instr) :
    Machine.asR mk (Encode.formatR f7 rs2 rs1 f3 rd op) = mk rd rs1 rs2 := by
  rw [Machine.asR, rd_formatR, rs1_formatR, rs2_formatR]

theorem asI_formatI (mk : Reg → Reg → BitVec 12 → Instr) :
    Machine.asI mk (Encode.formatI imm rs1 f3 rd op) = mk rd rs1 imm := by
  rw [Machine.asI, rd_formatI, rs1_formatI, immI_formatI]

theorem asS_formatS (mk : Reg → Reg → BitVec 12 → Instr) :
    Machine.asS mk (Encode.formatS imm rs2 rs1 f3 op) = mk rs1 rs2 imm := by
  rw [Machine.asS, rs1_formatS, rs2_formatS, immS_formatS]

theorem asU_formatU (mk : Reg → BitVec 20 → Instr) :
    Machine.asU mk (Encode.formatU imm20 rd op) = mk rd imm20 := by
  rw [Machine.asU, rd_formatU, immU_formatU]

/-- A number is even where its lowest bit is 0. -/
theorem toNat_even_iff {n : Nat} (x : BitVec (n + 1)) : x.toNat % 2 = 0 ↔ x[0] = false := by
  rw [← BitVec.getLsbD_eq_getElem, BitVec.getLsbD, Nat.testBit_zero, decide_eq_false_iff_not,
    Nat.mod_two_not_eq_one]

theorem asB_formatB (mk : Reg → Reg → BitVec 13 → Instr) (hoff : (!off[0]) = true) :
    Machine.asB mk (Encode.formatB off rs2 rs1 f3 op) = mk rs1 rs2 off := by
  have heven := (toNat_even_iff off).mpr (Bool.not_eq_true' _ ▸ hoff)
  rw [Machine.asB, rs1_formatB op rs2 rs1 f3 off heven, rs2_formatB op rs2 rs1 f3 off heven,
    immB_formatB op rs2 rs1 f3 off heven]

theorem asJ_formatJ (mk : Reg → BitVec 21 → Instr) (hoff : (!joff[0]) = true) :
    Machine.asJ mk (Encode.formatJ joff rd op) = mk rd joff := by
  have heven := (toNat_even_iff joff).mpr (Bool.not_eq_true' _ ▸ hoff)
  rw [Machine.asJ, rd_formatJ op rd joff heven, immJ_formatJ op rd joff heven]

end

end Sys2Proof

namespace Sys2Proof.Machine

/-- A raw word keeps its bits, so it is recognised-unimplemented where they are well-formed. -/
theorem formatRaw_upper {mk : BitVec 25 → Instr} {op : BitVec 7} {bits : BitVec 25}
    (h : (mk bits).WellFormed = true) :
    (mk (Decode.upper (Encode.formatRaw bits op))).WellFormed = true := by
  rwa [upper_formatRaw]

/-- Settles O6: an encoding has the fields of the instruction's row and reads back as its operands; the offsets of
the formats B and J do so if they are even, and a raw word if it is in no other row. -/
theorem decodeOfEncodeIsIdentity : Obligations.DecodeOfEncodeIsIdentity := by
  intro i hwf
  cases i with
  | add =>
    rw [encode, decode_of_opcode_33 (opcode_formatR ..) (regReg_eq_add (funct3_formatR ..) (funct7_formatR ..)),
      asR_formatR]
  | sub =>
    rw [encode, decode_of_opcode_33 (opcode_formatR ..) (regReg_eq_sub (funct3_formatR ..) (funct7_formatR ..)),
      asR_formatR]
  | sll =>
    rw [encode, decode_of_opcode_33 (opcode_formatR ..) (regReg_eq_sll (funct3_formatR ..)), asR_formatR]
  | xor =>
    rw [encode, decode_of_opcode_33 (opcode_formatR ..) (regReg_eq_xor (funct3_formatR ..)), asR_formatR]
  | srl =>
    rw [encode, decode_of_opcode_33 (opcode_formatR ..) (regReg_eq_srl (funct3_formatR ..) (funct7_formatR ..)),
      asR_formatR]
  | sra =>
    rw [encode, decode_of_opcode_33 (opcode_formatR ..) (regReg_eq_sra (funct3_formatR ..) (funct7_formatR ..)),
      asR_formatR]
  | or => rw [encode, decode_of_opcode_33 (opcode_formatR ..) (regReg_eq_or (funct3_formatR ..)), asR_formatR]
  | and =>
    rw [encode, decode_of_opcode_33 (opcode_formatR ..) (regReg_eq_and (funct3_formatR ..)), asR_formatR]
  | addi =>
    rw [encode, decode_of_opcode_13 (opcode_formatI ..) (regImm_eq_addi (funct3_formatI ..)), asI_formatI]
  | xori =>
    rw [encode, decode_of_opcode_13 (opcode_formatI ..) (regImm_eq_xori (funct3_formatI ..)), asI_formatI]
  | ori =>
    rw [encode, decode_of_opcode_13 (opcode_formatI ..) (regImm_eq_ori (funct3_formatI ..)), asI_formatI]
  | andi =>
    rw [encode, decode_of_opcode_13 (opcode_formatI ..) (regImm_eq_andi (funct3_formatI ..)), asI_formatI]
  | lb => rw [encode, decode_of_opcode_03 (opcode_formatI ..) (load_eq_lb (funct3_formatI ..)), asI_formatI]
  | lh => rw [encode, decode_of_opcode_03 (opcode_formatI ..) (load_eq_lh (funct3_formatI ..)), asI_formatI]
  | lw => rw [encode, decode_of_opcode_03 (opcode_formatI ..) (load_eq_lw (funct3_formatI ..)), asI_formatI]
  | sb => rw [encode, decode_of_opcode_23 (opcode_formatS ..) (store_eq_sb (funct3_formatS ..)), asS_formatS]
  | sh => rw [encode, decode_of_opcode_23 (opcode_formatS ..) (store_eq_sh (funct3_formatS ..)), asS_formatS]
  | sw => rw [encode, decode_of_opcode_23 (opcode_formatS ..) (store_eq_sw (funct3_formatS ..)), asS_formatS]
  | beq =>
    rw [encode, decode_of_opcode_63 (opcode_formatB ..) (branch_eq_beq (funct3_formatB ..)),
      asB_formatB (hoff := hwf)]
  | bne =>
    rw [encode, decode_of_opcode_63 (opcode_formatB ..) (branch_eq_bne (funct3_formatB ..)),
      asB_formatB (hoff := hwf)]
  | blt =>
    rw [encode, decode_of_opcode_63 (opcode_formatB ..) (branch_eq_blt (funct3_formatB ..)),
      asB_formatB (hoff := hwf)]
  | bge =>
    rw [encode, decode_of_opcode_63 (opcode_formatB ..) (branch_eq_bge (funct3_formatB ..)),
      asB_formatB (hoff := hwf)]
  | bltu =>
    rw [encode, decode_of_opcode_63 (opcode_formatB ..) (branch_eq_bltu (funct3_formatB ..)),
      asB_formatB (hoff := hwf)]
  | bgeu =>
    rw [encode, decode_of_opcode_63 (opcode_formatB ..) (branch_eq_bgeu (funct3_formatB ..)),
      asB_formatB (hoff := hwf)]
  | lui => rw [encode, decode_of_opcode_37 (opcode_formatU ..), asU_formatU]
  | auipc => rw [encode, decode_of_opcode_17 (opcode_formatU ..), asU_formatU]
  | jal => rw [encode, decode_of_opcode_6F (opcode_formatJ ..), asJ_formatJ (hoff := hwf)]
  | jalr => rw [encode, decode_of_opcode_67 (opcode_formatI ..), asI_formatI]
  | unimplemented33 =>
    rw [encode, decode_of_opcode_33 (opcode_formatRaw ..) (regReg_eq_unimplemented33 (formatRaw_upper hwf)),
      upper_formatRaw]
  | unimplemented13 =>
    rw [encode, decode_of_opcode_13 (opcode_formatRaw ..) (regImm_eq_unimplemented13 (formatRaw_upper hwf)),
      upper_formatRaw]
  | unimplemented03 =>
    rw [encode, decode_of_opcode_03 (opcode_formatRaw ..) (load_eq_unimplemented03 (formatRaw_upper hwf)),
      upper_formatRaw]
  | unimplemented23 =>
    rw [encode, decode_of_opcode_23 (opcode_formatRaw ..) (store_eq_unimplemented23 (formatRaw_upper hwf)),
      upper_formatRaw]
  | unimplemented63 =>
    rw [encode, decode_of_opcode_63 (opcode_formatRaw ..) (branch_eq_unimplemented63 (formatRaw_upper hwf)),
      upper_formatRaw]

/-- Settles O1: each of the words is read field by field. -/
theorem decoderReadsTheSpecsWords : Obligations.DecoderReadsTheSpecsWords := by
  unfold Obligations.DecoderReadsTheSpecsWords
  decide

/-! ### The rows of the opcode table (spec/30_encoding.md R80, R92) -/

theorem mnemonics_nodup :
    ((OpcodeTable.instructionRows ++ OpcodeTable.fallbackRows).map OpcodeRow.mnemonic).Nodup := by
  decide

/-- A row is known by its mnemonic. -/
theorem row_eq_of_mnemonic_eq {r q : OpcodeRow}
    (hr : r ∈ OpcodeTable.instructionRows ++ OpcodeTable.fallbackRows)
    (hq : q ∈ OpcodeTable.instructionRows ++ OpcodeTable.fallbackRows) (h : r.mnemonic = q.mnemonic) : r = q :=
  List.inj_on_of_nodup_map mnemonics_nodup hr hq h

theorem not_mem_fallbackRows {r : OpcodeRow} (hr : r ∈ OpcodeTable.instructionRows) :
    r ∉ OpcodeTable.fallbackRows :=
  fun hf => List.disjoint_of_nodup_append mnemonics_nodup.of_map hr hf

/-- A row whose words all decode to instructions of its mnemonic. -/
theorem decodesAs_of_selects {mask pattern : Word} {mk : Word → Instr} {m : String} (h : Selects mask pattern mk)
    (hm : ∀ w, (mk w).mnemonic = m) (w : Word) (hw : OpcodeRow.Matches ⟨m, pattern, mask⟩ w) : DecodesAs w m :=
  ⟨mk w, h w hw, hm w⟩

/-- The words that select an instruction row decode to its instruction. -/
theorem decodesAs_of_matches :
    ∀ row ∈ OpcodeTable.instructionRows, ∀ w, row.Matches w → DecodesAs w row.mnemonic := by
  obtain ⟨hxor, hor, hand, -⟩ := xorOrAndWorkBitByBit
  obtain ⟨hxori, hori, handi, -⟩ := logicalImmediatesWorkBitByBit
  obtain ⟨hsb, hsh, hsw, -⟩ := storesWriteTheLowBytes
  obtain ⟨hbeq, hbne, -⟩ := equalityBranches
  obtain ⟨hblt, hbge, -⟩ := signedBranches
  obtain ⟨hbltu, hbgeu, -⟩ := unsignedBranches
  have hjal : Selects 0x0000007F#32 0x0000006F#32 (asJ .jal) :=
    selects_of_opcode (by decide) fun _ => decode_of_opcode_6F
  have hjalr : Selects 0x0000007F#32 0x00000067#32 (asI .jalr) :=
    selects_of_opcode (by decide) fun _ => decode_of_opcode_67
  simp only [OpcodeTable.instructionRows, OpcodeTable.regReg, OpcodeTable.immLoadStore, OpcodeTable.control,
    List.forall_mem_append, List.forall_mem_cons, List.not_mem_nil, false_implies, implies_true, and_true]
  refine ⟨⟨⟨?add, ?sub, ?sll, ?xor, ?srl, ?sra, ?or, ?and⟩,
    ?addi, ?xori, ?ori, ?andi, ?lb, ?lh, ?lw, ?sb, ?sh, ?sw⟩,
    ?beq, ?bne, ?blt, ?bge, ?bltu, ?bgeu, ?lui, ?auipc, ?jal, ?jalr⟩
  case add => exact decodesAs_of_selects addWritesTheSum.1 fun _ => rfl
  case sub => exact decodesAs_of_selects subWritesTheDifference.1 fun _ => rfl
  case sll => exact decodesAs_of_selects sllShiftsLeft.1 fun _ => rfl
  case xor => exact decodesAs_of_selects hxor fun _ => rfl
  case srl => exact decodesAs_of_selects srlShiftsRightLogically.1 fun _ => rfl
  case sra => exact decodesAs_of_selects sraShiftsRightArithmetically.1 fun _ => rfl
  case or => exact decodesAs_of_selects hor fun _ => rfl
  case and => exact decodesAs_of_selects hand fun _ => rfl
  case addi => exact decodesAs_of_selects addiAddsTheSignedImmediate.1 fun _ => rfl
  case xori => exact decodesAs_of_selects hxori fun _ => rfl
  case ori => exact decodesAs_of_selects hori fun _ => rfl
  case andi => exact decodesAs_of_selects handi fun _ => rfl
  case lb => exact decodesAs_of_selects lbLoadsASignedByte.1 fun _ => rfl
  case lh => exact decodesAs_of_selects lhLoadsASignedHalfword.1 fun _ => rfl
  case lw => exact decodesAs_of_selects lwLoadsTheWord.1 fun _ => rfl
  case sb => exact decodesAs_of_selects hsb fun _ => rfl
  case sh => exact decodesAs_of_selects hsh fun _ => rfl
  case sw => exact decodesAs_of_selects hsw fun _ => rfl
  case beq => exact decodesAs_of_selects hbeq fun _ => rfl
  case bne => exact decodesAs_of_selects hbne fun _ => rfl
  case blt => exact decodesAs_of_selects hblt fun _ => rfl
  case bge => exact decodesAs_of_selects hbge fun _ => rfl
  case bltu => exact decodesAs_of_selects hbltu fun _ => rfl
  case bgeu => exact decodesAs_of_selects hbgeu fun _ => rfl
  case lui => exact decodesAs_of_selects luiLoadsTheUpperImmediate.1 fun _ => rfl
  case auipc => exact decodesAs_of_selects auipcAddsToItsOwnAddress.1 fun _ => rfl
  case jal => exact decodesAs_of_selects hjal fun _ => rfl
  case jalr => exact decodesAs_of_selects hjalr fun _ => rfl

/-- The row of a decoded instruction, known by its mnemonic, matches the word. -/
theorem exists_row_of_decodeRow {w : Word} {i : Instr} (h : DecodeRow w i) :
    ∃ row ∈ OpcodeTable.instructionRows ++ OpcodeTable.fallbackRows, row.Matches w ∧ row.mnemonic = i.mnemonic := by
  cases h with
  | add hop h3 h7 => exact ⟨⟨"ADD", 0x00000033#32, _⟩, by decide, (maskFE00707F_iff rfl).mpr ⟨hop, h3, h7⟩, rfl⟩
  | sub hop h3 h7 => exact ⟨⟨"SUB", 0x40000033#32, _⟩, by decide, (maskFE00707F_iff rfl).mpr ⟨hop, h3, h7⟩, rfl⟩
  | sll hop h3 => exact ⟨⟨"SLL", 0x00001033#32, _⟩, by decide, (mask707F_iff rfl).mpr ⟨hop, h3⟩, rfl⟩
  | xor hop h3 => exact ⟨⟨"XOR", 0x00004033#32, _⟩, by decide, (mask707F_iff rfl).mpr ⟨hop, h3⟩, rfl⟩
  | srl hop h3 h7 => exact ⟨⟨"SRL", 0x00005033#32, _⟩, by decide, (maskFE00707F_iff rfl).mpr ⟨hop, h3, h7⟩, rfl⟩
  | sra hop h3 h7 => exact ⟨⟨"SRA", 0x40005033#32, _⟩, by decide, (maskFE00707F_iff rfl).mpr ⟨hop, h3, h7⟩, rfl⟩
  | or hop h3 => exact ⟨⟨"OR", 0x00006033#32, _⟩, by decide, (mask707F_iff rfl).mpr ⟨hop, h3⟩, rfl⟩
  | and hop h3 => exact ⟨⟨"AND", 0x00007033#32, _⟩, by decide, (mask707F_iff rfl).mpr ⟨hop, h3⟩, rfl⟩
  | addi hop h3 => exact ⟨⟨"ADDI", 0x00000013#32, _⟩, by decide, (mask707F_iff rfl).mpr ⟨hop, h3⟩, rfl⟩
  | xori hop h3 => exact ⟨⟨"XORI", 0x00004013#32, _⟩, by decide, (mask707F_iff rfl).mpr ⟨hop, h3⟩, rfl⟩
  | ori hop h3 => exact ⟨⟨"ORI", 0x00006013#32, _⟩, by decide, (mask707F_iff rfl).mpr ⟨hop, h3⟩, rfl⟩
  | andi hop h3 => exact ⟨⟨"ANDI", 0x00007013#32, _⟩, by decide, (mask707F_iff rfl).mpr ⟨hop, h3⟩, rfl⟩
  | lb hop h3 => exact ⟨⟨"LB", 0x00000003#32, _⟩, by decide, (mask707F_iff rfl).mpr ⟨hop, h3⟩, rfl⟩
  | lh hop h3 => exact ⟨⟨"LH", 0x00001003#32, _⟩, by decide, (mask707F_iff rfl).mpr ⟨hop, h3⟩, rfl⟩
  | lw hop h3 => exact ⟨⟨"LW", 0x00002003#32, _⟩, by decide, (mask707F_iff rfl).mpr ⟨hop, h3⟩, rfl⟩
  | sb hop h3 => exact ⟨⟨"SB", 0x00000023#32, _⟩, by decide, (mask707F_iff rfl).mpr ⟨hop, h3⟩, rfl⟩
  | sh hop h3 => exact ⟨⟨"SH", 0x00001023#32, _⟩, by decide, (mask707F_iff rfl).mpr ⟨hop, h3⟩, rfl⟩
  | sw hop h3 => exact ⟨⟨"SW", 0x00002023#32, _⟩, by decide, (mask707F_iff rfl).mpr ⟨hop, h3⟩, rfl⟩
  | beq hop h3 => exact ⟨⟨"BEQ", 0x00000063#32, _⟩, by decide, (mask707F_iff rfl).mpr ⟨hop, h3⟩, rfl⟩
  | bne hop h3 => exact ⟨⟨"BNE", 0x00001063#32, _⟩, by decide, (mask707F_iff rfl).mpr ⟨hop, h3⟩, rfl⟩
  | blt hop h3 => exact ⟨⟨"BLT", 0x00004063#32, _⟩, by decide, (mask707F_iff rfl).mpr ⟨hop, h3⟩, rfl⟩
  | bge hop h3 => exact ⟨⟨"BGE", 0x00005063#32, _⟩, by decide, (mask707F_iff rfl).mpr ⟨hop, h3⟩, rfl⟩
  | bltu hop h3 => exact ⟨⟨"BLTU", 0x00006063#32, _⟩, by decide, (mask707F_iff rfl).mpr ⟨hop, h3⟩, rfl⟩
  | bgeu hop h3 => exact ⟨⟨"BGEU", 0x00007063#32, _⟩, by decide, (mask707F_iff rfl).mpr ⟨hop, h3⟩, rfl⟩
  | lui hop => exact ⟨⟨"LUI", 0x00000037#32, _⟩, by decide, (mask7F_iff rfl).mpr hop, rfl⟩
  | auipc hop => exact ⟨⟨"AUIPC", 0x00000017#32, _⟩, by decide, (mask7F_iff rfl).mpr hop, rfl⟩
  | jal hop => exact ⟨⟨"JAL", 0x0000006F#32, _⟩, by decide, (mask7F_iff rfl).mpr hop, rfl⟩
  | jalr hop => exact ⟨⟨"JALR", 0x00000067#32, _⟩, by decide, (mask7F_iff rfl).mpr hop, rfl⟩
  | unimplemented33 hop => exact ⟨⟨"UNIMPLEMENTED_33", 0x00000033#32, _⟩, by decide, (mask7F_iff rfl).mpr hop, rfl⟩
  | unimplemented13 hop => exact ⟨⟨"UNIMPLEMENTED_13", 0x00000013#32, _⟩, by decide, (mask7F_iff rfl).mpr hop, rfl⟩
  | unimplemented03 hop => exact ⟨⟨"UNIMPLEMENTED_03", 0x00000003#32, _⟩, by decide, (mask7F_iff rfl).mpr hop, rfl⟩
  | unimplemented23 hop => exact ⟨⟨"UNIMPLEMENTED_23", 0x00000023#32, _⟩, by decide, (mask7F_iff rfl).mpr hop, rfl⟩
  | unimplemented63 hop => exact ⟨⟨"UNIMPLEMENTED_63", 0x00000063#32, _⟩, by decide, (mask7F_iff rfl).mpr hop, rfl⟩

/-- A word that decodes to an instruction with the mnemonic of a row selects the row. -/
theorem matches_of_decodesAs {row : OpcodeRow}
    (hrow : row ∈ OpcodeTable.instructionRows ++ OpcodeTable.fallbackRows) {w : Word}
    (h : DecodesAs w row.mnemonic) : row.Matches w := by
  obtain ⟨i, hd, hi⟩ := h
  obtain ⟨q, hq, hmatch, hqi⟩ := exists_row_of_decodeRow (decodeRow_of_decode hd)
  rwa [row_eq_of_mnemonic_eq hrow hq (hi.symm.trans hqi.symm)]

/-- Settles O2: a selected row's instruction is what the word decodes to, and the decoded instruction's row is
selected, the one row of its mnemonic. -/
theorem instructionRowsSelectTheirWords : Obligations.InstructionRowsSelectTheirWords :=
  fun row hrow w => ⟨decodesAs_of_matches row hrow w, matches_of_decodesAs (List.mem_append_left _ hrow)⟩

/-- A fallback row is selected by the opcode alone. -/
theorem fallbackRow_matches_iff :
    ∀ row ∈ OpcodeTable.fallbackRows, ∀ w, row.Matches w ↔ Decode.opcode w = Decode.opcode row.pattern := by
  simp only [OpcodeTable.fallbackRows, List.forall_mem_cons, List.not_mem_nil, false_implies, implies_true,
    and_true]
  exact ⟨fun _ => mask7F_iff (by decide), fun _ => mask7F_iff (by decide), fun _ => mask7F_iff (by decide),
    fun _ => mask7F_iff (by decide), fun _ => mask7F_iff (by decide)⟩

theorem fallbackRow_opcode_known :
    ∀ row ∈ OpcodeTable.fallbackRows, Decode.opcode row.pattern ∈ knownOpcodes := by
  decide

theorem fallbackRow_opcode_inj : ∀ r ∈ OpcodeTable.fallbackRows, ∀ q ∈ OpcodeTable.fallbackRows,
    Decode.opcode r.pattern = Decode.opcode q.pattern → r = q := by
  decide

theorem DecodesAs.unique {w : Word} {m n : String} (hm : DecodesAs w m) (hn : DecodesAs w n) : m = n := by
  obtain ⟨i, hi, rfl⟩ := hm
  obtain ⟨j, hj, rfl⟩ := hn
  rw [Decoded.instr.inj (hi.symm.trans hj)]

/-- A word selects no instruction row but that of the instruction it decodes to. -/
theorem row_eq_of_matches_of_decodesAs {r q : OpcodeRow} {w : Word} (hr : r ∈ OpcodeTable.instructionRows)
    (hq : q ∈ OpcodeTable.instructionRows ++ OpcodeTable.fallbackRows) (hrw : r.Matches w)
    (hqw : DecodesAs w q.mnemonic) : r = q :=
  row_eq_of_mnemonic_eq (List.mem_append_left _ hr) hq ((decodesAs_of_matches r hr w hrw).unique hqw)

/-- A word selects some row exactly when its opcode is known. -/
theorem exists_matches_iff_known (w : Word) :
    (∃ r ∈ OpcodeTable.instructionRows ++ OpcodeTable.fallbackRows, r.Matches w) ↔
      Decode.opcode w ∈ knownOpcodes := by
  obtain ⟨hmem, i, -, hrow⟩ | ⟨hmem, hu⟩ := decode_cases w
  · obtain ⟨r, hr, hmatch, -⟩ := exists_row_of_decodeRow hrow
    exact iff_of_true ⟨r, hr, hmatch⟩ hmem
  · refine iff_of_false ?_ hmem
    rintro ⟨r, hr, hmatch⟩
    rcases List.mem_append.mp hr with hr | hr
    · obtain ⟨i, hi, -⟩ := decodesAs_of_matches r hr w hmatch
      simp [hu] at hi
    · exact hmem ((fallbackRow_matches_iff r hr w).mp hmatch ▸ fallbackRow_opcode_known r hr)

/-- A fallback row's word that selects no instruction row decodes to the fallback row's instruction. -/
theorem decodesAs_of_fallbackRow {row : OpcodeRow} (hrow : row ∈ OpcodeTable.fallbackRows) {w : Word}
    (hmatch : row.Matches w) (hnone : ∀ r ∈ OpcodeTable.instructionRows, ¬r.Matches w) :
    DecodesAs w row.mnemonic := by
  have hop := (fallbackRow_matches_iff row hrow w).mp hmatch
  obtain ⟨-, i, hi, hdec⟩ | ⟨hunknown, -⟩ := decode_cases w
  · obtain ⟨q, hq, hqmatch, hqi⟩ := exists_row_of_decodeRow hdec
    have hqf := (List.mem_append.mp hq).resolve_left fun hqr => hnone q hqr hqmatch
    have hqop := (fallbackRow_matches_iff q hqf w).mp hqmatch
    exact ⟨i, hi, fallbackRow_opcode_inj row hrow q hqf (hop.symm.trans hqop) ▸ hqi.symm⟩
  · exact absurd (hop ▸ fallbackRow_opcode_known row hrow) hunknown

/-- Settles O3: a word decodes to one instruction, whose row it selects; only a word that selects no instruction
row decodes to a fallback row's. -/
theorem fallbackRowsApplyAfterInstructionRows : Obligations.FallbackRowsApplyAfterInstructionRows := by
  refine ⟨?disjoint, fun row hrow w =>
    ⟨fun ⟨hmatch, hnone⟩ => decodesAs_of_fallbackRow hrow hmatch hnone, ?fallback⟩, fun w op => ?unknown⟩
  case disjoint =>
    have hne : OpcodeTable.instructionRows.Pairwise (· ≠ ·) := List.Nodup.of_append_left mnemonics_nodup.of_map
    refine hne.imp_of_mem fun hr hq hrq w ⟨hrw, hqw⟩ => hrq ?_
    exact row_eq_of_matches_of_decodesAs hr (List.mem_append_left _ hq) hrw (decodesAs_of_matches _ hq w hqw)
  case fallback =>
    have hall := List.mem_append_right OpcodeTable.instructionRows hrow
    exact fun h => ⟨matches_of_decodesAs hall h, fun r hr hrw =>
      not_mem_fallbackRows hr (row_eq_of_matches_of_decodesAs hr hall hrw h ▸ hrow)⟩
  case unknown =>
    have hnone : (∀ r ∈ OpcodeTable.instructionRows ++ OpcodeTable.fallbackRows, ¬r.Matches w) ↔
        Decode.opcode w ∉ knownOpcodes := by simpa using (exists_matches_iff_known w).not
    rw [hnone, decode_eq_unknownOpcode_iff]
    exact and_congr_right fun hop => hop ▸ Iff.rfl

/-- Settles O5: the opcode decides, and 119 of its 128 values are none of the nine. -/
theorem unknownOpcodeExactlyOutsideTheNine : Obligations.UnknownOpcodeExactlyOutsideTheNine := by
  refine ⟨fun w op => decode_eq_unknownOpcode_iff, ?_⟩
  simp only [decode_eq_unknownOpcode_iff]
  rfl

/-! ### The recognised-unimplemented words -/

/-- Settles O4: the fields put the word in the row, and the row says what the fields are. -/
theorem unimplementedWordsByFields : Obligations.UnimplementedWordsByFields := by
  intro w
  refine ⟨⟨fun h => ?_, fun ⟨hop, h⟩ => ?_⟩, ⟨fun h => ?_, fun ⟨hop, h⟩ => ?_⟩,
    ⟨fun h => ?_, fun ⟨hop, h⟩ => ?_⟩, ⟨fun h => ?_, fun ⟨hop, h⟩ => ?_⟩, ⟨fun h => ?_, fun ⟨hop, h⟩ => ?_⟩⟩
  · cases decodeRow_of_decode h with
    | unimplemented33 hop hwf => exact ⟨hop, wellFormed_unimplemented33_upper.mp hwf⟩
  · exact decode_of_opcode_33 hop (regReg_eq_unimplemented33 (wellFormed_unimplemented33_upper.mpr h))
  · cases decodeRow_of_decode h with
    | unimplemented13 hop hwf => exact ⟨hop, wellFormed_unimplemented13_upper.mp hwf⟩
  · exact decode_of_opcode_13 hop (regImm_eq_unimplemented13 (wellFormed_unimplemented13_upper.mpr h))
  · cases decodeRow_of_decode h with
    | unimplemented03 hop hwf => exact ⟨hop, wellFormed_unimplemented03_upper.mp hwf⟩
  · exact decode_of_opcode_03 hop (load_eq_unimplemented03 (wellFormed_unimplemented03_upper.mpr h))
  · cases decodeRow_of_decode h with
    | unimplemented23 hop hwf => exact ⟨hop, wellFormed_unimplemented23_upper.mp hwf⟩
  · exact decode_of_opcode_23 hop (store_eq_unimplemented23 (wellFormed_unimplemented23_upper.mpr h))
  · cases decodeRow_of_decode h with
    | unimplemented63 hop hwf => exact ⟨hop, wellFormed_unimplemented63_upper.mp hwf⟩
  · exact decode_of_opcode_63 hop (branch_eq_unimplemented63 (wellFormed_unimplemented63_upper.mpr h))

end Sys2Proof.Machine

namespace Sys2Proof

/-! ### A word packed again from its fields -/

section
variable {w : Word} {op f7 : BitVec 7} {f3 : BitVec 3}

theorem formatR_fields (hop : Decode.opcode w = op) (h3 : Decode.funct3 w = f3) (h7 : Decode.funct7 w = f7) :
    Encode.formatR f7 (Decode.rs2 w) (Decode.rs1 w) f3 (Decode.rd w) op = w := by
  subst hop h3 h7
  apply BitVec.eq_of_toNat_eq
  rw [Encode.formatR_toNat, Decode.opcode_toNat, Decode.funct3_toNat, Decode.funct7_toNat, Decode.rd_val,
    Decode.rs1_val, Decode.rs2_val]
  omega

theorem formatI_fields (hop : Decode.opcode w = op) (h3 : Decode.funct3 w = f3) :
    Encode.formatI (Decode.immI w) (Decode.rs1 w) f3 (Decode.rd w) op = w := by
  subst hop h3
  apply BitVec.eq_of_toNat_eq
  rw [Encode.formatI_toNat, Decode.opcode_toNat, Decode.funct3_toNat, Decode.immI_toNat, Decode.rd_val,
    Decode.rs1_val]
  omega

theorem formatS_fields (hop : Decode.opcode w = op) (h3 : Decode.funct3 w = f3) :
    Encode.formatS (Decode.immS w) (Decode.rs2 w) (Decode.rs1 w) f3 op = w := by
  subst hop h3
  apply BitVec.eq_of_toNat_eq
  rw [Encode.formatS_toNat, Decode.opcode_toNat, Decode.funct3_toNat, Decode.immS_toNat, Decode.rs2_val,
    Decode.rs1_val]
  omega

/-- The digits of the B immediate that the B format stores (R76). -/
theorem immB_digits (w : Word) : (Decode.immB w).toNat / 4096 % 2 = w.toNat / 2147483648 % 2 ∧
    (Decode.immB w).toNat / 2048 % 2 = w.toNat / 128 % 2 ∧
    (Decode.immB w).toNat / 32 % 64 = w.toNat / 33554432 % 64 ∧
    (Decode.immB w).toNat / 2 % 16 = w.toNat / 256 % 16 := by
  have hdigits (a b c d : Nat) (ha : a < 2) (hb : b < 2) (hc : c < 64) (hd : d < 16) (n : Nat)
      (hn : n = 4096 * a + 2048 * b + 32 * c + 2 * d) :
      n / 4096 % 2 = a ∧ n / 2048 % 2 = b ∧ n / 32 % 64 = c ∧ n / 2 % 16 = d := by omega
  exact hdigits _ _ _ _ (Nat.mod_lt _ (by omega)) (Nat.mod_lt _ (by omega)) (Nat.mod_lt _ (by omega))
    (Nat.mod_lt _ (by omega)) _ (Decode.immB_toNat w)

/-- The digits of the J immediate that the J format stores (R78). -/
theorem immJ_digits (w : Word) : (Decode.immJ w).toNat / 1048576 % 2 = w.toNat / 2147483648 % 2 ∧
    (Decode.immJ w).toNat / 4096 % 256 = w.toNat / 4096 % 256 ∧
    (Decode.immJ w).toNat / 2048 % 2 = w.toNat / 1048576 % 2 ∧
    (Decode.immJ w).toNat / 2 % 1024 = w.toNat / 2097152 % 1024 := by
  have hdigits (a b c d : Nat) (ha : a < 2) (hb : b < 256) (hc : c < 2) (hd : d < 1024) (n : Nat)
      (hn : n = 1048576 * a + 4096 * b + 2048 * c + 2 * d) :
      n / 1048576 % 2 = a ∧ n / 4096 % 256 = b ∧ n / 2048 % 2 = c ∧ n / 2 % 1024 = d := by omega
  exact hdigits _ _ _ _ (Nat.mod_lt _ (by omega)) (Nat.mod_lt _ (by omega)) (Nat.mod_lt _ (by omega))
    (Nat.mod_lt _ (by omega)) _ (Decode.immJ_toNat w)

theorem formatB_fields (hop : Decode.opcode w = op) (h3 : Decode.funct3 w = f3) :
    Encode.formatB (Decode.immB w) (Decode.rs2 w) (Decode.rs1 w) f3 op = w := by
  subst hop h3
  obtain ⟨e12, e11, e5, e1⟩ := immB_digits w
  apply BitVec.eq_of_toNat_eq
  rw [Encode.formatB_toNat, Decode.opcode_toNat, Decode.funct3_toNat, Decode.rs2_val,
    Decode.rs1_val, e12, e11, e5, e1]
  clear e12 e11 e5 e1
  omega

theorem formatU_fields (hop : Decode.opcode w = op) : Encode.formatU (Decode.immU w) (Decode.rd w) op = w := by
  subst hop
  apply BitVec.eq_of_toNat_eq
  rw [Encode.formatU_toNat, Decode.opcode_toNat, Decode.immU_toNat, Decode.rd_val]
  omega

theorem formatJ_fields (hop : Decode.opcode w = op) : Encode.formatJ (Decode.immJ w) (Decode.rd w) op = w := by
  subst hop
  obtain ⟨e20, e12, e11, e1⟩ := immJ_digits w
  apply BitVec.eq_of_toNat_eq
  rw [Encode.formatJ_toNat, Decode.opcode_toNat, Decode.rd_val, e20, e12, e11, e1]
  clear e20 e12 e11 e1
  omega

theorem formatRaw_fields (hop : Decode.opcode w = op) : Encode.formatRaw (Decode.upper w) op = w := by
  subst hop
  apply BitVec.eq_of_toNat_eq
  rw [Encode.formatRaw_toNat, Decode.opcode_toNat, Decode.upper_toNat]
  omega

/-- The mask of the 25 low bits forgets funct7. -/
theorem formatR_and_mask_funct7 (g7 : BitVec 7) (rs2 rs1 rd : Reg) :
    Encode.formatR f7 rs2 rs1 f3 rd op &&& 0x01FFFFFF#32 =
      Encode.formatR g7 rs2 rs1 f3 rd op &&& 0x01FFFFFF#32 := by
  have hmask : (0x01FFFFFF#32).toNat = 2 ^ 25 - 1 := rfl
  apply BitVec.eq_of_toNat_eq
  rw [BitVec.toNat_and, BitVec.toNat_and, hmask, Nat.and_two_pow_sub_one_eq_mod, Nat.and_two_pow_sub_one_eq_mod,
    Encode.formatR_toNat, Encode.formatR_toNat]
  omega

/-- The bits of the mask that leaves out funct3. -/
theorem maskFFFF8FFF_bits : ∀ k, k < 32 → ((0xFFFF8FFF#32).getLsbD k = true ↔ k < 12 ∨ 15 ≤ k) := by decide

/-- The mask that leaves out funct3 forgets it. -/
theorem formatI_and_mask_funct3 (g3 : BitVec 3) (imm : BitVec 12) (rs1 rd : Reg) :
    Encode.formatI imm rs1 f3 rd op &&& 0xFFFF8FFF#32 = Encode.formatI imm rs1 g3 rd op &&& 0xFFFF8FFF#32 := by
  have hlow : (Encode.formatI imm rs1 f3 rd op).extractLsb' 0 12 =
      (Encode.formatI imm rs1 g3 rd op).extractLsb' 0 12 := by
    apply BitVec.eq_of_toNat_eq
    rw [extractLsb'_toNat_eq, extractLsb'_toNat_eq, Encode.formatI_toNat, Encode.formatI_toNat]
    omega
  have hhigh : (Encode.formatI imm rs1 f3 rd op).extractLsb' 15 17 =
      (Encode.formatI imm rs1 g3 rd op).extractLsb' 15 17 := by
    apply BitVec.eq_of_toNat_eq
    rw [extractLsb'_toNat_eq, extractLsb'_toNat_eq, Encode.formatI_toNat, Encode.formatI_toNat]
    omega
  rw [extractLsb'_eq_iff] at hlow hhigh
  apply BitVec.eq_of_getLsbD_eq
  intro k hk
  rw [BitVec.getLsbD_and, BitVec.getLsbD_and]
  by_cases hm : (0xFFFF8FFF#32).getLsbD k = true
  · rcases (maskFFFF8FFF_bits k hk).mp hm with h | h
    · simpa using congrArg (· && (0xFFFF8FFF#32).getLsbD k) (hlow k h)
    · have hpos : 15 + (k - 15) = k := by omega
      have hbit := hhigh (k - 15) (by omega)
      rw [hpos] at hbit
      rw [hbit]
  · simp [hm]

/-! ### The parity of an offset -/

theorem immB_even (w : Word) : (!(Decode.immB w)[0]) = true := by
  rw [(toNat_even_iff (Decode.immB w)).mp (by rw [Decode.immB_toNat]; omega), Bool.not_false]

theorem immJ_even (w : Word) : (!(Decode.immJ w)[0]) = true := by
  rw [(toNat_even_iff (Decode.immJ w)).mp (by rw [Decode.immJ_toNat]; omega), Bool.not_false]

end

end Sys2Proof

namespace Sys2Proof.Machine

/-- Settles O8: the offsets of the formats B and J are decoded with a 0 at the end, and a raw word is decoded only
where it is in no other row. -/
theorem decodedInstructionsAreWellFormed : Obligations.DecodedInstructionsAreWellFormed := by
  intro w i h
  cases decodeRow_of_decode h with
  | beq | bne | blt | bge | bltu | bgeu => exact immB_even w
  | jal => exact immJ_even w
  | unimplemented33 _ hwf | unimplemented13 _ hwf | unimplemented03 _ hwf | unimplemented23 _ hwf
  | unimplemented63 _ hwf => exact hwf
  | add | sub | sll | xor | srl | sra | or | and | addi | xori | ori | andi | lb | lh | lw | sb | sh | sw | lui
  | auipc | jalr => rfl

/-- Settles O7: the fields of a word pack to the word, or to one that differs in the field its mask leaves out. -/
theorem encodeOfDecodeKeepsExaminedBits : Obligations.EncodeOfDecodeKeepsExaminedBits := by
  intro w i h
  cases decodeRow_of_decode h with
  | add hop h3 h7 | sub hop h3 h7 | srl hop h3 h7 | sra hop h3 h7 =>
    exact congrArg (· &&& 0xFFFFFFFF#32) (formatR_fields hop h3 h7)
  | sll hop h3 | xor hop h3 | or hop h3 | and hop h3 =>
    exact (formatR_and_mask_funct7 _ _ _ _).trans
      (congrArg (· &&& 0x01FFFFFF#32) (formatR_fields hop h3 rfl))
  | addi hop h3 | xori hop h3 | ori hop h3 | andi hop h3 | lb hop h3 | lh hop h3 | lw hop h3 =>
    exact congrArg (· &&& 0xFFFFFFFF#32) (formatI_fields hop h3)
  | sb hop h3 | sh hop h3 | sw hop h3 => exact congrArg (· &&& 0xFFFFFFFF#32) (formatS_fields hop h3)
  | beq hop h3 | bne hop h3 | blt hop h3 | bge hop h3 | bltu hop h3 | bgeu hop h3 =>
    exact congrArg (· &&& 0xFFFFFFFF#32) (formatB_fields hop h3)
  | lui hop | auipc hop => exact congrArg (· &&& 0xFFFFFFFF#32) (formatU_fields hop)
  | jal hop => exact congrArg (· &&& 0xFFFFFFFF#32) (formatJ_fields hop)
  | jalr hop =>
    exact (formatI_and_mask_funct3 _ _ _ _).trans (congrArg (· &&& 0xFFFF8FFF#32) (formatI_fields hop rfl))
  | unimplemented33 hop | unimplemented13 hop | unimplemented03 hop | unimplemented23 hop | unimplemented63 hop =>
    exact congrArg (· &&& 0xFFFFFFFF#32) (formatRaw_fields hop)

end Sys2Proof.Machine

namespace Sys2Proof

/-! ### The bits of the I, B and J immediates (R74, R76, R78) -/

/-- The I field is `inst[31:20]` (R74). -/
theorem Decode.immI_getLsbD (w : Word) {k : Nat} (hk : k < 12) :
    (Decode.immI w).getLsbD k = w.getLsbD (20 + k) := by
  simp [Decode.immI, hk]

/-- The B field is `inst[31]`, `inst[7]`, `inst[30:25]`, `inst[11:8]` over a 0 (R76). -/
theorem Decode.immB_getLsbD (w : Word) {k : Nat} (hk : k < 13) : (Decode.immB w).getLsbD k =
    if k = 0 then false else if k < 5 then w.getLsbD (7 + k) else if k < 11 then w.getLsbD (20 + k)
      else if k = 11 then w.getLsbD 7 else w.getLsbD 31 := by
  rw [Decode.immB]
  simp only [BitVec.getLsbD_append, BitVec.getLsbD_extractLsb', BitVec.getLsbD_zero]
  grind

/-- The J field is `inst[31]`, `inst[19:12]`, `inst[20]`, `inst[30:21]` over a 0 (R78). -/
theorem Decode.immJ_getLsbD (w : Word) {k : Nat} (hk : k < 21) : (Decode.immJ w).getLsbD k =
    if k = 0 then false else if k < 11 then w.getLsbD (20 + k) else if k = 11 then w.getLsbD 20
      else if k < 20 then w.getLsbD k else w.getLsbD 31 := by
  rw [Decode.immJ]
  simp only [BitVec.getLsbD_append, BitVec.getLsbD_extractLsb', BitVec.getLsbD_zero]
  grind

end Sys2Proof

namespace Sys2Proof.Machine

section
variable (w : Word) {k : Nat} (hk : k < 32)
include hk

theorem immI_decode_getLsbD :
    (immI (Decode.immI w)).getLsbD k = if k < 12 then w.getLsbD (20 + k) else w.getLsbD 31 := by
  rw [immI_getLsbD _ hk, Decode.immI_getLsbD w (by omega)]
  rcases Nat.lt_or_ge k 12 with hfield | hsign
  · rw [Nat.min_eq_left (by omega), if_pos hfield]
  · rw [Nat.min_eq_right (by omega), if_neg (by omega)]

theorem immB_decode_getLsbD : (immB (Decode.immB w)).getLsbD k =
    if k = 0 then false else if k < 5 then w.getLsbD (7 + k) else if k < 11 then w.getLsbD (20 + k)
      else if k = 11 then w.getLsbD 7 else w.getLsbD 31 := by
  rw [immB, getLsbD_signExtend_eq_min _ hk, Decode.immB_getLsbD w (by omega)]
  rcases Nat.lt_or_ge k 12 with hfield | hsign
  · rw [Nat.min_eq_left (by omega)]
  · simp [Nat.min_eq_right hsign, show ¬k = 0 by omega, show ¬k < 5 by omega, show ¬k < 11 by omega,
      show ¬k = 11 by omega]

theorem immJ_decode_getLsbD : (immJ (Decode.immJ w)).getLsbD k =
    if k = 0 then false else if k < 11 then w.getLsbD (20 + k) else if k = 11 then w.getLsbD 20
      else if k < 20 then w.getLsbD k else w.getLsbD 31 := by
  rw [immJ, getLsbD_signExtend_eq_min _ hk, Decode.immJ_getLsbD w (by omega)]
  rcases Nat.lt_or_ge k 20 with hfield | hsign
  · rw [Nat.min_eq_left (by omega)]
  · simp [Nat.min_eq_right hsign, show ¬k = 0 by omega, show ¬k < 11 by omega, show ¬k = 11 by omega,
      show ¬k < 20 by omega]

end

/-- Settles O10: past the field every bit of an immediate is the field's top bit, `inst[31]`. -/
theorem immediateBitsOfFormatsIBJ : Obligations.ImmediateBitsOfFormatsIBJ :=
  fun w _ hk => ⟨immI_decode_getLsbD w hk, immB_decode_getLsbD w hk, immJ_decode_getLsbD w hk⟩

end Sys2Proof.Machine

/-! Family 47_jumps (O56, O57): the targets as integers; the word with bit 0 cleared. -/

namespace Sys2Proof.Machine

/-- Clearing bit 0 rounds down to an even number. -/
theorem toNat_and_clear_bit0 (x : Word) : (x &&& 0xFFFFFFFE#32).toNat = x.toNat / 2 * 2 := by
  have hmask : ∀ k, k < 32 → (0xFFFFFFFE#32).getLsbD k = decide (1 ≤ k) := by decide
  have hshift : x &&& 0xFFFFFFFE#32 = x >>> 1 <<< 1 := by
    apply BitVec.eq_of_getLsbD_eq
    intro k hk
    rw [BitVec.getLsbD_and, hmask k hk, BitVec.getLsbD_shiftLeft, BitVec.getLsbD_ushiftRight]
    rcases Nat.eq_zero_or_pos k with rfl | hpos
    · simp
    · simp [hk, Nat.add_sub_cancel' hpos, Nat.one_le_iff_ne_zero, hpos.ne']
  have := x.isLt
  rw [hshift, BitVec.toNat_shiftLeft, BitVec.toNat_ushiftRight, Nat.shiftLeft_eq, Nat.shiftRight_eq_div_pow]
  omega

/-- The target of JAL is the sum of its own address and the signed offset, modulo 2^32 (spec/47_jumps.md R181). -/
theorem State.jalTarget_eq_ofInt (s : State) (offset : BitVec 21) :
    s.jalTarget offset = BitVec.ofInt 32 (s.pc.toNat - 4 + offset.toInt) := by
  rw [State.jalTarget, s.ia_eq_ofInt, BitVec.ofInt_add]; rfl

/-- The target of JALR is the sum of the base and the signed displacement, modulo 2^32 and rounded down to an even
number (R182). -/
theorem State.jalrTarget_eq_ofNat (s : State) (rs1 : Reg) (imm : BitVec 12) : s.jalrTarget rs1 imm =
    BitVec.ofNat 32 ((((s.readReg rs1).toNat + imm.toInt) % 2 ^ 32).toNat / 2 * 2) := by
  have hsum : (s.readReg rs1 + immI imm).toNat = (((s.readReg rs1).toNat + imm.toInt) % 2 ^ 32).toNat := by
    rw [immI_add, BitVec.toNat_ofInt]; rfl
  rw [State.jalrTarget, ← hsum, ← toNat_and_clear_bit0, BitVec.ofNat_toNat, BitVec.setWidth_eq]

/-- Settles O56: the row of opcode 0x6F, the link, and the target from the own address. -/
theorem jalLinksAndJumps : Obligations.JalLinksAndJumps :=
  ⟨selects_of_opcode (by decide) fun _ => decode_of_opcode_6F,
    fun s rd off => s.jalTarget_eq_ofInt off ▸ s.retire_jump rd (s.jalTarget off)⟩

/-- Settles O57: the row of opcode 0x67, any funct3; the target is read before the link is written. -/
theorem jalrLinksAndJumps : Obligations.JalrLinksAndJumps :=
  ⟨selects_of_opcode (by decide) fun _ => decode_of_opcode_67,
    fun s rd rs1 imm => s.jalrTarget_eq_ofNat rs1 imm ▸ s.retire_jump rd (s.jalrTarget rs1 imm)⟩

end Sys2Proof.Machine

/-! Families 48_unimplemented_and_unknown and 10_state (O21, O24 to O27, O30, O58): everything an instruction can do
to the state, in four cases, and what a step leaves by it. -/

namespace Sys2Proof.Machine

/-- A recognised-unimplemented word changes nothing but the signal, which is UNIMPL_SIGNAL
(spec/48_unimplemented_and_unknown.md R191). -/
theorem State.retireUnimplemented_result (s : State) (op : BitVec 7) :
    ∃ g, s.retireUnimplemented op = .next (s.setSignal g) ∧ (s.cfg.unimplSignal = .continues → g = .continues) ∧
      (s.cfg.unimplSignal = .decodeFault → g = .decodeFault op) := by
  rw [State.retireUnimplemented_eq]
  cases hc : s.cfg.unimplSignal with
  | continues => exact ⟨.continues, rfl, fun _ => rfl, nofun⟩
  | decodeFault => exact ⟨.decodeFault op, rfl, nofun, fun _ => rfl⟩

/-- Everything the instruction `i` can do to the state `s`. -/
inductive Effect (i : Instr) (s : State) : State → Prop
  /-- a register is written, and the pc set or left -/
  | register (rd : Reg) (v target : Word) : destination i = some rd → storeAccess i = none →
      unimplementedOpcode i = none → Effect i s (((s.writeReg rd v).setPc target).setSignal .continues)
  /-- the pc is set or left, and nothing else changes -/
  | branch (target : Word) : destination i = none → storeAccess i = none → unimplementedOpcode i = none →
      Effect i s ((s.setPc target).setSignal .continues)
  /-- memory is written -/
  | store (rs1 rs2 : Reg) (imm : BitVec 12) (n : Nat) : n ≤ 4 → destination i = none →
      storeAccess i = some (rs1, rs2, imm, n) → unimplementedOpcode i = none →
      Effect i s ((s.store (s.storeAddr rs1 imm) n (s.readReg rs2)).setSignal .continues)
  /-- nothing changes but the signal, which is UNIMPL_SIGNAL -/
  | unimplemented (op : BitVec 7) (g : Signal) : destination i = none → storeAccess i = none →
      unimplementedOpcode i = some op → (s.cfg.unimplSignal = .continues → g = .continues) →
      (s.cfg.unimplSignal = .decodeFault → g = .decodeFault op) → Effect i s (s.setSignal g)

section
variable {i : Instr} {s t : State}

theorem effect_of_branch {cond : Word → Word → Bool} {rs1 rs2 : Reg} {offset : BitVec 13}
    (hd : destination i = none) (ha : storeAccess i = none) (hu : unimplementedOpcode i = none)
    (h : s.branch cond rs1 rs2 offset = .next t) : Effect i s t := by
  unfold State.branch at h
  split at h
  · cases h
    exact .branch _ hd ha hu
  · cases h
    exact .branch s.pc hd ha hu

theorem effect_of_retireUnimplemented {op : BitVec 7} (hd : destination i = none) (ha : storeAccess i = none)
    (hu : unimplementedOpcode i = some op) (h : s.retireUnimplemented op = .next t) : Effect i s t := by
  obtain ⟨g, hg, hcont, hfault⟩ := s.retireUnimplemented_result op
  cases hg.symm.trans h
  exact .unimplemented op g hd ha hu hcont hfault

/-- Each instruction writes a register, jumps, branches, stores, or is a recognised-unimplemented word. -/
theorem exec_effect (h : exec i s = .next t) : Effect i s t := by
  cases i with
  | add | sub | sll | xor | srl | sra | or | and | addi | xori | ori | andi | lb | lh | lw | lui | auipc | jal
  | jalr =>
    cases h
    exact .register _ _ _ rfl rfl rfl
  | sb | sh | sw =>
    cases h
    exact .store _ _ _ _ (by decide) rfl rfl rfl
  | beq | bne | blt | bge | bltu | bgeu => exact effect_of_branch rfl rfl rfl h
  | unimplemented33 | unimplemented13 | unimplemented03 | unimplemented23 | unimplemented63 =>
    exact effect_of_retireUnimplemented rfl rfl rfl h

end

/-- Settles O58: each of the five rows answers as its opcode's `State.retireUnimplemented`. -/
theorem unimplementedWordsDoNothing : Obligations.UnimplementedWordsDoNothing := by
  intro s bits i op hmem
  have hexec : exec i s = s.retireUnimplemented op := by
    simp only [List.mem_cons, Prod.mk.injEq, List.not_mem_nil, or_false] at hmem
    obtain ⟨rfl, rfl⟩ | ⟨rfl, rfl⟩ | ⟨rfl, rfl⟩ | ⟨rfl, rfl⟩ | ⟨rfl, rfl⟩ := hmem
    all_goals rfl
  obtain ⟨g, hg, hcont, hfault⟩ := s.retireUnimplemented_result op
  exact ⟨_, hexec.trans hg, s.setSignal_readReg g, s.setSignal_readByte g, rfl, rfl, hcont, hfault⟩

/-! ### What each effect leaves -/

section
variable {i : Instr} {s t : State}

theorem Effect.signal_eq_continues (h : Effect i s t) (hu : unimplementedOpcode i = none) :
    t.signal = .continues := by
  cases h with
  | register | branch | store => rfl
  | unimplemented op g _ _ hop => simp [hu] at hop

theorem Effect.signal_of_unimplemented (h : Effect i s t) {op : BitVec 7} (hu : unimplementedOpcode i = some op) :
    (s.cfg.unimplSignal = .continues → t.signal = .continues) ∧
      (s.cfg.unimplSignal = .decodeFault → t.signal = .decodeFault op) := by
  cases h with
  | register _ _ _ _ _ hnone | branch _ _ _ hnone | store _ _ _ _ _ _ _ hnone => simp [hu] at hnone
  | unimplemented op' g _ _ hop hcont hfault =>
    cases hop.symm.trans hu
    exact ⟨hcont, hfault⟩

/-- No instruction halts. -/
theorem Effect.signal_ne_halted (h : Effect i s t) : t.signal ≠ .halted := by
  cases hu : unimplementedOpcode i with
  | none => simp [h.signal_eq_continues hu]
  | some op =>
    obtain ⟨hcont, hfault⟩ := h.signal_of_unimplemented hu
    cases hc : s.cfg.unimplSignal with
    | continues => simp [hcont hc]
    | decodeFault => simp [hfault hc]

theorem Effect.readReg_eq (h : Effect i s t) {r : Reg} (hr : destination i ≠ some r) :
    t.readReg r = s.readReg r := by
  cases h with
  | register rd v target hd =>
    have hne : r ≠ rd := fun e => hr (e ▸ hd)
    simp [State.readReg_writeReg, hne]
  | branch => simp
  | store => simp
  | unimplemented => simp

theorem Effect.regs_eq_of_destination_zero (h : Effect i s t) (hd0 : destination i = some 0) :
    t.regs = s.regs := by
  cases h with
  | register rd v target hd =>
    cases hd.symm.trans hd0
    simp [State.writeReg_zero]
  | branch _ hd | store _ _ _ _ _ hd | unimplemented _ _ hd => simp [hd0] at hd

theorem Effect.sameMemory (h : Effect i s t) (ha : storeAccess i = none) : SameMemory s t := by
  cases h with
  | register => exact fun a => by simp
  | branch => exact fun a => by simp
  | unimplemented => exact fun a => by simp
  | store _ _ _ _ _ _ hsome => simp [ha] at hsome

theorem Effect.memOk (h : Effect i s t) (hs : s.MemOk) : t.MemOk := by
  cases h with
  | register => exact State.memOk_congr (by simp) (by simp) hs
  | branch => exact State.memOk_congr rfl rfl hs
  | unimplemented => exact State.memOk_congr rfl rfl hs
  | store => exact State.memOk_congr rfl rfl (State.store_memOk hs _ _ _)

/-- A byte that an instruction changes lies in range and in its store's access, and takes its byte of the value. -/
theorem Effect.store_of_readByte_ne (h : Effect i s t) {a : Nat} (hne : t.readByte a ≠ s.readByte a) :
    a < s.capacity ∧ ∃ rs1 rs2 imm n k, storeAccess i = some (rs1, rs2, imm, n) ∧ k < n ∧
      a = s.byteAddr (s.storeAddr rs1 imm) k ∧ t.readByte a = (s.readReg rs2).extractLsb' (8 * k) 8 := by
  cases hacc : storeAccess i with
  | none => exact absurd (h.sameMemory hacc a) hne
  | some access =>
    cases h with
    | register _ _ _ _ hnone | branch _ _ hnone | unimplemented _ _ _ hnone => simp [hacc] at hnone
    | store rs1 rs2 imm n hn _ hsome =>
      rw [State.setSignal_readByte] at hne ⊢
      have hin : a < s.capacity := by
        by_contra hout
        rw [State.readByte_of_le (by simpa using hout), State.readByte_of_le (Nat.not_lt.mp hout)] at hne
        exact hne rfl
      have hk : ∃ k, k < n ∧ a = s.byteAddr (s.storeAddr rs1 imm) k := by
        by_contra hout
        push Not at hout
        exact hne (s.readByte_store_of_ne _ n _ hout)
      obtain ⟨k, hk, rfl⟩ := hk
      exact ⟨hin, rs1, rs2, imm, n, k, hacc.symm.trans hsome, hk, rfl, s.readByte_store _ _ hn hk hin⟩

end

/-! ### What each step leaves -/

/-- Settles O21: the halt and the unknown opcode give their own signals; no instruction gives `Halted`. -/
theorem signalSaysWhatTheStepDid : Obligations.SignalSaysWhatTheStepDid := by
  intro s t h
  rcases step_cases h with ⟨hh, rfl⟩ | ⟨hf, i, u, hd, hu, rfl⟩ | ⟨hf, op, hd, rfl⟩
  · exact ⟨by simp [hh], fun hf => by simp [hh] at hf⟩
  · have heff := exec_effect hu
    refine ⟨by simp [hf, heff.signal_ne_halted], fun _ => ⟨fun op hop => by simp [hd] at hop, fun j hj => ?_⟩⟩
    cases Decoded.instr.inj (hd.symm.trans hj)
    refine ⟨heff.signal_eq_continues, fun op hop => ?_⟩
    obtain ⟨hcont, hfault⟩ := heff.signal_of_unimplemented hop
    cases hc : s.cfg.unimplSignal with
    | continues => exact hcont hc
    | decodeFault => exact hfault hc
  · refine ⟨by simp [hf], fun _ => ⟨fun _ _ => ?_, fun i hi => by simp [hd] at hi⟩⟩
    obtain ⟨rfl, -⟩ := decode_eq_unknownOpcode_iff.mp hd
    rfl

section
variable {s t : State} (h : step s = .next t)
include h

theorem step_signal_eq_halted_iff : t.signal = .halted ↔ s.atHaltVector = true := by
  obtain ⟨hhalted, -⟩ := signalSaysWhatTheStepDid s t h
  exact hhalted

theorem step_signal_of_unknownOpcode (hf : s.atHaltVector = false) {op : BitVec 7}
    (hd : decode s.fetch = .unknownOpcode op) : t.signal = .decodeFault (s.fetch.extractLsb' 0 7) := by
  obtain ⟨-, hrun⟩ := signalSaysWhatTheStepDid s t h
  obtain ⟨hunknown, -⟩ := hrun hf
  exact hunknown op hd

theorem step_signal_of_implemented (hf : s.atHaltVector = false) {i : Instr} (hd : decode s.fetch = .instr i)
    (hu : unimplementedOpcode i = none) : t.signal = .continues := by
  obtain ⟨-, hrun⟩ := signalSaysWhatTheStepDid s t h
  obtain ⟨-, hinstr⟩ := hrun hf
  obtain ⟨hcont, -⟩ := hinstr i hd
  exact hcont hu

theorem step_signal_of_unimplemented (hf : s.atHaltVector = false) {i : Instr} (hd : decode s.fetch = .instr i)
    {op : BitVec 7} (hu : unimplementedOpcode i = some op) (hc : s.cfg.unimplSignal = .decodeFault) :
    t.signal = .decodeFault op := by
  obtain ⟨-, hrun⟩ := signalSaysWhatTheStepDid s t h
  obtain ⟨-, hinstr⟩ := hrun hf
  obtain ⟨-, hsignal⟩ := hinstr i hd
  have ht := hsignal op hu
  rwa [hc] at ht

end

/-- Clearing a slot of x0 that is 0 leaves the register file. -/
theorem State.clearX0_regs_of_x0Clear {s : State} (h : s.X0Clear) : s.clearX0.regs = s.regs := by
  have hset : s.regs.set 0 s.regs[0] = s.regs := Vector.set_getElem_self ..
  rw [State.clearX0_regs]
  exact (congrArg (s.regs.set 0 ·) h.symm).trans hset

theorem step_x0Clear {s t : State} (h : step s = .next t) (hf : s.atHaltVector = false) : t.X0Clear := by
  rcases step_cases h with ⟨hh, -⟩ | ⟨-, i, u, -, -, rfl⟩ | ⟨-, op, -, rfl⟩
  · simp [hf] at hh
  · exact u.clearX0_slot
  · exact State.clearX0_slot _

/-- Settles O24: a write to x0 is discarded when it is made, and the clear at the end of a step changes no slot that
is 0. -/
theorem writeToX0IsDiscarded : Obligations.WriteToX0IsDiscarded := by
  refine ⟨fun i s t hd h => (exec_effect h).regs_eq_of_destination_zero hd, fun s t h hf => step_x0Clear h hf,
    fun i s t hclear hf hdec hd h => ?_⟩
  obtain ⟨u, hu, rfl⟩ := State.finish_eq_next.mp ((step_of_instr hf hdec).symm.trans h)
  have hregs : u.regs = s.regs := (exec_effect hu).regs_eq_of_destination_zero hd
  have huclear : u.X0Clear := by rwa [State.X0Clear, hregs]
  rw [State.clearX0_regs_of_x0Clear huclear, hregs]

/-- A memory just created reads 0 everywhere (spec/70_reset_and_hazards.md R252). -/
theorem State.powerOn_readByte (cfg : Config) (a : Nat) : (State.powerOn cfg).readByte a = 0x00#8 := by
  simp [State.readByte, Memory.read, Memory.unlisted]

/-- Settles O25: memory is empty at power-on, a reset leaves it, and of all effects only a store writes it. -/
theorem memoryChangesOnlyByStores : Obligations.MemoryChangesOnlyByStores := by
  refine ⟨fun cfg a => ?powerOn, fun s a => s.engineReset_readByte a, fun s t a h hne => ?step⟩
  case powerOn => exact State.powerOn_readByte cfg a
  case step =>
    rcases step_cases h with ⟨-, rfl⟩ | ⟨-, i, u, hd, hu, rfl⟩ | ⟨-, op, -, rfl⟩
    · exact absurd (s.raiseHalted_readByte a) hne
    · obtain ⟨hin, rs1, rs2, imm, n, k, hacc, hk, ha, hv⟩ := (exec_effect hu).store_of_readByte_ne hne
      exact ⟨hin, i, rs1, rs2, imm, n, k, hd, hacc, hk, ha, hv⟩
    · exact absurd (s.advance_readByte a) hne

/-! ### The invariant -/

theorem State.inv_iff {s : State} : s.Inv ↔ s.X0Clear ∧ s.MemOk := Iff.rfl

theorem step_memOk {s t : State} (h : step s = .next t) (hs : s.MemOk) : t.MemOk := by
  rcases step_cases h with ⟨-, rfl⟩ | ⟨-, i, u, -, hu, rfl⟩ | ⟨-, op, -, rfl⟩
  · exact hs
  · exact (exec_effect hu).memOk hs
  · exact hs

/-- Settles O26: a step that halts changes neither registers nor memory; any other clears x0, and its effect keeps
the memory's form. -/
theorem everyStepKeepsTheInvariant : Obligations.EveryStepKeepsTheInvariant := by
  intro s t hinv h
  obtain ⟨hclear, hmem⟩ := State.inv_iff.mp hinv
  refine State.inv_iff.mpr ⟨?_, step_memOk h hmem⟩
  cases hh : s.atHaltVector with
  | true =>
    cases (step_of_atHaltVector hh).symm.trans h
    exact hclear
  | false => exact step_x0Clear h hh

theorem State.resetRegs_zero (cfg : Config) : (State.resetRegs cfg)[0] = 0#32 := by
  simp [State.resetRegs]

/-- Settles O27: the reset registers have 0 in slot 0, an empty memory is canonical, and loading writes bytes one by
one. -/
theorem invariantHoldsWhereARunStarts : Obligations.InvariantHoldsWhereARunStarts := by
  have hpowerOn (cfg : Config) : (State.powerOn cfg).Inv :=
    ⟨State.resetRegs_zero cfg, ⟨List.Pairwise.nil, nofun⟩, nofun⟩
  refine ⟨hpowerOn, hpowerOn Config.default, fun s bytes hinv => ?load, fun s hwf hcap => ?reset⟩
  case load =>
    rcases Nat.lt_or_ge s.capacity bytes.length with hlong | hfit
    · rwa [State.loadImage_of_lt hlong]
    · obtain ⟨hclear, hmem⟩ := State.inv_iff.mp hinv
      rw [State.loadImage_of_le hfit]
      exact State.inv_iff.mpr ⟨by rwa [State.X0Clear, State.copyIn_regs], State.copyIn_memOk bytes hmem 0⟩
  case reset => exact ⟨State.resetRegs_zero s.cfg, hwf, hcap⟩

/-- Settles O30: the reset registers slot by slot. -/
theorem resetRegisterValues : Obligations.ResetRegisterValues := by
  refine ⟨fun s => ⟨State.readReg_zero _, ?x1, ?x2, fun r hr => ?others, rfl⟩, fun cfg => rfl,
    fun capacity => ⟨?sp, rfl⟩⟩
  case x1 =>
    rw [State.readReg_of_ne (by decide), State.engineReset_regs]
    simp [State.resetRegs, Config.raInit, Config.haltVector]
  case x2 =>
    rw [State.readReg_of_ne (by decide), State.engineReset_regs]
    simp [State.resetRegs]
  case others =>
    have hne : r ≠ 0 := by rintro rfl; simp at hr
    rw [State.readReg_of_ne hne, State.engineReset_regs]
    have hr1 : (1 : Nat) ≠ r.val := by omega
    have hr2 : (2 : Nat) ≠ r.val := by omega
    simp [State.resetRegs, hr1, hr2]
  case sp => exact BitVec.toNat_ofNat ..

end Sys2Proof.Machine

/-! Families 20_memory, 40_step_cycle, 47_jumps and 10_state (O13, O17 to O19, O28, O32, O33): the halt vector,
addresses past the top, unknown opcodes, the parity of the pc, and stores over the next instruction. -/

namespace Sys2Proof.Machine

/-! ### The halt vector -/

/-- The halt vector is the two topmost addresses (spec/40_step_cycle.md R101). -/
theorem State.atHaltVector_eq_true_iff_toNat (s : State) : s.atHaltVector = true ↔ 4294967294 ≤ s.pc.toNat := by
  have := s.pc.isLt
  rw [s.atHaltVector_eq_true_iff, ← BitVec.toNat_inj, toNat_and_clear_bit0]
  show s.pc.toNat / 2 * 2 = 4294967294 ↔ _
  omega

theorem State.atHaltVector_of_pc {s : State} (h : s.pc = 0xFFFFFFFE#32) : s.atHaltVector = true := by
  rw [s.atHaltVector_eq_true_iff, h]; rfl

theorem step_halted_of_pc {s : State} (h : s.pc = 0xFFFFFFFE#32) : step s = .next s.raiseHalted :=
  step_of_atHaltVector (State.atHaltVector_of_pc h)

/-- Every further step at the halt vector leaves what the first one left. -/
theorem core_run_of_atHaltVector (n : Nat) {s : State} (hh : s.atHaltVector = true) :
    Host.Core.run Sys2Proof.core (n + 1) s = .next s.raiseHalted := by
  induction n generalizing s with
  | zero =>
    rw [core_run_succ (step_of_atHaltVector hh)]
    rfl
  | succ n ih =>
    have hagain : s.raiseHalted.atHaltVector = true := hh
    rw [core_run_succ (step_of_atHaltVector hh), ih hagain]
    rfl

/-- Settles O17: both pcs are the halt vector, where a step changes only the signal. -/
theorem haltedEngineIsAFixedPoint : Obligations.HaltedEngineIsAFixedPoint := by
  intro s hpc n
  refine core_run_of_atHaltVector n (s.atHaltVector_eq_true_iff.mpr ?_)
  rcases hpc with h | h <;> rw [h] <;> rfl

/-! ### Addresses past the top (spec/20_memory.md R48) -/

theorem State.capacity_le (s : State) : s.capacity ≤ 2 ^ 32 := Nat.lt_succ_iff.mp s.cfg.memCapacity.isLt

theorem State.byteAddr_of_lt (s : State) {addr : Word} {i : Nat} (h : addr.toNat + i < 2 ^ 32) :
    s.byteAddr addr i = addr.toNat + i := by
  unfold State.byteAddr
  cases s.cfg.addrWrap with
  | wrap => exact Nat.mod_eq_of_lt h
  | zero => rfl

theorem State.byteAddr_of_zero {s : State} (hz : s.cfg.addrWrap = .zero) (addr : Word) (i : Nat) :
    s.byteAddr addr i = addr.toNat + i := by
  rw [State.byteAddr, hz]; rfl

/-- Settles O13: an address past the top is reduced by 2^32 under wrap and is out of range under zero; below the
halt vector an even pc leaves room for four bytes. -/
theorem accessesAtTheTopOfTheAddressSpace : Obligations.AccessesAtTheTopOfTheAddressSpace := by
  refine ⟨fun s addr i h => s.byteAddr_of_lt h, fun s addr i hi hw htop => ?wrap,
    fun s addr i v b hz htop => ?zero, fun s heven hf i hi => ?fetch⟩
  case wrap =>
    have haddr := addr.isLt
    rw [State.byteAddr, hw, byteAddrOf]
    omega
  case zero =>
    have hout : s.capacity ≤ s.byteAddr addr i := by
      rw [State.byteAddr_of_zero hz]
      exact s.capacity_le.trans htop
    refine ⟨State.readByte_of_le hout, ?_⟩
    rw [State.readByte_writeByte, if_neg fun h => absurd h.2 (Nat.not_lt.mpr hout)]
  case fetch =>
    have hlt : ¬4294967294 ≤ s.pc.toNat := by rw [← s.atHaltVector_eq_true_iff_toNat, hf]; simp
    unfold State.PcEven at heven
    omega

/-! ### Unknown opcodes -/

/-- A step over an unknown opcode advances and reports it, and nothing else changes
(spec/48_unimplemented_and_unknown.md R194). -/
theorem step_unknownOpcode {s : State} {op : BitVec 7} (hf : s.atHaltVector = false)
    (hd : decode s.fetch = .unknownOpcode op) :
    ∃ t, step s = .next t ∧ t.signal = .decodeFault op ∧ t.pc = s.pc + 4#32 ∧ SameRegs s t ∧ SameMemory s t ∧
      t.cfg = s.cfg :=
  ⟨_, step_of_unknownOpcode hf hd, rfl, rfl, fun r => by simp, fun a => by simp, rfl⟩

/-- Settles O18: such a word decodes to its low seven bits. -/
theorem unknownOpcodeAdvancesAndReports : Obligations.UnknownOpcodeAdvancesAndReports := by
  intro s hf hmem
  have hpc : BitVec.ofNat 32 (s.pc.toNat + 4) = s.pc + 4#32 := (add_eq_ofNat s.pc 4#32).symm
  rw [hpc]
  exact step_unknownOpcode hf (decode_eq_unknownOpcode_iff.mpr ⟨rfl, hmem⟩)

theorem Driver.atZeroWord_eq_true_iff {s : State} :
    Driver.atZeroWord s = true ↔ s.atHaltVector = false ∧ s.fetch = 0x00000000#32 := by
  simp [Driver.atZeroWord]

/-- Settles O19: the opcode of the zero word is 0, none of the nine, and the driver tests for the word first. -/
theorem zeroWordFaultsAndStopsTheDriver : Obligations.ZeroWordFaultsAndStopsTheDriver := by
  intro s hf hz
  have hd : decode s.fetch = .unknownOpcode 0x00#7 := by rw [hz]; decide
  exact ⟨step_unknownOpcode hf hd, fun _ _ => Driver.run_zeroWord (Driver.atZeroWord_eq_true_iff.mpr ⟨hf, hz⟩)⟩

/-! ### The parity of the pc (spec/10_state.md R29) -/

theorem even_add {x y : Word} (hx : x.toNat % 2 = 0) (hy : y.toNat % 2 = 0) : (x + y).toNat % 2 = 0 := by
  rw [BitVec.toNat_add]
  omega

/-- A sign extension has the parity of the field. -/
theorem even_signExtend {n : Nat} {x : BitVec (n + 1)} (h : (!x[0]) = true) : (x.signExtend 32).toNat % 2 = 0 := by
  rw [Bool.not_eq_true'] at h
  rw [toNat_even_iff, ← BitVec.getLsbD_eq_getElem, getLsbD_signExtend_eq_min x (by omega), Nat.zero_min,
    BitVec.getLsbD_eq_getElem (Nat.succ_pos n), h]

theorem even_ite {p : Prop} [Decidable p] {x y : Word} (hx : x.toNat % 2 = 0) (hy : y.toNat % 2 = 0) :
    (if p then x else y).toNat % 2 = 0 := by
  split
  · exact hx
  · exact hy

theorem even_and_clear_bit0 (x : Word) : (x &&& 0xFFFFFFFE#32).toNat % 2 = 0 := by
  rw [toNat_and_clear_bit0]
  omega

theorem step_pcEven {s t : State} (heven : s.PcEven) (h : step s = .next t) : t.PcEven := by
  have hnpc : (s.pc + 4#32).toNat % 2 = 0 := even_add heven rfl
  cases hh : s.atHaltVector with
  | true =>
    cases (step_of_atHaltVector hh).symm.trans h
    exact heven
  | false =>
    obtain ⟨-, hrun⟩ := pcAfterEachStep s t h
    obtain ⟨hunknown, hinstr⟩ := hrun hh
    cases hd : decode s.fetch with
    | unknownOpcode op => rwa [State.PcEven, hunknown op hd]
    | instr i =>
      have hpc := hinstr i hd
      have hwf := decodedInstructionsAreWellFormed _ i hd
      rw [State.PcEven, hpc]
      cases i with
      | beq | bne | blt | bge | bltu | bgeu => exact even_ite (even_add heven (even_signExtend hwf)) hnpc
      | jal => exact even_add heven (even_signExtend hwf)
      | jalr => exact even_and_clear_bit0 _
      | _ => exact hnpc

/-- What every step keeps, every run keeps. -/
theorem core_run_keeps {P : State → Prop} (hstep : ∀ s t, P s → step s = .next t → P t) (n : Nat) {s t : State}
    (hs : P s) (h : Host.Core.run Sys2Proof.core n s = .next t) : P t := by
  induction n generalizing s with
  | zero =>
    cases h
    exact hs
  | succ n ih =>
    obtain ⟨u, hu⟩ := step_next s
    exact ih (hstep s u hs hu) ((core_run_succ hu).symm.trans h)

/-- Settles O28: the pc of each kind of step is even, the offsets of decoded branches and JALs being so. -/
theorem pcStaysEven : Obligations.PcStaysEven :=
  ⟨fun _ _ => step_pcEven,
    fun s n _ hreset h => core_run_keeps (s := s.engineReset) (fun _ _ => step_pcEven) n hreset h⟩

/-! ### Stores over the next instruction, and the return to the halt vector -/

/-- A word read depends on the memory and the parameters only. -/
theorem State.loadWord_eq_of_mem_eq {s t : State} (hm : s.mem = t.mem) (hc : s.cfg = t.cfg) (addr : Word) :
    s.loadWord addr = t.loadWord addr := by
  refine State.loadWord_congr fun k _ => ?_
  rw [State.byteAt, State.byteAt, State.byteAddr_congr hc, State.readByte_congr hm hc]

/-- A word stored wholly in range is read back. -/
theorem State.loadWord_store {s : State} {addr : Word} (v : Word)
    (hc : ∀ k, k < 4 → s.byteAddr addr k < s.capacity) : (s.store addr 4 v).loadWord addr = v := by
  refine State.loadWord_eq_of_bytes fun k hk => ?_
  rw [State.byteAt, State.store_byteAddr]
  exact s.readByte_store addr v (le_refl 4) hk (hc k hk)

theorem tableWord_toNat (w : Word) : tableWord 32 w.toNat = w := by
  rw [tableWord, Nat.mod_eq_of_lt w.isLt, BitVec.ofNat_toNat, BitVec.setWidth_eq]

/-- Settles O32: a fetch reads the bytes as the store left them. -/
theorem storedWordIsFetchedNext : Obligations.StoredWordIsFetchedNext := by
  refine ⟨fun s rs1 rs2 imm hf hd haddr hc => ?_, fun s w hc => ?_⟩
  · have hstore : exec (.sw rs1 rs2 imm) s.advance =
        (s.advance.store (s.pc + 4#32) 4 (s.readReg rs2)).retire := by rw [← haddr]; rfl
    refine ⟨_, (step_of_instr hf hd).trans (congrArg State.finish hstore), ?_⟩
    rw [State.fetch, State.clearX0_pc, State.setSignal_pc, State.store_pc]
    have hread := State.loadWord_store (s := s.advance) (s.readReg rs2) hc
    refine (State.loadWord_eq_of_mem_eq (t := s.advance.store (s.pc + 4#32) 4 (s.readReg rs2)) ?_ ?_ _).trans hread
    · rw [State.clearX0_mem, State.setSignal_mem]
    · rw [State.clearX0_cfg, State.setSignal_cfg]
  · rw [State.withFetchWord, tableWord_toNat, State.fetch, State.store_pc]
    exact State.loadWord_store w hc

/-- A decoded JALR leaves the pc at its target. -/
theorem step_pc_of_jalr {s t : State} (h : step s = .next t) (hf : s.atHaltVector = false) {rd rs1 : Reg}
    {imm : BitVec 12} (hd : decode s.fetch = .instr (.jalr rd rs1 imm)) :
    t.pc = (s.readReg rs1 + imm.signExtend 32) &&& 0xFFFFFFFE#32 := by
  obtain ⟨-, hrun⟩ := pcAfterEachStep s t h
  obtain ⟨-, hinstr⟩ := hrun hf
  exact hinstr _ hd

/-- Settles O33: the target is x1 with bit 0 cleared, and at that pc a step halts. -/
theorem returnToTheHaltVectorHalts : Obligations.ReturnToTheHaltVectorHalts := by
  refine ⟨fun s hf hd hx1 => ?_, fun s t _ hpc => ⟨_, step_halted_of_pc hpc, rfl⟩⟩
  obtain ⟨t, ht⟩ := step_next s
  have htpc : t.pc = 0xFFFFFFFE#32 := by
    rw [step_pc_of_jalr ht hf hd, hx1]
    rfl
  exact ⟨t, _, ht, step_signal_of_implemented ht hf hd rfl, htpc, step_halted_of_pc htpc, rfl, htpc⟩

end Sys2Proof.Machine

/-! Families 50_interfaces, 48_unimplemented_and_unknown and 10_state (O34 to O38, O23): how a run goes on and ends,
what a session and each permitted action of the host give, which words are flagged, and the registers read. -/

namespace Sys2Proof.Machine

/-! ### One step of a run (spec/50_interfaces.md R206 to R208) -/

/-- A step ends a run by halting, ends it by a `DecodeFault` under abort, or goes on. -/
theorem goesOn_cases (policy : DecodeFaultPolicy) (t : State) :
    t.signal = .halted ∨ (policy = .abort ∧ ∃ op, t.signal = .decodeFault op) ∨ GoesOn policy t := by
  unfold GoesOn
  cases t.signal <;> cases policy <;> simp

section
variable {policy : DecodeFaultPolicy} {n : Nat} {s t : State} (hz : Driver.atZeroWord s = false)
  (h : step s = .next t)
include hz h

theorem Driver.run_of_halted (ht : t.signal = .halted) : Driver.run policy (n + 1) s = .next (.finished, t) := by
  rw [Driver.run_succ hz h, ht]

theorem Driver.run_abort_of_decodeFault {op : BitVec 7} (ht : t.signal = .decodeFault op) :
    Driver.run .abort (n + 1) s = .next (.faulted op, t) := by
  rw [Driver.run_succ hz h, ht]

theorem Driver.run_of_goesOn (ht : GoesOn policy t) : Driver.run policy (n + 1) s = Driver.run policy n t := by
  obtain ⟨hhalted, hfault⟩ := ht
  rw [Driver.run_succ hz h]
  cases hs : t.signal with
  | halted => exact absurd hs hhalted
  | continues => cases policy <;> rfl
  | decodeFault op =>
    cases policy with
    | abort => exact absurd hs (hfault rfl op)
    | continues => rfl

end

/-! ### The endings (R209) -/

/-- What the last state of a run of budget `n` shows, `k` steps made, by the ending. -/
def LastState (policy : DecodeFaultPolicy) (n k : Nat) (t : State) : RunEnd → Prop
  | .finished => 0 < k ∧ t.signal = .halted ∧ t.atHaltVector = true
  | .faulted op => 0 < k ∧ policy = .abort ∧ t.signal = .decodeFault op
  | .stoppedAtZeroWord => k < n ∧ t.atHaltVector = false ∧ t.fetch = 0x00000000#32 ∧ (0 < k → GoesOn policy t)
  | .budgetExhausted => k = n ∧ (0 < k → GoesOn policy t)

/-- A run of budget `n` makes `k` steps, none of which but the last may end it, and ends in `t`. -/
structure RunsTo (policy : DecodeFaultPolicy) (n : Nat) (s : State) (e : RunEnd) (t : State) (k : Nat) : Prop where
  run : Driver.run policy n s = .next (e, t)
  le : k ≤ n
  steps : Host.Core.run Sys2Proof.core k s = .next t
  passes : ∀ j u, j < k → Host.Core.run Sys2Proof.core j s = .next u →
    Driver.atZeroWord u = false ∧ (0 < j → GoesOn policy u)
  last : LastState policy n k t e

theorem core_run_zero {s t : State} : Host.Core.run Sys2Proof.core 0 s = .next t ↔ s = t := by
  constructor
  · rintro ⟨⟩
    rfl
  · rintro rfl
    rfl

section
variable {policy : DecodeFaultPolicy} {n : Nat} {s u : State}

/-- The boundaries of a run that steps to `u` first: its own, and those from `u`. -/
theorem passes_succ {k : Nat} (hz : Driver.atZeroWord s = false) (h : step s = .next u)
    (hu : ∀ j v, j < k → Host.Core.run Sys2Proof.core j u = .next v →
      Driver.atZeroWord v = false ∧ GoesOn policy v) :
    ∀ j v, j < k + 1 → Host.Core.run Sys2Proof.core j s = .next v →
      Driver.atZeroWord v = false ∧ (0 < j → GoesOn policy v) := by
  intro j v hj hv
  cases j with
  | zero =>
    cases core_run_zero.mp hv
    exact ⟨hz, fun h0 => absurd h0 (Nat.lt_irrefl 0)⟩
  | succ j =>
    obtain ⟨hzero, hgo⟩ := hu j v (Nat.lt_of_succ_lt_succ hj) ((core_run_succ h).symm.trans hv)
    exact ⟨hzero, fun _ => hgo⟩

/-- A run whose first step ends it. -/
theorem runsTo_of_step_ends {e : RunEnd} (hz : Driver.atZeroWord s = false) (h : step s = .next u)
    (hrun : Driver.run policy (n + 1) s = .next (e, u)) (hlast : LastState policy (n + 1) 1 u e) :
    RunsTo policy (n + 1) s e u 1 where
  run := hrun
  le := Nat.succ_le_succ (Nat.zero_le n)
  steps := (core_run_succ h).trans (core_run_zero.mpr rfl)
  passes := passes_succ hz h fun j _ hj => absurd hj (Nat.not_lt_zero j)
  last := hlast

/-- A run whose first step goes on is the run from there, one step longer. -/
theorem RunsTo.succ {e : RunEnd} {t : State} {k : Nat} (hz : Driver.atZeroWord s = false) (h : step s = .next u)
    (hgo : GoesOn policy u) (hu : RunsTo policy n u e t k) : RunsTo policy (n + 1) s e t (k + 1) where
  run := (Driver.run_of_goesOn hz h hgo).trans hu.run
  le := Nat.succ_le_succ hu.le
  steps := (core_run_succ h).trans hu.steps
  passes := by
    refine passes_succ hz h fun j v hj hv => ?_
    obtain ⟨hzero, hgoes⟩ := hu.passes j v hj hv
    refine ⟨hzero, ?_⟩
    rcases Nat.eq_zero_or_pos j with rfl | hpos
    · exact core_run_zero.mp hv ▸ hgo
    · exact hgoes hpos
  last := by
    have hgoes (hpos : 0 < k → GoesOn policy t) : GoesOn policy t := by
      rcases Nat.eq_zero_or_pos k with rfl | hk
      · exact core_run_zero.mp hu.steps ▸ hgo
      · exact hpos hk
    have hlast := hu.last
    cases e with
    | finished =>
      obtain ⟨-, ht⟩ := hlast
      exact ⟨k.succ_pos, ht⟩
    | faulted op =>
      obtain ⟨-, ht⟩ := hlast
      exact ⟨k.succ_pos, ht⟩
    | stoppedAtZeroWord =>
      obtain ⟨hk, hf, hzero, hpos⟩ := hlast
      exact ⟨Nat.succ_lt_succ hk, hf, hzero, fun _ => hgoes hpos⟩
    | budgetExhausted =>
      obtain ⟨hk, hpos⟩ := hlast
      exact ⟨congrArg (· + 1) hk, fun _ => hgoes hpos⟩

end

/-- Every run ends, at the first step that ends it. -/
theorem exists_runsTo (policy : DecodeFaultPolicy) (n : Nat) (s : State) : ∃ e t k, RunsTo policy n s e t k := by
  induction n generalizing s with
  | zero => exact ⟨.budgetExhausted, s, 0, rfl, le_refl 0, rfl, nofun, rfl, nofun⟩
  | succ n ih =>
    cases hz : Driver.atZeroWord s with
    | true =>
      obtain ⟨hf, hzero⟩ := Driver.atZeroWord_eq_true_iff.mp hz
      exact ⟨.stoppedAtZeroWord, s, 0, Driver.run_zeroWord hz, Nat.zero_le _, rfl, nofun, n.succ_pos, hf, hzero,
        nofun⟩
    | false =>
      obtain ⟨u, hu⟩ := step_next s
      obtain hhalted | ⟨rfl, op, hfault⟩ | hgo := goesOn_cases policy u
      · have hh : s.atHaltVector = true := (step_signal_eq_halted_iff hu).mp hhalted
        have huh : u.atHaltVector = true := by
          cases (step_of_atHaltVector hh).symm.trans hu
          exact hh
        exact ⟨.finished, u, 1, runsTo_of_step_ends hz hu (Driver.run_of_halted hz hu hhalted)
          ⟨Nat.one_pos, hhalted, huh⟩⟩
      · exact ⟨.faulted op, u, 1, runsTo_of_step_ends hz hu (Driver.run_abort_of_decodeFault hz hu hfault)
          ⟨Nat.one_pos, rfl, hfault⟩⟩
      · obtain ⟨e, t, k, hrest⟩ := ih u
        exact ⟨e, t, k + 1, hrest.succ hz hu hgo⟩

/-- Settles O34: by induction on the budget, a first step that ends the run or goes on. -/
theorem everyRunEndsInOneOfFourWays : Obligations.EveryRunEndsInOneOfFourWays := by
  intro policy n s
  obtain ⟨e, t, k, hrun, hle, hsteps, hpasses, hlast⟩ := exists_runsTo policy n s
  refine ⟨e, t, k, hrun, hle, hsteps, hpasses, ?_, ?_, ?_, ?_⟩
  · rintro rfl
    exact hlast
  · rintro op rfl
    exact hlast
  · rintro rfl
    exact hlast
  · rintro rfl
    exact hlast

/-! ### After a `DecodeFault` -/

/-- A recognised-unimplemented instruction has the opcode of its word. -/
theorem DecodeRow.opcode_eq {w : Word} {i : Instr} (h : DecodeRow w i) {op : BitVec 7}
    (hu : unimplementedOpcode i = some op) : Decode.opcode w = op := by
  cases h with
  | unimplemented33 hop | unimplemented13 hop | unimplemented03 hop | unimplemented23 hop | unimplemented63 hop =>
    cases hu
    exact hop
  | _ => cases hu

/-- A step over a recognised-unimplemented word advances, and changes no register and no byte of memory
(spec/48_unimplemented_and_unknown.md R191). -/
theorem step_unimplemented {s : State} {i : Instr} (hf : s.atHaltVector = false) (hd : decode s.fetch = .instr i)
    (hu : unimplementedOpcode i ≠ none) :
    ∃ t, step s = .next t ∧ SameRegs s t ∧ SameMemory s t ∧ t.pc = s.pc + 4#32 := by
  obtain ⟨u, hexec⟩ := exec_next i s.advance
  refine ⟨u.clearX0, (step_of_instr hf hd).trans (State.finish_eq_next.mpr ⟨u, hexec, rfl⟩), ?_⟩
  cases exec_effect hexec with
  | register _ _ _ _ _ hnone | branch _ _ _ hnone | store _ _ _ _ _ _ _ hnone => exact absurd hnone hu
  | unimplemented => exact ⟨fun r => by simp, fun a => by simp, rfl⟩

/-- A step that returns `DecodeFault` has advanced: it was over an unknown opcode or a recognised-unimplemented
word. -/
theorem step_pc_of_decodeFault {s t : State} (h : step s = .next t) {op : BitVec 7}
    (ht : t.signal = .decodeFault op) : t.pc = s.pc + 4#32 := by
  have hf : s.atHaltVector = false := by
    rw [← Bool.not_eq_true, ← step_signal_eq_halted_iff h, ht]
    simp
  cases hd : decode s.fetch with
  | unknownOpcode op' =>
    obtain ⟨t', h', -, hpc, -⟩ := step_unknownOpcode hf hd
    cases h'.symm.trans h
    exact hpc
  | instr i =>
    have hu : unimplementedOpcode i ≠ none := fun hnone => by
      simp [step_signal_of_implemented h hf hd hnone] at ht
    obtain ⟨t', h', -, -, hpc⟩ := step_unimplemented hf hd hu
    cases h'.symm.trans h
    exact hpc

/-- A word that is recognised-unimplemented reports its own opcode where UNIMPL_SIGNAL says so. -/
theorem step_signal_of_flagged {s t : State} (h : step s = .next t) (hf : s.atHaltVector = false)
    (hc : s.cfg.unimplSignal = .decodeFault) (hflag : (flaggedInstr s.fetch).isSome = true) :
    t.signal = .decodeFault (s.fetch.extractLsb' 0 7) := by
  obtain ⟨i, hi⟩ := Option.isSome_iff_exists.mp hflag
  obtain ⟨hd, hu⟩ := flaggedInstr_eq_some.mp hi
  obtain ⟨op, hop⟩ := Option.ne_none_iff_exists'.mp hu
  rw [step_signal_of_unimplemented h hf hd hop hc, ← (decodeRow_of_decode hd).opcode_eq hop]
  rfl

/-- Settles O35: a step that returns `DecodeFault` is over an unknown opcode or a recognised-unimplemented word, and
both advance; the policy decides whether the run goes on. -/
theorem hostChoosesAfterADecodeFault : Obligations.HostChoosesAfterADecodeFault := by
  have hafter (s t : State) (op : BitVec 7) (n : Nat) (hz : Driver.atZeroWord s = false) (h : step s = .next t)
      (ht : t.signal = .decodeFault op) : t.pc = s.pc + 4#32 ∧
        Driver.run .abort (n + 1) s = .next (.faulted op, t) ∧
        Driver.run .continues (n + 1) s = Driver.run .continues n t :=
    ⟨step_pc_of_decodeFault h ht, Driver.run_abort_of_decodeFault hz h ht,
      Driver.run_of_goesOn hz h ⟨by simp [ht], nofun⟩⟩
  refine ⟨rfl, hafter, fun s n hf hnz hword => ?_⟩
  have hz : Driver.atZeroWord s = false := by simp [Driver.atZeroWord, hnz]
  obtain ⟨t, h⟩ := step_next s
  have ht : t.signal = .decodeFault (s.fetch.extractLsb' 0 7) := by
    rcases hword with hunknown | ⟨hc, hflag⟩
    · exact step_signal_of_unknownOpcode h hf (decode_eq_unknownOpcode_iff.mpr ⟨rfl, hunknown⟩)
    · exact step_signal_of_flagged h hf hc hflag
  obtain ⟨hpc, habort, hcontinues⟩ := hafter s t _ n hz h ht
  exact ⟨t, h, hpc, ht, habort, hcontinues⟩

/-! ### Sessions and permitted actions -/

section
variable {policy : DecodeFaultPolicy} {n : Nat} {image : List Byte} {s : State}

theorem Driver.session_of_lt (h : s.capacity < image.length) :
    Driver.session policy n image s = .next (.notStarted, s) := by
  rw [Driver.session, State.loadImage_of_lt h]

theorem Driver.session_of_le (h : image.length ≤ s.capacity) {e : RunEnd} {t : State}
    (hrun : Driver.run policy n (s.loadImage image).2.engineReset = .next (e, t)) :
    Driver.session policy n image s = .next (.ran e, t) := by
  rw [State.loadImage_of_le h] at hrun
  rw [Driver.session, State.loadImage_of_le h]
  simp only [hrun]

end

/-- Settles O36: a run always ends, and a machine just powered on, which a reset leaves as it is, is at a zero
word. -/
theorem sessionStartsOnlyAfterALoadThatSucceeded : Obligations.SessionStartsOnlyAfterALoadThatSucceeded := by
  refine ⟨fun policy n image s => ⟨Driver.session_of_lt, fun hfit => ?_⟩, fun policy n cfg hf => ?_⟩
  · obtain ⟨e, t, k, hends⟩ := exists_runsTo policy n (s.loadImage image).2.engineReset
    exact ⟨e, t, hends.run, Driver.session_of_le hfit hends.run⟩
  · have hfit : ([] : List Byte).length ≤ (State.powerOn cfg).capacity := Nat.zero_le _
    have hzero : (State.powerOn cfg).fetch = 0x00000000#32 := by
      refine State.loadWord_eq_of_bytes fun k _ => ?_
      rw [State.byteAt, State.powerOn_readByte, BitVec.extractLsb'_zero]
    refine Driver.session_of_le hfit ?_
    rw [State.loadImage_of_le hfit]
    exact Driver.run_zeroWord (Driver.atZeroWord_eq_true_iff.mpr ⟨hf, hzero⟩)

section
variable {p q : HostPhase} {s t : State}

/-- A load that is permitted takes the image and leaves the phase, or fails and changes nothing (R211). -/
theorem hostAct_loadImage_cases {image : List Byte} (h : hostAct p (.loadImage image) s = some (q, t)) :
    (p = .memoryReady ∨ p = .engineReady) ∧
      ((image.length ≤ s.capacity ∧ q = p ∧ t = s.copyIn 0 image) ∨
        (s.capacity < image.length ∧ q = .loadFailed ∧ t = s)) := by
  have hp : p = .memoryReady ∨ p = .engineReady := by cases p <;> simp at h ⊢
  rw [hostAct_loadImage hp] at h
  refine ⟨hp, ?_⟩
  split at h
  case isTrue hfit =>
    cases h
    exact .inl ⟨hfit, rfl, rfl⟩
  case isFalse hlong =>
    cases h
    exact .inr ⟨Nat.lt_of_not_le hlong, rfl, rfl⟩

/-- A step that is permitted is the machine's step, after a reset. -/
theorem hostAct_step_cases (h : hostAct p .step s = some (q, t)) :
    (p = .engineReady ∨ p = .stepped) ∧ q = .stepped ∧ step s = .next t := by
  have hp : p = .engineReady ∨ p = .stepped := by cases p <;> simp at h ⊢
  obtain ⟨u, hu⟩ := step_next s
  rw [hostAct_step hp hu] at h
  cases h
  exact ⟨hp, rfl, hu⟩

end

/-- Settles O37: what each action gives where it is permitted, and the phases that permit it. -/
theorem hostActsOnlyWherePermitted : Obligations.HostActsOnlyWherePermitted := by
  refine ⟨fun p q a s t h => ?_,
    fun p s hp => ⟨hostAct_reset hp s, fun a v => hostAct_writeMemory hp a v s, ?step, ?load⟩⟩
  case step =>
    intro hready
    have hphase : p = .engineReady ∨ p = .stepped := by cases p <;> simp at hp hready ⊢
    obtain ⟨t, ht⟩ := step_next s
    exact ⟨t, hostAct_step hphase ht⟩
  case load =>
    intro hstepped image
    have hphase : p = .memoryReady ∨ p = .engineReady := by cases p <;> simp at hp hstepped ⊢
    rw [hostAct_loadImage hphase]
    split
    · exact ⟨_, _, rfl⟩
    · exact ⟨_, _, rfl⟩
  have hp : p ≠ .loadFailed := by
    rintro rfl
    simp at h
  refine ⟨hp, ?_⟩
  cases a with
  | loadImage image =>
    obtain ⟨hphase, hload⟩ := hostAct_loadImage_cases h
    have hstepped : p ≠ .stepped := by rcases hphase with rfl | rfl <;> simp
    obtain ⟨hfit, rfl, rfl⟩ | ⟨hlong, rfl, rfl⟩ := hload
    · refine ⟨s.copyIn_cfg image 0, fun _ _ => ⟨s.copyIn_regs image 0, s.copyIn_pc image 0⟩, nofun, ?_⟩
      rintro _ ⟨⟩
      exact ⟨hstepped, iff_of_false hp (Nat.not_lt.mpr hfit), fun _ => rfl, by rw [State.loadImage_of_le hfit]⟩
    · refine ⟨rfl, fun _ _ => ⟨rfl, rfl⟩, nofun, ?_⟩
      rintro _ ⟨⟩
      exact ⟨hstepped, iff_of_true rfl hlong, fun hfit => absurd hlong (Nat.not_lt.mpr hfit),
        by rw [State.loadImage_of_lt hlong]⟩
  | reset =>
    rw [hostAct_reset hp] at h
    cases h
    exact ⟨rfl, fun _ hne => absurd rfl hne, nofun, nofun⟩
  | step =>
    obtain ⟨hphase, rfl, ht⟩ := hostAct_step_cases h
    exact ⟨step_cfg ht, fun hne => absurd rfl hne, fun _ => ⟨hphase, rfl, ht⟩, nofun⟩
  | writeMemory b v =>
    rw [hostAct_writeMemory hp] at h
    cases h
    exact ⟨s.writeByte_cfg b v, fun _ _ => ⟨s.writeByte_regs b v, s.writeByte_pc b v⟩, nofun, nofun⟩

/-! ### Flagged words (spec/48_unimplemented_and_unknown.md R193) -/

theorem mem_flaggedWords {image : List Byte} {k : Nat} {i : Instr} : (k, i) ∈ flaggedWords image ↔
    k % 4 = 0 ∧ k < image.length ∧ decode (imageWord image k) = .instr i ∧ unimplementedOpcode i ≠ none := by
  have hmem : (k, i) ∈ flaggedWords image ↔
      ∃ n < (image.length + 3) / 4, flaggedInstr (imageWord image (4 * n)) = some i ∧ 4 * n = k := by
    simp [flaggedWords, List.mem_filterMap, Option.map_eq_some_iff]
  rw [hmem]
  constructor
  · rintro ⟨n, hn, hi, rfl⟩
    exact ⟨by omega, by omega, flaggedInstr_eq_some.mp hi⟩
  · rintro ⟨hk, hlen, hi⟩
    have hk4 : 4 * (k / 4) = k := by omega
    exact ⟨k / 4, by omega, by rw [hk4]; exact flaggedInstr_eq_some.mpr hi, hk4⟩

/-- The word that four bytes make has them at its addresses. -/
theorem extractLsb'_wordOfBytes (b : Nat → Byte) {j : Nat} (hj : j < 4) :
    (wordOfBytes (b 0) (b 1) (b 2) (b 3)).extractLsb' (8 * j) 8 = b j := by
  have hw : (wordOfBytes (b 0) (b 1) (b 2) (b 3)).toNat =
      256 * (256 * (256 * (b 3).toNat + (b 2).toNat) + (b 1).toNat) + (b 0).toNat := by
    have h : (wordOfBytes (b 0) (b 1) (b 2) (b 3)).toNat = (b 3 ++ b 2 ++ b 1 ++ b 0).toNat := rfl
    rw [h, toNat_append_byte, toNat_append_byte, toNat_append_byte]
  have h0 := (b 0).isLt
  have h1 := (b 1).isLt
  have h2 := (b 2).isLt
  have h3 := (b 3).isLt
  apply BitVec.eq_of_toNat_eq
  rw [extractLsb'_toNat_eq, hw]
  match j, hj with
  | 0, _ | 1, _ | 2, _ | 3, _ => omega

/-- A byte of a memory just created, the image loaded: the image's byte, or 0 past its end. -/
theorem State.readByte_loaded (cfg : Config) {image : List Byte} (hfit : image.length ≤ cfg.memCapacity.val)
    (a : Nat) : ((State.powerOn cfg).copyIn 0 image).readByte a = image.getD a 0#8 := by
  rcases Nat.lt_or_ge a image.length with hin | hout
  · have hcap : 0 + a < (State.powerOn cfg).capacity := by
      rw [Nat.zero_add]
      exact hin.trans_le hfit
    have hread := State.readByte_copyIn image (State.powerOn cfg) hin hcap
    rw [Nat.zero_add] at hread
    rw [hread, List.getD_eq_getElem _ _ hin]
  · rw [State.readByte_copyIn_of_outside image _ (by omega), State.powerOn_readByte,
      List.getD_eq_default _ _ hout]

/-- The word at a multiple of 4 of a loaded image is what a step at it fetches. -/
theorem State.fetch_loaded (cfg : Config) {image : List Byte} {k : Nat} (hfit : image.length ≤ cfg.memCapacity.val)
    (hk : k % 4 = 0) (hlen : k < image.length) :
    (((State.powerOn cfg).copyIn 0 image).setPc (BitVec.ofNat 32 k)).fetch = imageWord image k := by
  have hcap := cfg.memCapacity.isLt
  have haddr : (BitVec.ofNat 32 k).toNat = k := by rw [BitVec.toNat_ofNat]; omega
  refine State.loadWord_eq_of_bytes fun j hj => ?_
  have hbyte : (imageWord image k).extractLsb' (8 * j) 8 = image.getD (k + j) 0#8 :=
    extractLsb'_wordOfBytes (fun j => image.getD (k + j) 0#8) hj
  rw [hbyte, State.byteAt, State.setPc_readByte, State.setPc_pc, State.byteAddr_of_lt _ (by omega), haddr,
    State.readByte_loaded cfg hfit]

/-- Settles O38: the flags are the words that `flaggedInstr` picks at the multiples of 4, and a step at one fetches
it. -/
theorem flaggedWordsAreRecognisedUnimplemented : Obligations.FlaggedWordsAreRecognisedUnimplemented := by
  refine ⟨fun image k i => mem_flaggedWords, fun cfg image k i hmem hfit s hs => ?_⟩
  obtain ⟨hk, hlen, hd, hu⟩ := mem_flaggedWords.mp hmem
  have hload := State.loadImage_of_le (s := State.powerOn cfg) hfit
  rw [hload] at hs
  subst hs
  refine step_unimplemented ?notHalted (by rw [State.fetch_loaded cfg hfit hk hlen, hd]) hu
  have hcap := cfg.memCapacity.isLt
  rw [← Bool.not_eq_true, State.atHaltVector_eq_true_iff_toNat, State.setPc_pc, BitVec.toNat_ofNat]
  omega

/-! ### The registers an instruction reads (spec/10_state.md R24) -/

/-- The same state with another register file. -/
def State.withRegs (s : State) (regs : Vector Word 32) : State := { s with regs := regs }

/-- A store reads no register once its address and value are known. -/
theorem State.store_withRegs (s : State) (regs : Vector Word 32) (addr : Word) (n : Nat) (v : Word) :
    (s.withRegs regs).store addr n v = (s.store addr n v).withRegs regs := by
  have hbyte (s : State) (a : Nat) (b : Byte) :
      (s.withRegs regs).writeByte a b = (s.writeByte a b).withRegs regs := by
    have hcap : (s.withRegs regs).capacity = s.capacity := rfl
    unfold State.writeByte
    rw [hcap]
    split
    · rfl
    · rfl
  induction n with
  | zero => rfl
  | succ k ih =>
    rw [State.store, ih, hbyte]
    rfl

/-- Both answer a next state, with the same pc, signal, bytes of memory and value of the register `d`. -/
def SameResult (d : Option Reg) (r₁ r₂ : Result) : Prop :=
  ∃ t₁ t₂, r₁ = .next t₁ ∧ r₂ = .next t₂ ∧ t₁.pc = t₂.pc ∧ t₁.signal = t₂.signal ∧
    (∀ a, t₁.readByte a = t₂.readByte a) ∧ ∀ r, d = some r → t₁.readReg r = t₂.readReg r

/-- The states show the same pc, bytes of memory and parameters: they look alike once the registers are made
equal. -/
def AlikeButRegs (s₁ s₂ : State) : Prop := LookAlike s₁ (s₂.withRegs s₁.regs)

section
variable {s₁ s₂ : State} (h : AlikeButRegs s₁ s₂)
include h

theorem AlikeButRegs.pc_eq : s₁.pc = s₂.pc := LookAlike.pc_eq (s₂ := s₂.withRegs s₁.regs) h

theorem AlikeButRegs.readByte_eq (a : Nat) : s₁.readByte a = s₂.readByte a := LookAlike.readByte_eq h a

theorem AlikeButRegs.ia_eq : s₁.ia = s₂.ia := LookAlike.ia_eq (s₂ := s₂.withRegs s₁.regs) h

theorem AlikeButRegs.loadByte_eq (addr : Word) : s₁.loadByte addr = s₂.loadByte addr :=
  LookAlike.loadByte_eq h addr

theorem AlikeButRegs.loadHalf_eq (addr : Word) : s₁.loadHalf addr = s₂.loadHalf addr :=
  LookAlike.loadHalf_eq h addr

theorem AlikeButRegs.loadWord_eq (addr : Word) : s₁.loadWord addr = s₂.loadWord addr :=
  LookAlike.loadWord_eq h addr

theorem AlikeButRegs.readByte_store_eq (addr : Word) (n : Nat) (v : Word) (a : Nat) :
    (s₁.store addr n v).readByte a = (s₂.store addr n v).readByte a := by
  have hread := (LookAlike.store h addr n v).readByte_eq a
  rw [State.store_withRegs] at hread
  exact hread

/-- Writing one register with one value, and setting the pc to one target. -/
theorem AlikeButRegs.jump (rd : Reg) {v₁ v₂ target₁ target₂ : Word} (hv : v₁ = v₂) (ht : target₁ = target₂) :
    SameResult (some rd) ((s₁.writeReg rd v₁).setPc target₁).retire ((s₂.writeReg rd v₂).setPc target₂).retire := by
  subst hv ht
  refine ⟨_, _, rfl, rfl, rfl, rfl, fun a => by simpa using h.readByte_eq a, ?_⟩
  rintro r ⟨⟩
  by_cases hrd : rd = 0
  · simp [hrd]
  · simp [State.readReg_writeReg, hrd]

/-- Writing one register with one value, the pc left. -/
theorem AlikeButRegs.write (rd : Reg) {v₁ v₂ : Word} (hv : v₁ = v₂) :
    SameResult (some rd) (s₁.writeReg rd v₁).retire (s₂.writeReg rd v₂).retire :=
  h.jump rd hv (target₁ := (s₁.writeReg rd v₁).pc) (target₂ := (s₂.writeReg rd v₂).pc) (by simpa using h.pc_eq)

theorem AlikeButRegs.store (addr : Word) (n : Nat) (v : Word) :
    SameResult none (s₁.store addr n v).retire (s₂.store addr n v).retire :=
  ⟨_, _, rfl, rfl, by simpa using h.pc_eq, rfl, fun a => by simpa using h.readByte_store_eq addr n v a, nofun⟩

theorem AlikeButRegs.retireUnimplemented (op : BitVec 7) :
    SameResult none (s₁.retireUnimplemented op) (s₂.retireUnimplemented op) := by
  have hcfg : s₁.cfg = s₂.cfg := LookAlike.cfg_eq (s₂ := s₂.withRegs s₁.regs) h
  rw [State.retireUnimplemented_eq, State.retireUnimplemented_eq, hcfg]
  exact ⟨_, _, rfl, rfl, h.pc_eq, rfl, fun a => by simpa using h.readByte_eq a, nofun⟩

section
variable {a b : Reg} (ha : s₁.readReg a = s₂.readReg a)
include ha

theorem AlikeButRegs.regImm (f : Word → Word → Word) (rd : Reg) (imm : BitVec 12) :
    SameResult (some rd) (s₁.regImm f rd a imm) (s₂.regImm f rd a imm) :=
  h.write rd (by rw [ha])

theorem AlikeButRegs.load (rd : Reg) (imm : BitVec 12) {value : State → Word → Word}
    (hvalue : ∀ addr, value s₁ addr = value s₂ addr) :
    SameResult (some rd) (s₁.writeReg rd (value s₁ (s₁.loadAddr a imm))).retire
      (s₂.writeReg rd (value s₂ (s₂.loadAddr a imm))).retire :=
  h.write rd (by rw [hvalue, State.loadAddr, State.loadAddr, ha])

variable (hb : s₁.readReg b = s₂.readReg b)
include hb

theorem AlikeButRegs.regReg (f : Word → Word → Word) (rd : Reg) :
    SameResult (some rd) (s₁.regReg f rd a b) (s₂.regReg f rd a b) :=
  h.write rd (by rw [ha, hb])

theorem AlikeButRegs.store_sources (imm : BitVec 12) (n : Nat) :
    SameResult none (s₁.store (s₁.storeAddr a imm) n (s₁.readReg b)).retire
      (s₂.store (s₂.storeAddr a imm) n (s₂.readReg b)).retire := by
  rw [State.storeAddr, State.storeAddr, ha, hb]
  exact h.store _ _ _

theorem AlikeButRegs.branch (cond : Word → Word → Bool) (offset : BitVec 13) :
    SameResult none (s₁.branch cond a b offset) (s₂.branch cond a b offset) := by
  unfold State.branch State.branchTarget
  rw [ha, hb, h.ia_eq]
  split
  · exact ⟨_, _, rfl, rfl, rfl, rfl, fun a => by simpa using h.readByte_eq a, nofun⟩
  · exact ⟨_, _, rfl, rfl, h.pc_eq, rfl, fun a => by simpa using h.readByte_eq a, nofun⟩

end

/-- What an instruction does depends on no register but its sources. -/
theorem AlikeButRegs.exec {i : Instr} (hsrc : ∀ r ∈ sources i, s₁.readReg r = s₂.readReg r) :
    SameResult (destination i) (exec i s₁) (exec i s₂) := by
  cases i with
  | add _ a b | sub _ a b | xor _ a b | or _ a b | and _ a b =>
    exact h.regReg (hsrc a (by simp [sources])) (hsrc b (by simp [sources])) _ _
  | sll rd a b =>
    exact h.regReg (hsrc a (by simp [sources])) (hsrc b (by simp [sources])) (fun a b => a <<< shamt b) rd
  | srl rd a b =>
    exact h.regReg (hsrc a (by simp [sources])) (hsrc b (by simp [sources])) (fun a b => a >>> shamt b) rd
  | sra rd a b =>
    exact h.regReg (hsrc a (by simp [sources])) (hsrc b (by simp [sources])) (fun a b => a.sshiftRight (shamt b)) rd
  | addi _ a | xori _ a | ori _ a | andi _ a => exact h.regImm (hsrc a (by simp [sources])) _ _ _
  | lb rd a imm =>
    exact h.load (hsrc a (by simp [sources])) rd imm (value := fun s addr => (s.loadByte addr).signExtend 32)
      fun addr => by rw [h.loadByte_eq]
  | lh rd a imm =>
    exact h.load (hsrc a (by simp [sources])) rd imm (value := fun s addr => (s.loadHalf addr).signExtend 32)
      fun addr => by rw [h.loadHalf_eq]
  | lw rd a imm => exact h.load (hsrc a (by simp [sources])) rd imm (value := State.loadWord) h.loadWord_eq
  | sb a b imm => exact h.store_sources (hsrc a (by simp [sources])) (hsrc b (by simp [sources])) imm 1
  | sh a b imm => exact h.store_sources (hsrc a (by simp [sources])) (hsrc b (by simp [sources])) imm 2
  | sw a b imm => exact h.store_sources (hsrc a (by simp [sources])) (hsrc b (by simp [sources])) imm 4
  | beq a b | bne a b | blt a b | bge a b | bltu a b | bgeu a b =>
    exact h.branch (hsrc a (by simp [sources])) (hsrc b (by simp [sources])) _ _
  | lui rd => exact h.write rd rfl
  | auipc rd => exact h.write rd (by rw [h.ia_eq])
  | jal rd offset => exact h.jump rd h.pc_eq (congrArg (· + immJ offset) h.ia_eq)
  | jalr rd a imm =>
    exact h.jump rd h.pc_eq (by rw [State.jalrTarget, State.jalrTarget, hsrc a (by simp [sources])])
  | unimplemented33 | unimplemented13 | unimplemented03 | unimplemented23 | unimplemented63 =>
    exact h.retireUnimplemented _

end

/-- Settles O23: an effect writes no register but the destination, and each family of instructions computes its
result from its source registers, the pc, the bytes of memory and the parameters. -/
theorem registersReadAndWritten : Obligations.RegistersReadAndWritten := by
  refine ⟨fun i s t h r hr => (exec_effect h).readReg_eq hr, fun i s₁ s₂ t₁ t₂ hpc hcfg hbyte hsrc h₁ h₂ => ?_⟩
  have halike : AlikeButRegs s₁ s₂ := ⟨fun _ => rfl, hpc, hbyte, hcfg⟩
  obtain ⟨_, _, h₁', h₂', hsame⟩ := halike.exec hsrc
  cases h₁'.symm.trans h₁
  cases h₂'.symm.trans h₂
  exact hsame

end Sys2Proof.Machine
